-- ==== Sys2Proof/Word.lean ====
section
/-! DEFINITION. The word types of `windowed_sinc_resampler` and the plainest reading of a binary32 pattern.
Bit 0 is the least significant bit of every word (rule R7). -/

namespace Sys2Proof

/-- An unsigned 32-bit word, arithmetic modulo 2^32 (rules R8, R190): `phase`, `deltaUp`, `deltaDown`. -/
abbrev U32 := BitVec 32

/-- One sample, the bit pattern of an IEEE 754 binary32 (rule R197, decision D4). -/
abbrev Sample := BitVec 32

/-- One byte of an instruction word laid out for the host (log entry 17). -/
abbrev Byte := BitVec 8

/-- A ring index: three bits, so that its arithmetic is modulo 8 by itself (rule R192). -/
abbrev RingIx := BitVec 3

/-- The eight slots of `inputRing` or of `outputAccum` (rules R28, R29). -/
abbrev Slots := Vector Sample 8

/-- The sixteen slots of `DST` or of `TMP` (rules R52, R54). -/
abbrev Block := Vector Sample 16

/-- The four states of the transition controller (rules R27, R160). -/
inductive Mode where
  | up
  | down
  | up2down
  | down2up
deriving DecidableEq, Repr

/-- The two 16-slot buffers an engine pass can write (rules R140, R150): operand `B`. -/
inductive Buffer where
  | dst
  | tmp
deriving DecidableEq, Repr

/-- Bits 30:23 of a binary32 pattern, the biased exponent (rule R197). -/
def expField (x : Sample) : BitVec 8 := x.extractLsb' 23 8

/-- Bits 22:0 of a binary32 pattern, the fraction (rule R197). -/
def fractionField (x : Sample) : BitVec 23 := x.extractLsb' 0 23

/-- Bit 31 of a binary32 pattern, the sign (rule R197). -/
def signBit (x : Sample) : Bool := x.msb

/-- Neither an infinity nor a NaN: the exponent is not 255 (rule R197). -/
def isFinite (x : Sample) : Bool := expField x != 255#8

/-- Exponent 255 with a non-zero fraction (rule R197). -/
def isNaN (x : Sample) : Bool := expField x == 255#8 && fractionField x != 0#23

/-- Exponent 255 with a zero fraction (rule R197). -/
def isInf (x : Sample) : Bool := expField x == 255#8 && fractionField x == 0#23

/-- A zero of either sign (rules R197, R201). -/
def isZero (x : Sample) : Bool := x.setWidth 31 == 0#31

/-- `ZERO`, the sample +0.0 (rule R9). -/
def zeroSample : Sample := 0x00000000#32

/-- `ONE_S`, the sample 1.0 (rule R9). -/
def oneSample : Sample := 0x3F800000#32

end Sys2Proof
end

