-- ==== Sys2Proof/Config.lean ====
section
/-! DEFINITION. What is fixed for one machine: the parameters of rule R5, the types and the defaults of the parameters that
rule R6 leaves open (State holds their values), and the free values. An `opaque` constant has no body that Lean can unfold: a claim about it holds whatever it is, within the
properties its type carries. -/

namespace Sys2Proof.Config

/-- `BLOCK`: output samples of every `PROCESS16` (rule R5). -/
abbrev blockSize : Nat := 16

/-- `ONE`: one sample period in phase units, `2^25` (rule R5). -/
abbrev one : U32 := 0x02000000#32

/-- `XFADE_KEEP` and `XFADE_LEN`: the two halves of a transition block (rule R5). -/
abbrev xfadeKeep : Nat := 8

/-- `XFADE_DEN`: the blend weights are `1/9 … 8/9` (rule R5). -/
abbrev xfadeDen : Nat := 9

/-- The ratio envelope, a parameter of the machine (rule R6): `RATIO_LO = loNum / loDen` and `RATIO_HI = hiNum / hiDen`, two
exact rationals. It holds the ratio that `RESET` leaves (rules R34, R240), and no ratio in it gives a delta of more than 32
bits (rule R196); both are DEDUCED (log entry 7). -/
structure Envelope where
  loNum : Nat
  loDen : Nat
  hiNum : Nat
  hiDen : Nat
  /-- `RATIO_LO ≤ 1 ≤ RATIO_HI` (rule R34). -/
  holdsOne : loNum ≤ loDen ∧ hiDen ≤ hiNum
  /-- `RATIO_LO > 2^-7` and `RATIO_HI < 2^7`, so that both deltas stay below `2^32` (rule R196). -/
  fits : loDen < 2 ^ 7 * loNum ∧ hiNum < 2 ^ 7 * hiDen
deriving DecidableEq, Repr

/-- The defaults of `RATIO_LO` and `RATIO_HI`: `1/7` and `7` (rules R6, R88, decision D5). -/
def defaultEnvelope : Envelope where
  loNum := 1
  loDen := 7
  hiNum := 7
  hiDen := 1
  holdsOne := by decide
  fits := by decide

/-- The default of `CURSOR_W` (rule R6, decision D18). -/
abbrev defaultCursorW : Nat := 32

/-- The contents of the coefficient ROM: 257 rows of 8 taps (rule R120), every entry finite (rule R124).
The default values of the fields show only that such a table exists. -/
structure RomImage where
  cells : Vector (Vector Sample 8) 257 := Vector.replicate 257 (Vector.replicate 8 zeroSample)
  finite : ∀ (i : Fin 257) (k : Fin 8), isFinite (cells[i])[k] = true := by
    intro i k; simp [isFinite, zeroSample, expField]
deriving Inhabited, DecidableEq, Repr

/-- `ROM`, the hardware's own table: FREE VALUE. The source omits its numbers (rule R129, 91_not_in_source.md N1;
log entry 9). -/
opaque rom : RomImage

/-- The place of a binary32 pattern in the order of the values: sign and magnitude read as one number, both zeros at
`2^31`, the negative values below it and the positive ones above. -/
def orderKey (x : Sample) : Nat :=
  if x.msb then 2 ^ 31 - (x.setWidth 31).toNat else 2 ^ 31 + (x.setWidth 31).toNat

/-- The points at which `EXP2_12` is exact (rule R114 (ii)): `s = 12·n`, `|n| ≤ 2`, with both zeros. -/
def exp2ExactPoints : List (Sample × Sample) :=
  [(0xC1C00000#32, 0x3E800000#32), (0xC1400000#32, 0x3F000000#32), (0x80000000#32, 0x3F800000#32),
   (0x00000000#32, 0x3F800000#32), (0x41400000#32, 0x40000000#32), (0x41C00000#32, 0x40800000#32)]

/-- A step function through the exact points, in the order of the values; it shows only that a function with the
properties of rule R114 exists. -/
def exp2StepFunction (s : Sample) : Sample :=
  if orderKey s < 1052770304 then 0x3E800000#32
  else if orderKey s < 2147483648 then 0x3F000000#32
  else if orderKey s < 3242196992 then 0x3F800000#32
  else if orderKey s < 3250585600 then 0x40000000#32
  else 0x40800000#32

theorem exp2StepFunction_exact : ∀ p ∈ exp2ExactPoints, exp2StepFunction p.1 = p.2 := by
  intro p hp
  simp only [exp2ExactPoints, List.mem_cons, List.not_mem_nil, or_false] at hp
  rcases hp with rfl | rfl | rfl | rfl | rfl | rfl <;> rfl

theorem exp2StepFunction_monotone (a b : Sample) (h : orderKey a ≤ orderKey b) :
    orderKey (exp2StepFunction a) ≤ orderKey (exp2StepFunction b) := by
  have k0 : orderKey 0x3E800000#32 = 3196059648 := by decide +kernel
  have k1 : orderKey 0x3F000000#32 = 3204448256 := by decide +kernel
  have k2 : orderKey 0x3F800000#32 = 3212836864 := by decide +kernel
  have k3 : orderKey 0x40000000#32 = 3221225472 := by decide +kernel
  have k4 : orderKey 0x40800000#32 = 3229614080 := by decide +kernel
  unfold exp2StepFunction
  generalize orderKey a = x at *
  generalize orderKey b = y at *
  split_ifs <;> simp only [k0, k1, k2, k3, k4] <;> clear k0 k1 k2 k3 k4 <;> omega

/-- A function with the properties rule R114 requires of `EXP2_12`: (i) it depends on `s` alone, (ii) it is exact at the
five points, (iii) it is monotone non-decreasing on finite operands. -/
structure Exp2Function where
  value : Sample → Sample := exp2StepFunction
  exact : ∀ p ∈ exp2ExactPoints, value p.1 = p.2 := by exact exp2StepFunction_exact
  monotone : ∀ a b : Sample, isFinite a = true → isFinite b = true → orderKey a ≤ orderKey b →
      orderKey (value a) ≤ orderKey (value b) := by exact fun a b _ _ h => exp2StepFunction_monotone a b h
deriving Inhabited

/-- `EXP2_12`: FREE VALUE. The rounding of `2^(s/12)` is not in the source (rule R114, decision D9; log entry 10). -/
opaque exp2_12 : Exp2Function

/-- The pattern of some NaN. -/
structure NaNPattern where
  bits : Sample := 0x7FC00000#32
  nan : isNaN bits = true := by decide
deriving Inhabited

/-- The sign and payload of the NaN that the `n`-th arithmetic operation would give: FREE VALUE (rule R200,
93_implementation_defined.md U8; log entry 11). -/
opaque nanDraw : Nat → NaNPattern

end Sys2Proof.Config
end

