-- ==== Sys2Proof/Syntax.lean ====
section
/-! DEFINITION. The operations of the block, one constructor for each row of the opcode table (rules R3, R91). -/

namespace Sys2Proof

/-- What one accepted command runs. The operand of a `PROCESS16` row is the source cursor, a number that counts modulo
`2^CURSOR_W` (rules R31, R59; log entry 8); which of the four rows runs is decided by `mode` (rule R91). -/
inductive Instr where
  /-- `000mm`: `RESET`; the argument is ignored (rule R240). -/
  | reset
  /-- `001mm`: `SET_RATIO q` (rule R110). -/
  | setRatio (q : Sample)
  /-- `010mm`: `TRANSPOSE s` (rule R113). -/
  | transpose (s : Sample)
  /-- `01100`: `PROCESS16 c` running `UP16` (rule R140). -/
  | up16 (c : Nat)
  /-- `01101`: `PROCESS16 c` running `DOWN16` (rule R150). -/
  | down16 (c : Nat)
  /-- `01110`: `PROCESS16 c` running `UP2DOWN16` (rule R164). -/
  | up2down16 (c : Nat)
  /-- `01111`: `PROCESS16 c` running `DOWN2UP16` (rule R165). -/
  | down2up16 (c : Nat)
  /-- `1ccmm`: a reserved command code, kept whole; the argument is ignored (rule R92). -/
  | reserved (cmd : BitVec 3)
deriving DecidableEq, Repr

end Sys2Proof
end

