-- ==== Sys2Proof/WellFormed.lean ====
section
/-! DEFINITION. Which terms of `Instr` stand for a command word. -/

namespace Sys2Proof

/-- With a cursor width of `w` bits, the operand of a `PROCESS16` row is a cursor of that width and a reserved command's
code is one of `100` to `111` (rules R90, R92); every operand of the other rows is legal as an encoding (rule R92: the
refused operand values are a matter of meaning, not of form). -/
def WellFormed (w : Nat) : Instr → Bool
  | .reset => true
  | .setRatio _ => true
  | .transpose _ => true
  | .up16 c => decide (c < 2 ^ w)
  | .down16 c => decide (c < 2 ^ w)
  | .up2down16 c => decide (c < 2 ^ w)
  | .down2up16 c => decide (c < 2 ^ w)
  | .reserved cmd => cmd.extractLsb' 2 1 == 1#1

end Sys2Proof
end

