-- ==== Sys2Proof/Decode.lean ====
section
/-! DEFINITION. The encodings of `mode`, of the command and of the dispatch word (rules R89 to R92), the decoder of a
command, the decoder of its byte layout, and the encoder. -/

namespace Sys2Proof

/-- The 2-bit encoding of `mode` (rule R89). -/
def modeBits : Mode → BitVec 2
  | .up => 0b00#2
  | .down => 0b01#2
  | .up2down => 0b10#2
  | .down2up => 0b11#2

/-- The mode that two bits stand for; all four values are legal (rule R89). -/
def modeOfBits (b : BitVec 2) : Mode :=
  if b = 0b00#2 then .up
  else if b = 0b01#2 then .down
  else if b = 0b10#2 then .up2down
  else .down2up

/-- The dispatch word `{cmd[2:0], mode[1:0]}` (rule R91). -/
def dispatchWord (cmd : BitVec 3) (m : Mode) : BitVec 5 := cmd ++ modeBits m

/-- `AW = max(32, CURSOR_W)`: how many bits an argument has, with a cursor width of `w` bits (rule R90). -/
def argW (w : Nat) : Nat := max 32 w

/-- A cursor brought into range: modulo `2^CURSOR_W` (rule R59). -/
def wrapCursor (w c : Nat) : Nat := c % 2 ^ w

/-- A command's argument read as a binary32: `arg[31:0]` (rules R90, R92). -/
def argSample (arg : Nat) : Sample := BitVec.ofNat 32 arg

/-- A command's argument read as a cursor: `arg[CURSOR_W-1:0]` (rules R90, R92). -/
def argCursor (w arg : Nat) : Nat := wrapCursor w arg

/-- Does the dispatch word fit a row of the opcode table, given as the row's mask and pattern? -/
def fitsRow (mask pattern w : BitVec 5) : Bool := w &&& mask == pattern

/-- The operation a dispatch word `d` and an argument name, with a cursor width of `w` bits (rules R91, R92). The rows cover all 32 words, so there is nothing
to reject: a reserved code is a row of its own. -/
def decodeCommand (w : Nat) (d : BitVec 5) (arg : Nat) : Instr :=
  if fitsRow 0b11100#5 0b00000#5 d then .reset
  else if fitsRow 0b11100#5 0b00100#5 d then .setRatio (argSample arg)
  else if fitsRow 0b11100#5 0b01000#5 d then .transpose (argSample arg)
  else if fitsRow 0b11111#5 0b01100#5 d then .up16 (argCursor w arg)
  else if fitsRow 0b11111#5 0b01101#5 d then .down16 (argCursor w arg)
  else if fitsRow 0b11111#5 0b01110#5 d then .up2down16 (argCursor w arg)
  else if fitsRow 0b11111#5 0b01111#5 d then .down2up16 (argCursor w arg)
  else .reserved (d.extractLsb' 2 3)

/-- Why bytes are no command. -/
inductive DecodeError where
  /-- Fewer than the bytes of a command. -/
  | truncated
  /-- Bits 7:5 of the first byte are not part of a dispatch word, and bits of the last byte at and above `AW` not part of an
  argument; they must be zero. -/
  | strayBits
deriving DecidableEq, Repr

/-- What the decoder of bytes answers: an instruction and the bytes after it, or a rejection by name. -/
inductive DecodeResult where
  | instr (i : Instr) (rest : List Byte)
  | reject (e : DecodeError)
deriving DecidableEq, Repr

/-- How many bytes hold an argument: `AW` bits, rounded up; four with the default cursor width (log entry 17). -/
def argLength (w : Nat) : Nat := (argW w + 7) / 8

/-- The number that bytes stand for, least significant first (log entry 17). -/
def bytesValue : List Byte → Nat
  | [] => 0
  | b :: rest => b.toNat + 2 ^ 8 * bytesValue rest

/-- Decode the byte layout of one command: the dispatch word in bits 4:0 of the first byte, then the argument,
least significant byte first (log entry 17). -/
def decode (w : Nat) : List Byte → DecodeResult
  | [] => .reject .truncated
  | b :: l =>
    if l.length < argLength w then .reject .truncated
    else
      let arg := bytesValue (l.take (argLength w))
      if b.extractLsb' 5 3 = 0#3 ∧ arg < 2 ^ argW w then
        .instr (decodeCommand w (b.setWidth 5) arg) (l.drop (argLength w))
      else .reject .strayBits

/-- The dispatch word of an instruction; ignored mode bits are written as zeros (rules R90, R91; log entry 18). -/
def encodeDispatch : Instr → BitVec 5
  | .reset => 0b00000#5
  | .setRatio _ => 0b00100#5
  | .transpose _ => 0b01000#5
  | .up16 _ => 0b01100#5
  | .down16 _ => 0b01101#5
  | .up2down16 _ => 0b01110#5
  | .down2up16 _ => 0b01111#5
  | .reserved cmd => cmd ++ 0b00#2

/-- The argument of an instruction; an ignored argument is written as zero (rule R90). -/
def encodeArg : Instr → Nat
  | .reset => 0
  | .setRatio q => q.toNat
  | .transpose s => s.toNat
  | .up16 c => c
  | .down16 c => c
  | .up2down16 c => c
  | .down2up16 c => c
  | .reserved _ => 0

/-- The `n` low bytes of a number, least significant first (log entry 17). -/
def numberBytes : Nat → Nat → List Byte
  | 0, _ => []
  | n + 1, v => BitVec.ofNat 8 v :: numberBytes n (v / 2 ^ 8)

/-- The bytes of an argument (log entry 17). -/
def argBytes (w arg : Nat) : List Byte := numberBytes (argLength w) arg

/-- The byte layout of an instruction, the inverse of `decode`. -/
def encode (w : Nat) (i : Instr) : List Byte := (encodeDispatch i).setWidth 8 :: argBytes w (encodeArg i)

/-- The bytes of an instruction word numbered as the opcode table numbers its bits, with the default cursor width: the
dispatch word is the first byte, the argument follows it; bits at and above `nbits` are zero. -/
def tableBytes (nbits w : Nat) : List Byte := numberBytes (1 + argLength Config.defaultCursorW) (w % 2 ^ nbits)

/-- The instruction the decoder reads from an instruction whose bits are `w`, none where it rejects. -/
def decodeTableWord (nbits w : Nat) : Option Instr :=
  match decode Config.defaultCursorW (tableBytes nbits w) with
  | .instr i _ => some i
  | .reject _ => none

end Sys2Proof
end

