-- ==== Sys2Proof/Machine/State.lean ====
section
/-! DEFINITION. The state of the machine as plain data: the registers of rule R20, the memories of rule R50, the host's
side of the ports (rules R31, R60, R90), the parameters that rule R6 leaves open, and the model's own counter of arithmetic operations. -/

namespace Sys2Proof.Machine

/-- `SRC`, the host's source samples: pairs of a cursor and its sample, sparse, in the canonical form `Memory.wf`
(rules R50, R51; log entry 1). -/
abbrev Memory := List (Nat × Sample)

/-- A stretch of cursors the host has made readable: `count` cursors from `first` upward, modulo `2^CURSOR_W`
(rules R59, R60). -/
structure Window where
  first : Nat
  count : Nat
deriving DecidableEq, Repr

/-- One access the block makes to a memory, in the vocabulary of rules R10 and R50 (rule R61; log entry 16). -/
inductive Access where
  /-- `MemRead(SRC, c)` -/
  | sourceRead (c : Nat)
  /-- a read of `ROM` at the physical address `{row[8:0], tap[2:0]}` (rule R93) -/
  | romRead (address : BitVec 12)
  /-- `MemWrite(B, n, v)` -/
  | write (b : Buffer) (n : Nat) (v : Sample)
  /-- a read of slot `n` of `DST` or `TMP`, by the blend (rule R168) -/
  | read (b : Buffer) (n : Nat)
deriving DecidableEq, Repr

/-- What the host does next (rules R13, R62, R64, R90; log entry 14). -/
inductive Input where
  /-- A command on the command port (rule R90). -/
  | command (cmd : BitVec 3) (arg : Nat)
  /-- The host writes one source sample, between operations (rule R64). -/
  | writeSource (c : Nat) (v : Sample)
  /-- The host says which cursors are readable from now on: `SRC_VALID` (rule R60). -/
  | setValid (windows : List Window)
deriving DecidableEq, Repr

/-- The machine's state. `ratio` to `outputAccum` are the registers of rule R20; the rest are the memories, the
parameters of the machine (rule R6) and the ports. -/
structure State where
  /-- the last ratio operand (rule R21) -/
  ratio : Sample
  /-- `1/ratio` (rule R22) -/
  downscale : Sample
  /-- `2^25 · ratio` (rule R23) -/
  deltaUp : U32
  /-- `2^25 / ratio` (rule R24) -/
  deltaDown : U32
  /-- the phase accumulator (rule R25) -/
  phase : U32
  /-- the transition controller (rule R27) -/
  mode : Mode
  /-- recent source samples (rule R28) -/
  inputRing : Slots
  /-- pending output sums (rule R29) -/
  outputAccum : Slots
  /-- the destination buffer (rule R52) -/
  dst : Block
  /-- the secondary block buffer (rules R32, R54; log entry 5) -/
  tmp : Block
  /-- `RATIO_LO` and `RATIO_HI`, parameters of the machine, which nothing writes (rule R6; log entry 7) -/
  envelope : Config.Envelope
  /-- `CURSOR_W`, a parameter of the machine, which nothing writes (rule R6; log entry 8) -/
  cursorW : Nat
  /-- the coefficient ROM, which nothing writes (rules R30, R53; log entry 9) -/
  rom : Config.RomImage
  /-- the host's source memory (rule R51) -/
  src : Memory
  /-- `SRC_VALID`, the union of the windows (rule R60) -/
  srcValid : List Window
  /-- what the host does next, in order (rules R62, R90) -/
  inputs : List Input
  /-- what the most recent command returned on the response port (rule R90; log entry 15) -/
  response : Option Nat
  /-- the accesses of the most recent command, in order (rule R61; log entry 16) -/
  accesses : List Access
  /-- the model's own: how many sample operations have been performed, the number of the next NaN draw (log entry 11) -/
  draws : Nat
deriving DecidableEq, Repr

/-- Where the model has no next state because the operation is stuck (rule R11); the block itself raises nothing (R220). -/
inductive Fault where
  /-- Raised by `UP16` and `DOWN16`, and by the transition operations through them, at a read of a cursor outside
  `SRC_VALID` (rule R60, 93_implementation_defined.md U5). Safe: the hardware reads whatever is there. -/
  | sourceReadOutsideValid
  /-- Raised by `DOWN16`, and by the transition operations through it, when `deltaDown` never changes `RING`, so that the
  loop has no end (rule R158, 93_implementation_defined.md U4). Safe: the hardware hangs. -/
  | downNeverRotates
deriving DecidableEq, Repr

/-- Where the model gives an operation no meaning; the closed list of 93_implementation_defined.md part 2, and the host's
own reason. A refused operation changes nothing (rule R224). -/
inductive Refusal where
  /-- An instruction that has no meaning in the model yet. Raised by `exec` alone. Safe. -/
  | notModelled (mnemonic : String)
  /-- Raised by `SET_RATIO` and `TRANSPOSE` on an operand that is not admitted (rules R88, R113). Safe: the hardware
  computes something the spec does not describe. -/
  | ratioOutsideEnvelope
  /-- Raised by a reserved command code (rule R92). Safe. -/
  | reservedCommand
  /-- A command while another is in progress. Raised by nothing: at transaction level it cannot be expressed
  (rules R220, R223; log entry 20). Safe. -/
  | overlappingCommand
deriving DecidableEq, Repr

/-- The machine right after reset (rules R35, R240). The values the spec does not give are in log entries 2 to 5. -/
def State.reset : State where
  ratio := oneSample
  downscale := oneSample
  deltaUp := 0x02000000#32
  deltaDown := 0x02000000#32
  phase := 0x00000000#32
  mode := .up
  inputRing := Vector.replicate 8 zeroSample
  outputAccum := Vector.replicate 8 zeroSample
  dst := Vector.replicate 16 zeroSample
  tmp := Vector.replicate 16 zeroSample
  envelope := Config.defaultEnvelope
  cursorW := Config.defaultCursorW
  rom := Config.rom
  src := []
  srcValid := [⟨0, 2 ^ Config.defaultCursorW⟩]
  inputs := []
  response := none
  accesses := []
  draws := 0

end Sys2Proof.Machine
end

