-- ==== Sys2Proof/Machine/Numerics.lean ====
section
/-! DEFINITION. Sample arithmetic: binary32 with round to nearest even, one rounding for each operator, no fusion
(rules R197 to R205). Operands are read as exact integers of units of `2^-149`, the result is exact, and the rounding
narrows it once. -/

namespace Sys2Proof.Machine

/-- The magnitude of a finite sample in units of `2^-149`, the least subnormal (rule R197). -/
def magUnits (x : Sample) : Nat :=
  if expField x = 0#8 then (fractionField x).toNat
  else (2 ^ 23 + (fractionField x).toNat) * 2 ^ ((expField x).toNat - 1)

/-- A finite sample in units of `2^-149`, exactly. -/
def sampleUnits (x : Sample) : Int :=
  if signBit x then -(magUnits x : Int) else (magUnits x : Int)

/-- Round `num / den` to an integer, to nearest, ties to even. -/
def divNearestEven (num den : Nat) : Nat :=
  if 2 * (num % den) > den ∨ (2 * (num % den) = den ∧ num / den % 2 = 1) then num / den + 1 else num / den

/-- The exponent field, less one for normal numbers, of the binary32 whose magnitude is about `n` least subnormals. -/
def ulpExponent (n : Nat) : Nat := if n < 2 ^ 24 then 0 else Nat.log2 n - 23

/-- Bits 30:0 of `RN32(num / den)` for `den > 0` (rule R205): the significand is rounded to nearest even in units of the
last place, a carry out of it moves into the exponent, and from `2^128 − 2^103` on the result is the infinity. -/
def roundMagnitude (num den : Nat) : Nat :=
  let e := ulpExponent (num * 2 ^ 149 / den)
  min (e * 2 ^ 23 + divNearestEven (num * 2 ^ 149) (den * 2 ^ e)) 0x7F800000

/-- `RN32` of `num / den`, negated where `neg` says so (rule R205). -/
def rn32 (neg : Bool) (num den : Nat) : Sample :=
  BitVec.ofNat 32 ((if neg then 2 ^ 31 else 0) + roundMagnitude num den)

/-- The result of the arithmetic operation number `d` where the rules give a NaN and fix no pattern (rule R200). -/
def freeNaN (d : Nat) : Sample := (Config.nanDraw d).bits

/-- The sample with its sign changed. -/
def negSample (x : Sample) : Sample := x ^^^ 0x80000000#32

/-- `a ⊕ b`, the arithmetic operation number `d` (rules R198, R200, R201). -/
def addS (d : Nat) (a b : Sample) : Sample :=
  if isNaN a || isNaN b then freeNaN d
  else if isInf a then (if isInf b && signBit a != signBit b then freeNaN d else a)
  else if isInf b then b
  else
    let sum := sampleUnits a + sampleUnits b
    if sum = 0 then (if signBit a && signBit b then 0x80000000#32 else zeroSample)
    else rn32 (sum < 0) sum.natAbs (2 ^ 149)

/-- `a ⊖ b`, the arithmetic operation number `d`: `a ⊕ (−b)` (rules R198, R209). -/
def subS (d : Nat) (a b : Sample) : Sample := addS d a (negSample b)

/-- `a ⊗ b`, the arithmetic operation number `d` (rules R198, R200, R201). -/
def mulS (d : Nat) (a b : Sample) : Sample :=
  if isNaN a || isNaN b then freeNaN d
  else if isInf a || isInf b then
    if isZero a || isZero b then freeNaN d
    else if signBit a != signBit b then 0xFF800000#32 else 0x7F800000#32
  else rn32 (signBit a != signBit b) (magUnits a * magUnits b) (2 ^ 149 * 2 ^ 149)

/-- The left-to-right chain `((acc ⊕ p0) ⊕ p1) ⊕ …`, operation numbers from `d` on (rule R199). -/
def sumChain (d : Nat) (acc : Sample) : List Sample → Sample
  | [] => acc
  | p :: ps => sumChain (d + 1) (addS d acc p) ps

/-- `a ⊕ (w ⊗ (b ⊖ a))`: the interpolation of `UP16` and the blend of a transition, three operations from number `d` on
(rules R144, R168, R199). -/
def interpolate (d : Nat) (w a b : Sample) : Sample := addS (d + 2) a (mulS (d + 1) w (subS d b a))

end Sys2Proof.Machine
end

