-- ==== Sys2Proof/Machine/Operands.lean ====
section
/-! DEFINITION. How the block reads its operands: the fields of a phase value (R81, R82), ring slots (R192), ROM rows and
addresses (R93), the fraction weights (R204), the blend weights (R94), and the conversions of the ratio operand
(R85 to R88, R114). -/

namespace Sys2Proof.Machine

/-- `FRAC(p) = p[16:0]` (rule R82). -/
def fracOf (p : U32) : BitVec 17 := p.extractLsb' 0 17

/-- `TAB(p) = p[24:17]` (rule R82). -/
def tabOf (p : U32) : BitVec 8 := p.extractLsb' 17 8

/-- `RING(p) = p[27:25]` (rule R82). -/
def ringOf (p : U32) : RingIx := p.extractLsb' 25 3

/-- `CARRY(p) = p[31:28]`, read by no operation (rules R82, R83). -/
def carryOf (p : U32) : BitVec 4 := p.extractLsb' 28 4

/-- Slot `i` of a register file (rule R10). -/
def slotGet (v : Slots) (i : RingIx) : Sample := v[i.toNat]'(i.isLt)

/-- Write slot `i` of a register file (rule R10). -/
def slotSet (v : Slots) (i : RingIx) (x : Sample) : Slots := v.set i.toNat x i.isLt

/-- The slot that tap `k` of a walk from `base` meets: `base +8 k` (rules R143, R153, R192). -/
def tapSlot (base : RingIx) (k : Fin 8) : RingIx := base + BitVec.ofNat 3 k.val

/-- The eight taps in ascending order (rules R153, R199). -/
def taps : List (Fin 8) := [0, 1, 2, 3, 4, 5, 6, 7]

/-- The ROM row selected by a phase value: `TAB(p)` (rules R83, R93). -/
def rowIndex (p : U32) : Fin 257 := ⟨(tabOf p).toNat, Nat.lt_succ_of_lt (tabOf p).isLt⟩

/-- The next ROM row: `TAB(p) + 1`, which does not wrap: 256 is the sentinel row (rules R93, R126). -/
def nextRowIndex (p : U32) : Fin 257 := ⟨(tabOf p).toNat + 1, Nat.succ_lt_succ (tabOf p).isLt⟩

/-- `ROM[i][k]` (rules R10, R120). -/
def romAt (rom : Config.RomImage) (i : Fin 257) (k : Fin 8) : Sample := (rom.cells[i])[k]

/-- The physical address of a coefficient: `{row[8:0], tap[2:0]}` (rules R53, R93). -/
def romAddress (i : Fin 257) (k : Fin 8) : BitVec 12 := BitVec.ofNat 9 i.val ++ BitVec.ofNat 3 k.val

/-- `fracS(F) = F / 2^17`, exact for `F` in `[0, 2^17]` (rules R9, R204). -/
def fracS (F : Nat) : Sample := rn32 false F (2 ^ 17)

/-- `W[j] = RN32((j+1)/9)` (rule R94, decision D17). -/
def blendWeight (j : Fin 8) : Sample := rn32 false (j.val + 1) Config.xfadeDen

/-- The operand check of `SET_RATIO`: finite, and `RATIO_LO ≤ q ≤ RATIO_HI` as exact rationals (rule R88). -/
def admitted (e : Config.Envelope) (q : Sample) : Bool :=
  isFinite q && !signBit q &&
  decide (e.loNum * 2 ^ 149 ≤ magUnits q * e.loDen) &&
  decide (magUnits q * e.hiDen ≤ e.hiNum * 2 ^ 149)

/-- `deltaUp = floor(2^25 · q)`, for an admitted `q` (rule R85, decision D6). -/
def deltaUpOf (q : Sample) : U32 := BitVec.ofNat 32 (2 ^ 25 * magUnits q / 2 ^ 149)

/-- `deltaDown = floor(2^25 / q)`, for an admitted `q` (rule R86, decision D7). -/
def deltaDownOf (q : Sample) : U32 := BitVec.ofNat 32 (2 ^ 25 * 2 ^ 149 / magUnits q)

/-- `downscale = RN32(1 / q)`, for an admitted `q` (rule R87, decision D8). -/
def downscaleOf (q : Sample) : Sample := rn32 false (2 ^ 149) (magUnits q)

/-- `EXP2_12(s)` (rule R114, decision D9): the exact points are written out, so that they evaluate; everywhere the result is
that of the free function (`exp2Of_eq` in Laws/Ratio.lean). -/
def exp2Of (s : Sample) : Sample :=
  match Config.exp2ExactPoints.lookup s with
  | some v => v
  | none => Config.exp2_12.value s

end Sys2Proof.Machine
end

