-- ==== Sys2Proof/Machine/Flags.lean ====
section
/-! DEFINITION. The block has no flags, no condition codes and no floating-point status (rules R33, R203). Its only
condition-like state is `mode`; this file holds the comparisons that decide it and the other tests of rule R194. -/

namespace Sys2Proof.Machine

/-- The mode check of `SET_RATIO` on the new deltas, unsigned and strict (rules R111, R194). -/
def modeCheck (m : Mode) (dUp dDown : U32) : Mode :=
  match m with
  | .up => if dUp > Config.one then .up2down else .up
  | .down => if dDown > Config.one then .down2up else .down
  | .up2down => .up2down
  | .down2up => .down2up

/-- Did an addition rotate the ring: is `RING` after it different from `RING` before it (rules R155, R194)? -/
def rotated (before after : U32) : Bool := ringOf after != ringOf before

/-- How many slots an addition advances the ring: `r' -8 r` (rules R142, R192). -/
def slotsAdvanced (before after : U32) : Nat := (ringOf after - ringOf before).toNat

/-- Can adding `d` change `RING` at all? Only `d mod 2^28` reaches the fields the rules read (rules R158, R193). -/
def canRotate (d : U32) : Bool := d.extractLsb' 0 28 != 0#28

end Sys2Proof.Machine
end

