-- ==== Sys2Proof/Machine/Ops.lean ====
section
/-! DEFINITION. The named operations over memory, ports and registers that the meanings share. The block takes no
exception and returns from none (rules R220, R224, R225): there is no trap entry to write here. What stands in its place
is `answer`, which turns a stuck engine pass into a fault. -/

namespace Sys2Proof.Machine

/-! ### `SRC` -/

/-- What an unlisted cursor of `SRC` reads as (log entry 2). -/
def Memory.unlisted : Sample := zeroSample

/-- `MemRead(SRC, c)` on the contents alone (rule R51). -/
def Memory.read (m : Memory) (c : Nat) : Sample :=
  match m with
  | [] => Memory.unlisted
  | (a, v) :: rest => if a = c then v else Memory.read rest c

/-- Put the sample `v` at key `a`, keeping the keys rising; the value an unlisted cursor reads as is not listed. -/
def Memory.insert (m : Memory) (a : Nat) (v : Sample) : Memory :=
  match m with
  | [] => if v = Memory.unlisted then [] else [(a, v)]
  | (b, w) :: rest =>
    if b < a then (b, w) :: Memory.insert rest a v
    else
      let tail := if b = a then rest else (b, w) :: rest
      if v = Memory.unlisted then tail else (a, v) :: tail

/-- The host's write of one source sample, between operations (rules R62, R64). -/
def Memory.write (m : Memory) (c : Nat) (v : Sample) : Memory := Memory.insert m c v

/-- The canonical form: keys strictly rising from `low` on and below `2^w`, no entry equal to what an unlisted cursor reads
as. -/
def Memory.wfFrom (w low : Nat) : Memory → Bool
  | [] => true
  | (a, v) :: rest => decide (low ≤ a) && decide (a < 2 ^ w) && v != Memory.unlisted && Memory.wfFrom w (a + 1) rest

/-- The canonical form of `SRC` with cursors of `w` bits, so that equal memories are equal data. -/
def Memory.wf (w : Nat) (m : Memory) : Bool := Memory.wfFrom w 0 m

/-- Is a cursor in the stretch: `first`, `first + 1`, …, modulo `2^w` (rule R59)? -/
def Window.covers (w : Nat) (win : Window) (c : Nat) : Bool :=
  decide ((c % 2 ^ w + (2 ^ w - win.first % 2 ^ w)) % 2 ^ w < win.count)

/-- Is a cursor in `SRC_VALID` (rule R60)? -/
def cursorValid (w : Nat) (ws : List Window) (c : Nat) : Bool := ws.any (·.covers w c)

/-- `MemRead(SRC, c)`: one sample, or stuck outside `SRC_VALID` (rules R51, R60); the cursor counts modulo `2^CURSOR_W`
(rule R59). -/
def readSource (s : State) (c : Nat) : Except Fault Sample :=
  if cursorValid s.cursorW s.srcValid (wrapCursor s.cursorW c) then .ok (s.src.read (wrapCursor s.cursorW c))
  else .error .sourceReadOutsideValid

/-! ### Buffers and registers -/

/-- The buffer an engine pass is to write. -/
def blockOf (b : Buffer) (s : State) : Block :=
  match b with
  | .dst => s.dst
  | .tmp => s.tmp

/-- Replace the contents of a buffer. -/
def setBlock (b : Buffer) (v : Block) (s : State) : State :=
  match b with
  | .dst => { s with dst := v }
  | .tmp => { s with tmp := v }

/-- All eight slots at `ZERO` (rules R167, R240). -/
def zeroSlots : Slots := Vector.replicate 8 zeroSample

/-- The register writes of `RESET` (rules R35, R240). -/
def resetRegisters (s : State) : State :=
  { s with
    ratio := oneSample
    downscale := oneSample
    deltaUp := 0x02000000#32
    deltaDown := 0x02000000#32
    phase := 0x00000000#32
    mode := .up
    inputRing := zeroSlots
    outputAccum := zeroSlots }

/-- The four register writes of `SET_RATIO` (rule R110). -/
def loadRatio (q : Sample) (s : State) : State :=
  { s with
    ratio := q
    downscale := downscaleOf q
    deltaUp := deltaUpOf q
    deltaDown := deltaDownOf q }

/-- Write `mode`. -/
def setMode (m : Mode) (s : State) : State := { s with mode := m }

/-- `phase <- ~32 phase` (rules R166, R191). -/
def complementPhase (s : State) : State := { s with phase := ~~~s.phase }

/-- Clear `inputRing` (rule R167). -/
def clearInputRing (s : State) : State := { s with inputRing := zeroSlots }

/-- Clear `outputAccum` (rule R167). -/
def clearOutputAccum (s : State) : State := { s with outputAccum := zeroSlots }

/-- Hand a cursor to the host on the response port, which has `CURSOR_W` bits (rules R10, R59, R90). -/
def respond (c : Nat) (s : State) : State := { s with response := some (wrapCursor s.cursorW c) }

/-- Accept a command: it leaves the command port, nothing has been returned yet and nothing accessed
(log entries 14, 15, 16). -/
def acceptCommand (rest : List Input) (s : State) : State :=
  { s with inputs := rest, response := none, accesses := [] }

/-- The host writes one source sample (log entry 14). -/
def hostWriteSource (c : Nat) (v : Sample) (rest : List Input) (s : State) : State :=
  { s with inputs := rest, src := s.src.write (wrapCursor s.cursorW c) v }

/-- The host says which cursors are readable (log entry 14). -/
def hostSetValid (ws : List Window) (rest : List Input) (s : State) : State :=
  { s with inputs := rest, srcValid := ws }

/-- The common part of `SET_RATIO` and `TRANSPOSE`: the operand check, the four registers, the mode check on the new
deltas (rules R88, R110, R111). -/
def applyRatio (q : Sample) (s : State) : Host.Outcome State Fault Refusal :=
  if admitted s.envelope q then .next (setMode (modeCheck s.mode (deltaUpOf q) (deltaDownOf q)) (loadRatio q s))
  else .refused .ratioOutsideEnvelope

/-- The outcome of a `PROCESS16`: its next state with the cursor it returns, or the reason it is stuck (rules R11, R60). -/
def answer (r : Except Fault (Nat × State)) : Host.Outcome State Fault Refusal :=
  match r with
  | .ok (c, s) => .next (respond c s)
  | .error f => .fault f

end Sys2Proof.Machine
end

