-- ==== Sys2Proof/Machine/Ratio.lean ====
section
/-! DEFINITION. Ratio control: `SET_RATIO` and `TRANSPOSE` (rules R110 to R116). -/

namespace Sys2Proof.Machine

/-- `SET_RATIO q` (rule R110). -/
def execSetRatio (q : Sample) (s : State) : Host.Outcome State Fault Refusal := applyRatio q s

/-- `TRANSPOSE s`: refused for a NaN or an infinity, else `SET_RATIO EXP2_12(s)` with its own refusal (rule R113). -/
def execTranspose (semitones : Sample) (s : State) : Host.Outcome State Fault Refusal :=
  if isFinite semitones then applyRatio (exp2Of semitones) s else .refused .ratioOutsideEnvelope

end Sys2Proof.Machine
end

