-- ==== Sys2Proof/Machine/System.lean ====
section
/-! DEFINITION. The one system operation, `RESET` (rules R189, R240), and the reserved command codes (rule R92). -/

namespace Sys2Proof.Machine

/-- `RESET`: accepted in every state, it writes every register and no memory (rule R240). -/
def execReset (s : State) : Host.Outcome State Fault Refusal := .next (resetRegisters s)

/-- A reserved command code: the block has no trap and the source no behaviour; the model refuses (rule R92, decision D22). -/
def execReserved (_cmd : BitVec 3) (_s : State) : Host.Outcome State Fault Refusal := .refused .reservedCommand

end Sys2Proof.Machine
end

