-- ==== Sys2Proof/Machine/Engines.lean ====
section
/-! DEFINITION. The two engines, `UP16` (rules R140 to R148) and `DOWN16` (rules R150 to R159), as passes that either
buffer can receive, and the meanings of the two `PROCESS16` rows that run one engine. The settings (deltas, `downscale`,
ROM, `SRC`) are those of the state at entry, held for the pass (rules R63, R184). A pass counts its cursor up from the entry
cursor; every read, the access record and the response take the count modulo `2^CURSOR_W`, which is what an increment
modulo `2^CURSOR_W` after every read gives (rule R59). -/

namespace Sys2Proof.Machine

/-! ### `UP16` -/

/-- What changes while `UP16` runs. -/
structure UpPass where
  phase : U32
  ring : Slots
  cursor : Nat
  out : Block
  draws : Nat
  accesses : List Access
deriving DecidableEq, Repr

/-- Pull `n` source samples: each is stored at the index being left, which then advances (rule R142, step 2). -/
def pull (s : State) : Nat → RingIx → UpPass → Except Fault UpPass
  | 0, _, p => .ok p
  | n + 1, r, p => do
    let x ← readSource s p.cursor
    pull s n (r + 1#3)
      { p with
        ring := slotSet p.ring r x
        cursor := p.cursor + 1
        accesses := p.accesses ++ [.sourceRead (wrapCursor s.cursorW p.cursor)] }

/-- Tap `k` of a row meets slot `base +8 k` (rules R143, R199): product number `d + k`. -/
def tapProduct (d : Nat) (rom : Config.RomImage) (row : Fin 257) (ring : Slots) (base : RingIx) (k : Fin 8) : Sample :=
  mulS (d + k.val) (romAt rom row k) (slotGet ring (tapSlot base k))

/-- One weighted sum over the eight slots, oldest first: eight products, then seven additions (rules R143, R199). -/
def tapSum (d : Nat) (rom : Config.RomImage) (row : Fin 257) (ring : Slots) (base : RingIx) : Sample :=
  sumChain (d + 8) (tapProduct d rom row ring base 0) (taps.tail.map (tapProduct d rom row ring base))

/-- Steps 3 and 4 for one output sample: the two sums and the interpolation between them (rules R143, R144); 33 operations
from number `d` on. -/
def upSample (d : Nat) (rom : Config.RomImage) (phase : U32) (ring : Slots) : Sample :=
  interpolate (d + 30) (fracS (fracOf phase).toNat)
    (tapSum d rom (rowIndex phase) ring (ringOf phase))
    (tapSum (d + 15) rom (nextRowIndex phase) ring (ringOf phase))

/-- The sixteen coefficient reads of one output sample: one row, then the next (rules R130, R140). -/
def upRomReads (phase : U32) : List Access :=
  taps.map (fun k => .romRead (romAddress (rowIndex phase) k)) ++
  taps.map (fun k => .romRead (romAddress (nextRowIndex phase) k))

/-- One output sample of `UP16`: advance, pull, sum, interpolate (rule R140). -/
def upStep (s : State) (b : Buffer) (n : Nat) (p : UpPass) : Except Fault UpPass := do
  let phase := p.phase + s.deltaUp
  let p ← pull s (slotsAdvanced p.phase phase) (ringOf p.phase) { p with phase := phase }
  let y := upSample p.draws s.rom p.phase p.ring
  .ok { p with
        out := p.out.setIfInBounds n y
        draws := p.draws + 33
        accesses := p.accesses ++ (upRomReads p.phase ++ [.write b n y]) }

/-- The first `n` output samples, in order. -/
def upSteps (s : State) (b : Buffer) : Nat → UpPass → Except Fault UpPass
  | 0, p => .ok p
  | n + 1, p => do
    let p ← upSteps s b n p
    upStep s b n p

/-- `UP16` at its entry, with cursor `c` and buffer `b`. -/
def upStart (s : State) (c : Nat) (b : Buffer) : UpPass where
  phase := s.phase
  ring := s.inputRing
  cursor := c
  out := blockOf b s
  draws := s.draws
  accesses := s.accesses

/-- `UP16` at its end: `phase`, `inputRing` and the buffer are written (rule R140). -/
def upFinish (b : Buffer) (p : UpPass) (s : State) : State :=
  setBlock b p.out
    { s with phase := p.phase, inputRing := p.ring, draws := p.draws, accesses := p.accesses }

/-- `UP16(c, B)`: the cursor it returns and the state it leaves (rules R140, R145). -/
def runUp (c : Nat) (b : Buffer) (s : State) : Except Fault (Nat × State) := do
  let p ← upSteps s b Config.blockSize (upStart s c b)
  .ok (p.cursor, upFinish b p s)

/-! ### `DOWN16` -/

/-- What changes while `DOWN16` runs; `emitted` is the pseudocode's `n`. -/
structure DownPass where
  phase : U32
  accum : Slots
  cursor : Nat
  out : Block
  emitted : Nat
  draws : Nat
  accesses : List Access
deriving DecidableEq, Repr

/-- Tap `k` of the walk: slot `r +8 k` receives the row's part, then the next row's part (rules R153, R199); four
operations from number `d + 4k` on. -/
def accumulateTap (d : Nat) (rom : Config.RomImage) (phase : U32) (x0 x1 : Sample) (acc : Slots) (k : Fin 8) : Slots :=
  let i := tapSlot (ringOf phase) k
  let d := d + 4 * k.val
  slotSet acc i
    (addS (d + 3)
      (addS (d + 1) (slotGet acc i) (mulS d (romAt rom (rowIndex phase) k) x0))
      (mulS (d + 2) (romAt rom (nextRowIndex phase) k) x1))

/-- All eight taps (rule R153). -/
def accumulate (d : Nat) (rom : Config.RomImage) (phase : U32) (x0 x1 : Sample) (acc : Slots) : Slots :=
  taps.foldl (accumulateTap d rom phase x0 x1) acc

/-- Scale the source sample, split it by the fraction and accumulate both parts (rules R152, R153); 35 operations from
number `d` on. -/
def downAccumulate (d : Nat) (rom : Config.RomImage) (downscale : Sample) (phase : U32) (x : Sample) (acc : Slots) : Slots :=
  let xs := mulS d x downscale
  let F := (fracOf phase).toNat
  accumulate (d + 3) rom phase (mulS (d + 1) xs (fracS (2 ^ 17 - F))) (mulS (d + 2) xs (fracS F)) acc

/-- The sixteen coefficient reads of one source sample: for each tap the row's, then the next row's (rules R130, R150). -/
def downRomReads (phase : U32) : List Access :=
  taps.flatMap (fun k => [.romRead (romAddress (rowIndex phase) k), .romRead (romAddress (nextRowIndex phase) k)])

/-- One source sample of `DOWN16`: read, accumulate, advance, and on a rotation emit and clear the slot that `RING` named
before the advance (rules R150 to R156). -/
def downStep (s : State) (b : Buffer) (p : DownPass) : Except Fault DownPass := do
  let x ← readSource s p.cursor
  let acc := downAccumulate p.draws s.rom s.downscale p.phase x p.accum
  let phase := p.phase + s.deltaDown
  let accesses := p.accesses ++ (.sourceRead (wrapCursor s.cursorW p.cursor) :: downRomReads p.phase)
  let p' : DownPass :=
    { p with phase := phase, accum := acc, cursor := p.cursor + 1, draws := p.draws + 35, accesses := accesses }
  if rotated p.phase phase then
    let y := slotGet acc (ringOf p.phase)
    .ok { p' with
          out := p.out.setIfInBounds p.emitted y
          accum := slotSet acc (ringOf p.phase) zeroSample
          emitted := p.emitted + 1
          accesses := accesses ++ [.write b p.emitted y] }
  else .ok p'

/-- The loop of `DOWN16`, at most `fuel` source samples (rules R151, R158). -/
def downLoop (s : State) (b : Buffer) : Nat → DownPass → Except Fault DownPass
  | 0, p => if p.emitted < Config.blockSize then .error .downNeverRotates else .ok p
  | fuel + 1, p =>
    if p.emitted < Config.blockSize then do
      let p ← downStep s b p
      downLoop s b fuel p
    else .ok p

/-- Source samples that suffice for sixteen rotations whenever `deltaDown` rotates the ring at all: at most `2^25` for
each (rule R158; log entry 21). -/
def downFuel : Nat := 16 * 2 ^ 25

/-- `DOWN16` at its entry, with cursor `c` and buffer `b`. -/
def downStart (s : State) (c : Nat) (b : Buffer) : DownPass where
  phase := s.phase
  accum := s.outputAccum
  cursor := c
  out := blockOf b s
  emitted := 0
  draws := s.draws
  accesses := s.accesses

/-- `DOWN16` at its end: `phase`, `outputAccum` and the buffer are written (rule R150). -/
def downFinish (b : Buffer) (p : DownPass) (s : State) : State :=
  setBlock b p.out
    { s with phase := p.phase, outputAccum := p.accum, draws := p.draws, accesses := p.accesses }

/-- `DOWN16(c, B)`: the cursor it returns and the state it leaves; endless when the ring never rotates (rules R150, R158). -/
def runDown (c : Nat) (b : Buffer) (s : State) : Except Fault (Nat × State) :=
  if canRotate s.deltaDown then do
    let p ← downLoop s b downFuel (downStart s c b)
    .ok (p.cursor, downFinish b p s)
  else .error .downNeverRotates

/-! ### The two rows that run one engine -/

/-- `PROCESS16 c` running `UP16(c, DST)` (rules R140, R180, R181). -/
def execUp16 (c : Nat) (s : State) : Host.Outcome State Fault Refusal := answer (runUp c .dst s)

/-- `PROCESS16 c` running `DOWN16(c, DST)` (rules R150, R180, R181). -/
def execDown16 (c : Nat) (s : State) : Host.Outcome State Fault Refusal := answer (runDown c .dst s)

end Sys2Proof.Machine
end

