-- ==== Sys2Proof/Machine/Transition.lean ====
section
/-! DEFINITION. The transition controller's two crossfade operations (rules R160 to R174). -/

namespace Sys2Proof.Machine

/-- The blend step for slot `8 + j`: `DST[8+j] ⊕ (W[j] ⊗ (TMP[8+j] ⊖ DST[8+j]))`, operation numbers from `d + 3j` on
(rule R168). -/
def blendSample (d : Nat) (dst tmp : Block) (j : Fin 8) : Sample :=
  interpolate (d + 3 * j.val) (blendWeight j)
    (dst[Config.xfadeKeep + j.val]'(by have := j.isLt; simp only [Config.xfadeKeep]; omega))
    (tmp[Config.xfadeKeep + j.val]'(by have := j.isLt; simp only [Config.xfadeKeep]; omega))

/-- `BLEND(DST, TMP)`: the first eight slots are kept, the last eight are cross-faded in ascending order (rule R168). -/
def blendBlock (d : Nat) (dst tmp : Block) : Block :=
  taps.foldl (fun out j => out.setIfInBounds (Config.xfadeKeep + j.val) (blendSample d dst tmp j)) dst

/-- The accesses of the blend: for each slot a read of `DST`, a read of `TMP` and the write (rules R52, R61, R168). -/
def blendAccesses (d : Nat) (dst tmp : Block) : List Access :=
  taps.flatMap (fun j =>
    [.read .dst (Config.xfadeKeep + j.val), .read .tmp (Config.xfadeKeep + j.val),
     .write .dst (Config.xfadeKeep + j.val) (blendSample d dst tmp j)])

/-- The state after `BLEND(DST, TMP)` (rule R168). -/
def blend (s : State) : State :=
  { s with
    dst := blendBlock s.draws s.dst s.tmp
    draws := s.draws + 24
    accesses := s.accesses ++ blendAccesses s.draws s.dst s.tmp }

/-- `UP2DOWN16(c)`: old engine, inversion, landing, clear, new engine from the same cursor, blend (rules R164, R166 to
R169). -/
def runUp2down (c : Nat) (s : State) : Except Fault (Nat × State) := do
  let (_, s) ← runUp c .dst s
  let s := clearOutputAccum (setMode .down (complementPhase s))
  let (cNew, s) ← runDown c .tmp s
  .ok (cNew, blend s)

/-- `DOWN2UP16(c)`, the same with the engines exchanged (rules R165 to R169). -/
def runDown2up (c : Nat) (s : State) : Except Fault (Nat × State) := do
  let (_, s) ← runDown c .dst s
  let s := clearInputRing (setMode .up (complementPhase s))
  let (cNew, s) ← runUp c .tmp s
  .ok (cNew, blend s)

/-- `PROCESS16 c` running `UP2DOWN16(c)` (rules R164, R180, R181). -/
def execUp2down16 (c : Nat) (s : State) : Host.Outcome State Fault Refusal := answer (runUp2down c s)

/-- `PROCESS16 c` running `DOWN2UP16(c)` (rules R165, R180, R181). -/
def execDown2up16 (c : Nat) (s : State) : Host.Outcome State Fault Refusal := answer (runDown2up c s)

end Sys2Proof.Machine
end

