-- ==== Sys2Proof/Machine/Dispatch.lean ====
section
/-! DEFINITION. One arm for each row of the opcode table. -/

namespace Sys2Proof.Machine

def exec (i : Instr) (s : State) : Host.Outcome State Fault Refusal :=
  match i with
  | .reset => Sys2Proof.Machine.execReset s
  | .setRatio q => Sys2Proof.Machine.execSetRatio q s
  | .transpose x => Sys2Proof.Machine.execTranspose x s
  | .up16 c => Sys2Proof.Machine.execUp16 c s
  | .down16 c => Sys2Proof.Machine.execDown16 c s
  | .up2down16 c => Sys2Proof.Machine.execUp2down16 c s
  | .down2up16 c => Sys2Proof.Machine.execDown2up16 c s
  | .reserved cmd => Sys2Proof.Machine.execReserved cmd s

end Sys2Proof.Machine
end

