-- ==== Sys2Proof/Machine/Step.lean ====
section
/-! DEFINITION. One step of the machine: the host's next input. -/

namespace Sys2Proof.Machine

/-- One step. A command is accepted from the command port and runs to its end as one transition (rules R14, R62); the
dispatch word is formed with `mode` as it is at that moment (rule R91). Between commands the host may write source samples
and say which cursors are readable; with nothing to do the block is idle and holds its state (rule R232; log entry 14). -/
def step (s : State) : Host.Outcome State Fault Refusal :=
  match s.inputs with
  | [] => .next s
  | .command cmd arg :: rest => exec (decodeCommand s.cursorW (dispatchWord cmd s.mode) arg) (acceptCommand rest s)
  | .writeSource c v :: rest => .next (hostWriteSource c v rest s)
  | .setValid ws :: rest => .next (hostSetValid ws rest s)

/-- `s` with the instruction word `w`, numbered as the opcode table numbers it, as the next thing `step` runs: its command
and argument stand first on the command port, and `mode` is what the word's dispatch bits say (log entry 18). -/
def State.withFetchWord (s : State) (nbits w : Nat) : State :=
  let v := w % 2 ^ nbits
  { s with
    mode := modeOfBits (BitVec.ofNat 2 v)
    inputs := .command (BitVec.ofNat 3 (v / 2 ^ 2)) (v / 2 ^ 8 % 2 ^ argW s.cursorW) :: s.inputs }

end Sys2Proof.Machine
end

