-- ==== Sys2Proof/Safety.lean ====
section
/-! DEFINITION. The terms the claims use: what a binary32 stands for, what a correctly rounded result is, the invariant of
the registers, the window the host must make valid, what a safe run is, and the streams the two engines work on. -/

namespace Sys2Proof.Machine

/-! ### Values of samples -/

/-- The rational a finite binary32 stands for (rule R197): `(−1)^s · f · 2^−149` when the exponent field is 0, else
`(−1)^s · (2^23 + f) · 2^(e − 150)`. -/
def sampleValue (x : Sample) : ℚ :=
  (if signBit x then -1 else 1) *
    (if expField x = 0#8 then ((fractionField x).toNat : ℚ) / 2 ^ 149
     else ((2 : ℚ) ^ 23 + (fractionField x).toNat) * 2 ^ (expField x).toNat / 2 ^ 150)

/-- `y = RN32(v)` (rule R205): the infinity of the sign of `v` when `|v| ≥ 2^128 − 2^103`; else a finite binary32 than which
no other is nearer to `v`, with an even fraction where a different value is equally near, and with the sign of `v`. -/
def IsRN32 (v : ℚ) (y : Sample) : Prop :=
  (v < 0 → signBit y = true) ∧ (0 < v → signBit y = false) ∧
  if (2 : ℚ) ^ 128 - 2 ^ 103 ≤ |v| then isInf y = true
  else isFinite y = true ∧ ∀ z : Sample, isFinite z = true →
    |sampleValue y - v| < |sampleValue z - v| ∨
    (|sampleValue y - v| = |sampleValue z - v| ∧ (sampleValue z = sampleValue y ∨ (fractionField y).toNat % 2 = 0))

/-- The first sample is at most the second, in the order of the values with both zeros at one place and the infinities at the
ends; a NaN has no place in it, and nothing is said of one (rules R200, R209). -/
def AtMost (x y : Sample) : Prop := isNaN x = true ∨ isNaN y = true ∨ Config.orderKey x ≤ Config.orderKey y

/-! ### The invariant and safe runs -/

/-- The three registers `SET_RATIO` derives are functions of an admitted `ratio` (rule R34), and `SRC` is in its canonical
form. -/
structure Inv (s : State) : Prop where
  ratio : admitted s.envelope s.ratio = true
  downscale : s.downscale = downscaleOf s.ratio
  deltaUp : s.deltaUp = deltaUpOf s.ratio
  deltaDown : s.deltaDown = deltaDownOf s.ratio
  source : s.src.wf s.cursorW = true

/-- The first `n` cursors from `c` on are in `SRC_VALID` (rules R59, R60). -/
def WindowValid (s : State) (c n : Nat) : Prop :=
  ∀ j < n, cursorValid s.cursorW s.srcValid (wrapCursor s.cursorW (c + j)) = true

/-- Every cursor is in `SRC_VALID`. -/
def AllValid (s : State) : Prop :=
  ∀ c : Nat, cursorValid s.cursorW s.srcValid (wrapCursor s.cursorW c) = true

/-- An envelope within the default one, `1/7 ≤ RATIO_LO` and `RATIO_HI ≤ 7`: the widest for which no single addition
advances the ring index by eight or more slots (rule R6; log entry 7). -/
def WithinDefault (e : Config.Envelope) : Prop := e.loDen ≤ 7 * e.loNum ∧ e.hiNum ≤ 7 * e.hiDen

/-- A safe run of `k` steps: none of them faults or refuses. -/
def SafeFor : Nat → State → Prop
  | 0, _ => True
  | k + 1, s => ∃ t, step s = .next t ∧ SafeFor k t

/-- What the host has to do (rule R243), over the inputs in order, `ws` being what it has made readable so far: only the four
commands; a ratio operand that is admitted, a transposition that maps to one (item 3); and before each `PROCESS16 c` the
cursors `c` to `c + 127` readable (item 4). -/
def Dutiful (e : Config.Envelope) (w : Nat) : List Window → List Input → Prop
  | _, [] => True
  | ws, .command cmd arg :: rest =>
    cmd.toNat < 4 ∧
    (cmd = 0b001#3 → admitted e (argSample arg) = true) ∧
    (cmd = 0b010#3 → isFinite (argSample arg) = true ∧ admitted e (Config.exp2_12.value (argSample arg)) = true) ∧
    (cmd = 0b011#3 → ∀ j < 128, cursorValid w ws (wrapCursor w (arg + j)) = true) ∧
    Dutiful e w ws rest
  | ws, .writeSource _ _ :: rest => Dutiful e w ws rest
  | _, .setValid ws :: rest => Dutiful e w ws rest

/-! ### The block operations -/

/-- The four operations a `PROCESS16` can run, from cursor `c` (rule R3). -/
def IsProcess16 (c : Nat) (i : Instr) : Prop :=
  i = .up16 c ∨ i = .down16 c ∨ i = .up2down16 c ∨ i = .down2up16 c

/-- `phase` after `n` additions of `d` (rule R190). -/
def phaseAfter (p d : U32) (n : Nat) : U32 := p + BitVec.ofNat 32 n * d

/-- How many whole periods `n` additions of `d` pass, counted in unbounded integers from `P = p mod 2^25`
(rules R147, R157). -/
def periodsPassed (p d : U32) (n : Nat) : Nat := (p.toNat % 2 ^ 25 + n * d.toNat) / 2 ^ 25

/-- The source samples one `UP16` consumes, for `deltaUp ≤ 7·2^25` (rule R147). -/
def upConsumption (p d : U32) : Nat := periodsPassed p d 16

/-- The source samples one `DOWN16` consumes, for `1 ≤ deltaDown ≤ 7·2^25` (rule R157): `ceil((16·2^25 − P)/d)` up to
`d = 2^25`, exactly 16 above. -/
def downConsumption (p d : U32) : Nat :=
  if d.toNat ≤ 2 ^ 25 then (16 * 2 ^ 25 - p.toNat % 2 ^ 25 + d.toNat - 1) / d.toNat else 16

/-! ### What the up engine computes -/

/-- The stream the up engine filters: first the eight samples in the ring, oldest first, then `SRC` from the entry cursor
(rule R142). -/
def upStream (s : State) (c j : Nat) : Sample :=
  if j < 8 then slotGet s.inputRing (ringOf s.phase + BitVec.ofNat 3 j)
  else s.src.read (wrapCursor s.cursorW (c + (j - 8)))

/-- One row's weighted sum over eight consecutive samples of a stream, tap 0 on the oldest (rules R143, R199). -/
def streamSum (d : Nat) (rom : Config.RomImage) (row : Fin 257) (w : Nat → Sample) : Sample :=
  sumChain (d + 8) (mulS d (romAt rom row 0) (w 0))
    [mulS (d + 1) (romAt rom row 1) (w 1), mulS (d + 2) (romAt rom row 2) (w 2), mulS (d + 3) (romAt rom row 3) (w 3),
     mulS (d + 4) (romAt rom row 4) (w 4), mulS (d + 5) (romAt rom row 5) (w 5), mulS (d + 6) (romAt rom row 6) (w 6),
     mulS (d + 7) (romAt rom row 7) (w 7)]

/-- Output sample `n` of an up pass as a filter of the stream: the two rows of the phase after `n + 1` additions, over the
eight samples that end with the last one pulled (rules R141 to R144). -/
def upOutput (s : State) (c n : Nat) : Sample :=
  let p := phaseAfter s.phase s.deltaUp (n + 1)
  let w := fun k => upStream s c (periodsPassed s.phase s.deltaUp (n + 1) + k)
  let d := s.draws + 33 * n
  interpolate (d + 30) (fracS (fracOf p).toNat)
    (streamSum d s.rom (rowIndex p) w) (streamSum (d + 15) s.rom (nextRowIndex p) w)

/-! ### What the down engine computes -/

/-- What source sample number `i` of a down pass adds to pending output number `n`: through tap `k = n − q`, where `q` is the
number of outputs already finished, and nothing when that is no tap (rules R152, R153). -/
def downContribution (s : State) (c n i : Nat) (acc : Sample) : Sample :=
  let p := phaseAfter s.phase s.deltaDown i
  let q := periodsPassed s.phase s.deltaDown i
  let d := s.draws + 35 * i
  let xs := mulS d (s.src.read (wrapCursor s.cursorW (c + i))) s.downscale
  let x0 := mulS (d + 1) xs (fracS (2 ^ 17 - (fracOf p).toNat))
  let x1 := mulS (d + 2) xs (fracS (fracOf p).toNat)
  if h : q ≤ n ∧ n - q < 8 then
    let k : Fin 8 := ⟨n - q, h.2⟩
    let e := d + 3 + 4 * k.val
    addS (e + 3) (addS (e + 1) acc (mulS e (romAt s.rom (rowIndex p) k) x0))
      (mulS (e + 2) (romAt s.rom (nextRowIndex p) k) x1)
  else acc

/-- Pending output number `n` of a down pass after `i` source samples: the first eight start from what `outputAccum` held,
the later ones from `ZERO` (rules R153, R155). -/
def downPending (s : State) (c n : Nat) : Nat → Sample
  | 0 => if n < 8 then slotGet s.outputAccum (ringOf s.phase + BitVec.ofNat 3 n) else zeroSample
  | i + 1 => downContribution s c n i (downPending s c n i)

/-! ### Reading the access record -/

/-- The cursors presented to `SRC`, in order (rule R61). -/
def sourceCursors (l : List Access) : List Nat :=
  l.filterMap (fun a => match a with | .sourceRead c => some c | _ => none)

/-- The ROM addresses presented, in order (rule R130). -/
def romAddresses (l : List Access) : List (BitVec 12) :=
  l.filterMap (fun a => match a with | .romRead r => some r | _ => none)

/-- The writes to one buffer, slot and value, in order (rule R61). -/
def bufferWrites (b : Buffer) (l : List Access) : List (Nat × Sample) :=
  l.filterMap (fun a => match a with | .write b' n v => if b' = b then some (n, v) else none | _ => none)

/-- The `n` cursors from `c` on, of `w` bits each (rule R59). -/
def cursorsFrom (w c n : Nat) : List Nat := (List.range n).map (fun j => wrapCursor w (c + j))

end Sys2Proof.Machine
end

