-- ==== Sys2Proof/Certificates/Slice0/Obligations.lean ====
section
/-! DEFINITION. The statements for the provers, each with the rule of spec/ it formalises. -/

open Sys2Proof Sys2Proof.Machine

/-! ### Encoding and decoding -/

/-- Rules R90 and R91: the dispatch word is `{cmd[2:0], mode[1:0]}` with `mode` as it is when the command is accepted; its 32
values name the eight rows of the table; the operand is `arg[31:0]` or `arg[CURSOR_W-1:0]`, whatever `CURSOR_W` is. The step
clause runs in the state that has accepted the command, which rests on the model's conventions (log entries 8, 14, 15, 16). -/
def Obligations.DispatchWordsNameTheirRows : Prop :=
  (∀ (cmd : BitVec 3) (m : Mode), dispatchWord cmd m = cmd ++ modeBits m) ∧
  (∀ (s : State) (cmd : BitVec 3) (arg : Nat) (rest : List Input), s.inputs = .command cmd arg :: rest →
    step s = exec (decodeCommand s.cursorW (cmd ++ modeBits s.mode) arg) (acceptCommand rest s)) ∧
  ∀ (w arg : Nat) (mm cc : BitVec 2),
    decodeCommand w (0b000#3 ++ mm) arg = .reset ∧
    decodeCommand w (0b001#3 ++ mm) arg = .setRatio (BitVec.ofNat 32 arg) ∧
    decodeCommand w (0b010#3 ++ mm) arg = .transpose (BitVec.ofNat 32 arg) ∧
    decodeCommand w 0b01100#5 arg = .up16 (arg % 2 ^ w) ∧
    decodeCommand w 0b01101#5 arg = .down16 (arg % 2 ^ w) ∧
    decodeCommand w 0b01110#5 arg = .up2down16 (arg % 2 ^ w) ∧
    decodeCommand w 0b01111#5 arg = .down2up16 (arg % 2 ^ w) ∧
    decodeCommand w (0b1#1 ++ cc ++ mm) arg = .reserved (0b1#1 ++ cc)

/-- Rule R89: the four encodings of `mode`; all four values are legal, and two bits and a mode determine each other. -/
def Obligations.ModeEncodingIsTheTable : Prop :=
  modeBits .up = 0b00#2 ∧ modeBits .down = 0b01#2 ∧ modeBits .up2down = 0b10#2 ∧ modeBits .down2up = 0b11#2 ∧
  (∀ b : BitVec 2, modeBits (modeOfBits b) = b) ∧ (∀ m : Mode, modeOfBits (modeBits m) = m)

/-- Decoding the bytes of a well-formed instruction gives it back and leaves the bytes after it: no operand bit of an
encoding is dropped, for any `CURSOR_W` (rules R90, R91; the byte layout is log entry 17). -/
def Obligations.DecodeOfEncodeIsTheInstruction : Prop :=
  ∀ (w : Nat) (i : Instr) (rest : List Byte), WellFormed w i = true → decode w (encode w i ++ rest) = .instr i rest

/-- The other direction, on dispatch words and arguments: what a command decodes to is well formed, and encoding it gives
the word and the argument back, but for the bits its row ignores, which come back as zeros: `SET_RATIO` and `TRANSPOSE`
keep 32 bits of the argument, `PROCESS16` keeps `CURSOR_W`, the others none (rules R90 to R92; log entry 18). -/
def Obligations.EncodeOfDecodeKeepsTheDecodedBits : Prop :=
  ∀ (w : Nat) (d : BitVec 5) (arg : Nat),
    WellFormed w (decodeCommand w d arg) = true ∧
    (encodeDispatch (decodeCommand w d arg) = d ∨
      (d.extractLsb' 2 3 ≠ 0b011#3 ∧ encodeDispatch (decodeCommand w d arg) = d &&& 0b11100#5)) ∧
    (d.extractLsb' 2 3 = 0b001#3 ∨ d.extractLsb' 2 3 = 0b010#3 → encodeArg (decodeCommand w d arg) = arg % 2 ^ 32) ∧
    (d.extractLsb' 2 3 = 0b011#3 → encodeArg (decodeCommand w d arg) = arg % 2 ^ w) ∧
    (d.extractLsb' 2 3 = 0b000#3 ∨ d.extractLsb' 4 1 = 1#1 → encodeArg (decodeCommand w d arg) = 0)

/-- Fewer bytes than a command has, bits 7:5 of the first byte, and argument bits at and above `AW`, are rejected by name;
every other byte string is an instruction (log entry 17, the model's own layout: one byte, then `AW` bits rounded up to
whole bytes). -/
def Obligations.DecodeRejectsByName : Prop :=
  ∀ (w : Nat) (l : List Byte),
    (l.length < 1 + (max 32 w + 7) / 8 → decode w l = .reject .truncated) ∧
    (∀ b rest, l = b :: rest → 1 + (max 32 w + 7) / 8 ≤ l.length →
      (b.extractLsb' 5 3 ≠ 0#3 ∨ 2 ^ max 32 w ≤ bytesValue (rest.take ((max 32 w + 7) / 8)) →
        decode w l = .reject .strayBits) ∧
      (b.extractLsb' 5 3 = 0#3 → bytesValue (rest.take ((max 32 w + 7) / 8)) < 2 ^ max 32 w →
        ∃ i, WellFormed w i = true ∧ decode w l = .instr i (rest.drop ((max 32 w + 7) / 8))))

/-! ### The step -/

/-- A step runs the decoded instruction: when the bytes of the command at the head of the host's inputs, with `mode` in the
dispatch word, decode to a well-formed `i`, the step is `exec i` in the state that has accepted the command: the command
has left the port, nothing has been returned and nothing accessed yet (conventions of the model, log entries 14 to 17). The
cursor width is the machine's own (log entry 8). -/
def Obligations.StepRunsTheDecodedInstruction : Prop :=
  ∀ (s : State) (cmd : BitVec 3) (arg : Nat) (rest : List Input) (i : Instr),
    s.inputs = .command cmd arg :: rest → WellFormed s.cursorW i = true →
    decode s.cursorW ((cmd ++ modeBits s.mode).setWidth 8 :: argBytes s.cursorW arg) = .instr i [] →
    step s = exec i { s with inputs := rest, response := none, accesses := [] }

/-- With nothing to do the block is idle and holds its state (rule R232); that an idle step exists is the model's convention
(log entry 14). -/
def Obligations.IdleHoldsTheState : Prop :=
  ∀ s : State, s.inputs = [] → step s = .next s

/-- What the host writes to `SRC` between operations is what the block then reads there, and every other cursor reads as
before; nothing else changes (rules R62, R64). Cursors count modulo `2^CURSOR_W` (rule R59). That the write is a step which
takes its input off the list is the model's convention (log entry 14). -/
def Obligations.HostWriteIsReadBack : Prop :=
  ∀ (s : State) (c : Nat) (v : Sample) (rest : List Input),
    s.inputs = .writeSource c v :: rest → s.src.wf s.cursorW = true →
    ∃ m : Memory, step s = .next { s with inputs := rest, src := m } ∧ m.wf s.cursorW = true ∧
      m.read (c % 2 ^ s.cursorW) = v ∧ ∀ a : Nat, a ≠ c % 2 ^ s.cursorW → m.read a = s.src.read a

/-- No step writes the ROM (rules R65, R128) or a parameter of the machine (rule R6; log entries 7 and 8); a command leaves
`SRC`, `SRC_VALID` and the inputs after it as they were (rules R51, R66), and returns with exactly itself taken off the
port (log entry 14). -/
def Obligations.CommandsWriteNoHostMemory : Prop :=
  ∀ s t : State, step s = .next t →
    t.rom = s.rom ∧ t.envelope = s.envelope ∧ t.cursorW = s.cursorW ∧
    ∀ (cmd : BitVec 3) (arg : Nat) (rest : List Input), s.inputs = .command cmd arg :: rest →
      t.src = s.src ∧ t.srcValid = s.srcValid ∧ t.inputs = rest

/-- The transition table of rule R161, by the state before and the command accepted, for every step that completes; a
reserved command has no next state, and the host's other inputs leave `mode` alone. -/
def Obligations.ModeFollowsTheTransitionTable : Prop :=
  ∀ s t : State, step s = .next t →
    (∀ (cmd : BitVec 3) (arg : Nat) (rest : List Input), s.inputs = .command cmd arg :: rest →
      (cmd = 0b000#3 → t.mode = .up) ∧
      (cmd = 0b001#3 ∨ cmd = 0b010#3 →
        (s.mode = .up → t.mode = if t.deltaUp.toNat > 2 ^ 25 then .up2down else .up) ∧
        (s.mode = .down → t.mode = if t.deltaDown.toNat > 2 ^ 25 then .down2up else .down) ∧
        (s.mode = .up2down → t.mode = .up2down) ∧
        (s.mode = .down2up → t.mode = .down2up)) ∧
      (cmd = 0b011#3 →
        (s.mode = .up → t.mode = .up) ∧ (s.mode = .down → t.mode = .down) ∧
        (s.mode = .up2down → t.mode = .down) ∧ (s.mode = .down2up → t.mode = .up)) ∧
      cmd.toNat < 4) ∧
    ((∀ (cmd : BitVec 3) (arg : Nat) (rest : List Input), s.inputs ≠ .command cmd arg :: rest) → t.mode = s.mode)

/-- The refusals of a step, all of them (rules R92, R220, 93_implementation_defined.md part 2): a reserved code, a ratio
operand that is not admitted, a transposition that is a NaN or an infinity or maps to such a ratio. `RESET` and `PROCESS16`
are never refused, and an overlapping command cannot arise. -/
def Obligations.RefusalsAreTheClosedList : Prop :=
  ∀ (s : State) (r : Refusal), step s = .refused r ↔
    ∃ (cmd : BitVec 3) (arg : Nat) (rest : List Input), s.inputs = .command cmd arg :: rest ∧
      ((4 ≤ cmd.toNat ∧ r = .reservedCommand) ∨
       (cmd = 0b001#3 ∧ admitted s.envelope (argSample arg) = false ∧ r = .ratioOutsideEnvelope) ∨
       (cmd = 0b010#3 ∧
          (isFinite (argSample arg) = false ∨ admitted s.envelope (Config.exp2_12.value (argSample arg)) = false) ∧
          r = .ratioOutsideEnvelope))

/-- A reserved command code is refused in every state (rule R92). -/
def Obligations.ReservedCommandsAreRefused : Prop :=
  ∀ (s : State) (cmd : BitVec 3) (arg : Nat) (rest : List Input),
    exec (.reserved cmd) s = .refused .reservedCommand ∧
    (s.inputs = .command cmd arg :: rest → 4 ≤ cmd.toNat → step s = .refused .reservedCommand)

/-! ### The invariant -/

/-- The invariant holds right after reset (rules R34, R35). -/
def Obligations.InvariantHoldsAtReset : Prop := Inv State.reset

/-- Every step from any state keeps the invariant: the derived registers stay functions of an admitted ratio (rule R34), and
`SRC` keeps its canonical form. -/
def Obligations.EveryStepKeepsTheInvariant : Prop :=
  ∀ s t : State, Inv s → step s = .next t → Inv t

/-- "never fails" (rule R220): from any state with the invariant, a host that keeps the duties of rule R243, with `c` to
`c + 127` readable before each `PROCESS16 c`, can run for ever; no step faults, refuses or hangs. That 128 cursors suffice
needs an envelope within the default one (log entry 7); the list of the host's moves is the model's (log entry 14). -/
def Obligations.DutifulHostNeverStops : Prop :=
  ∀ (k : Nat) (s : State), Inv s → WithinDefault s.envelope → Dutiful s.envelope s.cursorW s.srcValid s.inputs → SafeFor k s

/-! ### RESET -/

/-- Rule R240: `RESET` completes in every state; it writes every register of rule R20 and nothing else, no memory among it,
and the three derived registers are the conversions of 1.0; `cmd = 000` is `RESET`, whatever its argument. That `phase`
becomes 0 is the spec's decision D10, not in the source (rule R241; log entry 6); that the model's counter `draws` keeps its
value is the model's choice (log entry 12). -/
def Obligations.ResetWritesEveryRegister : Prop :=
  (∀ s : State, exec .reset s = .next
    { s with
      ratio := 0x3F800000#32, downscale := 0x3F800000#32, deltaUp := 0x02000000#32, deltaDown := 0x02000000#32,
      phase := 0x00000000#32, mode := .up,
      inputRing := Vector.replicate 8 0x00000000#32, outputAccum := Vector.replicate 8 0x00000000#32 }) ∧
  downscaleOf 0x3F800000#32 = 0x3F800000#32 ∧ deltaUpOf 0x3F800000#32 = 0x02000000#32 ∧
  deltaDownOf 0x3F800000#32 = 0x02000000#32 ∧
  ∀ (w : Nat) (mm : BitVec 2) (arg : Nat), decodeCommand w (0b000#3 ++ mm) arg = .reset

/-! ### SET_RATIO and TRANSPOSE -/

/-- Rules R110 and R111: `cmd = 001` is `SET_RATIO arg[31:0]`; an admitted operand (finite, `RATIO_LO ≤ q ≤ RATIO_HI`,
whatever the two bounds are) loads the four registers, `downscale` with the rounded reciprocal and the deltas with the exact
floors, and leaves `mode` as the mode check on the new deltas says; `phase`, both arrays and everything else are untouched.
An operand that is not admitted is refused. That the floors need no more than 32 bits is a property of every envelope,
deduced from rule R196 (log entry 7). -/
def Obligations.SetRatioLoadsItsRegisters : Prop :=
  ∀ (q : Sample) (s : State),
    (∀ (w : Nat) (mm : BitVec 2) (arg : Nat), decodeCommand w (0b001#3 ++ mm) arg = .setRatio (BitVec.ofNat 32 arg)) ∧
    (isFinite q = true ∧ (s.envelope.loNum : ℚ) / s.envelope.loDen ≤ sampleValue q ∧
        sampleValue q ≤ (s.envelope.hiNum : ℚ) / s.envelope.hiDen →
      ∃ (ds : Sample) (dU dD : U32) (m : Mode),
        exec (.setRatio q) s = .next { s with ratio := q, downscale := ds, deltaUp := dU, deltaDown := dD, mode := m } ∧
        IsRN32 (1 / sampleValue q) ds ∧
        (dU.toNat : ℤ) = ⌊2 ^ 25 * sampleValue q⌋ ∧ (dD.toNat : ℤ) = ⌊2 ^ 25 / sampleValue q⌋ ∧
        (s.mode = .up → m = if dU.toNat > 2 ^ 25 then .up2down else .up) ∧
        (s.mode = .down → m = if dD.toNat > 2 ^ 25 then .down2up else .down) ∧
        (s.mode = .up2down → m = .up2down) ∧ (s.mode = .down2up → m = .down2up)) ∧
    (¬ (isFinite q = true ∧ (s.envelope.loNum : ℚ) / s.envelope.loDen ≤ sampleValue q ∧
        sampleValue q ≤ (s.envelope.hiNum : ℚ) / s.envelope.hiDen) →
      exec (.setRatio q) s = .refused .ratioOutsideEnvelope)

/-- Rule R88: the operand is admitted if and only if it is a finite binary32 with `RATIO_LO ≤ q ≤ RATIO_HI` as exact
rationals, which with the default bounds `1/7` and `7` (log entry 7) are the patterns from `0x3E124925` to `0x40E00000`;
every other operand is refused. -/
def Obligations.SetRatioOperandCheck : Prop :=
  ∀ (q : Sample) (s : State),
    ((∃ t, exec (.setRatio q) s = .next t) ↔
      (isFinite q = true ∧ (s.envelope.loNum : ℚ) / s.envelope.loDen ≤ sampleValue q ∧
        sampleValue q ≤ (s.envelope.hiNum : ℚ) / s.envelope.hiDen)) ∧
    (s.envelope.loNum = 1 → s.envelope.loDen = 7 → s.envelope.hiNum = 7 → s.envelope.hiDen = 1 →
      ((∃ t, exec (.setRatio q) s = .next t) ↔ (0x3E124925 ≤ q.toNat ∧ q.toNat ≤ 0x40E00000))) ∧
    ((¬ ∃ t, exec (.setRatio q) s = .next t) → exec (.setRatio q) s = .refused .ratioOutsideEnvelope)

/-- Rules R23, R24 and R196: inside the default envelope both deltas lie in `[0x00492492, 0x0E000000]`, so that bits 31:28 are
zero; inside any envelope the conversions need no saturation (that an envelope is such is the model's deduction, log
entry 7). -/
def Obligations.DeltasStayInTheirBounds : Prop :=
  ∀ (q : Sample) (s t : State), exec (.setRatio q) s = .next t →
    ⌊2 ^ 25 * sampleValue q⌋ < 2 ^ 32 ∧ ⌊2 ^ 25 / sampleValue q⌋ < 2 ^ 32 ∧
    (WithinDefault s.envelope → 0x00492492 ≤ t.deltaUp.toNat ∧ t.deltaUp.toNat ≤ 0x0E000000 ∧
    0x00492492 ≤ t.deltaDown.toNat ∧ t.deltaDown.toNat ≤ 0x0E000000)

/-- Rule R112: the test of the deltas is exactly the test of the ratio. -/
def Obligations.DeltaTestIsTheRatioTest : Prop :=
  ∀ (q : Sample) (s t : State), exec (.setRatio q) s = .next t →
    (t.deltaUp.toNat > 2 ^ 25 ↔ 1 < sampleValue q) ∧ (t.deltaDown.toNat > 2 ^ 25 ↔ sampleValue q < 1)

/-- Rule R116 (a) and (b): at `q = 1` neither test holds and `mode` stays; repeating an operand changes nothing. That 1.0 is
admitted whatever the envelope is rests on every envelope holding 1, the model's deduction from rules R34 and R240 (log
entry 7). -/
def Obligations.RepeatedRatioIsIdempotent : Prop :=
  (∀ s : State, ∃ t, exec (.setRatio 0x3F800000#32) s = .next t ∧ t.mode = s.mode) ∧
  ∀ (q : Sample) (s t : State), exec (.setRatio q) s = .next t → exec (.setRatio q) t = .next t

/-- Rules R116 (c) and R171: crossing 1.0 up and down again between two blocks leaves the transition pending; the block lands
in `DOWN` although the ratio is below 1, and the next `SET_RATIO` below 1 starts the way back. -/
def Obligations.DoubleCrossingLandsInTheOtherMode : Prop :=
  ∀ (s t₁ t₂ t₃ t₄ : State) (q₁ q₂ q₃ : Sample) (c : Nat),
    s.mode = .up → exec (.setRatio q₁) s = .next t₁ → 1 < sampleValue q₁ →
    exec (.setRatio q₂) t₁ = .next t₂ → sampleValue q₂ < 1 →
    exec (.up2down16 c) t₂ = .next t₃ →
    exec (.setRatio q₃) t₃ = .next t₄ → sampleValue q₃ < 1 →
    t₁.mode = .up2down ∧ t₂.mode = .up2down ∧ t₃.mode = .down ∧ t₃.deltaDown.toNat > 2 ^ 25 ∧ t₄.mode = .down2up

/-- Rule R113: `TRANSPOSE s` is refused for a NaN or an infinity, and is otherwise `SET_RATIO EXP2_12(s)`, with that
operation's state and refusal. -/
def Obligations.TransposeIsSetRatioOfExp2 : Prop :=
  ∀ (x : Sample) (s : State),
    (isFinite x = false → exec (.transpose x) s = .refused .ratioOutsideEnvelope) ∧
    (isFinite x = true → exec (.transpose x) s = exec (.setRatio (Config.exp2_12.value x)) s)

/-- Rules R113 and R114 (ii): at the exact points, whole octaves up to two, `TRANSPOSE` is `SET_RATIO 2^n` and completes where
the envelope holds `2^n`; at both zeros it always completes, since every envelope holds 1. That both zeros are exact points
is the model's deduction (log entry 10), and that an envelope holds 1 too (log entry 7). -/
def Obligations.TransposeByOctaves : Prop :=
  ∀ s : State, ∀ p ∈ [((0xC1C00000#32 : Sample), (0x3E800000#32 : Sample)), (0xC1400000#32, 0x3F000000#32),
      (0x80000000#32, 0x3F800000#32), (0x00000000#32, 0x3F800000#32), (0x41400000#32, 0x40000000#32),
      (0x41C00000#32, 0x40800000#32)],
    exec (.transpose p.1) s = exec (.setRatio p.2) s ∧
    (admitted s.envelope p.2 = true ∨ p.2 = 0x3F800000#32 → ∃ t, exec (.transpose p.1) s = .next t ∧ t.ratio = p.2)

/-- Rules R113 and R114 (ii), (iii): where the envelope holds `1/4` and `4`, as the default one does (log entry 7), `TRANSPOSE`
completes within two octaves either way, whatever the rounding of `EXP2_12` is: it lies between `1/4` and `4` because
`EXP2_12` is monotone and exact at the ends. -/
def Obligations.TransposeCompletesWithinTwoOctaves : Prop :=
  ∀ (x : Sample) (s : State), admitted s.envelope 0x3E800000#32 = true → admitted s.envelope 0x40800000#32 = true →
    isFinite x = true → -24 ≤ sampleValue x → sampleValue x ≤ 24 →
    ∃ t, exec (.transpose x) s = .next t ∧ t.ratio = Config.exp2_12.value x ∧
      1 / 4 ≤ sampleValue t.ratio ∧ sampleValue t.ratio ≤ 4 ∧
      t.phase = s.phase ∧ t.inputRing = s.inputRing ∧ t.outputAccum = s.outputAccum

/-! ### UP16 -/

/-- Rules R145 and R147: with `deltaUp ≤ 7·2^25` and the consumed cursors valid, `UP16` completes; after `n` output samples it
has pulled `floor((P + n·d)/2^25)` source samples, in all `floor((P + 16·d)/2^25)`, returns the entry cursor plus that
number modulo `2^CURSOR_W`, and has advanced `phase` by `16·d`. Larger deltas are in `Up16CompletesForEveryDelta`. -/
def Obligations.Up16CompletesAndConsumes : Prop :=
  ∀ (s : State) (c : Nat), s.deltaUp.toNat ≤ 7 * 2 ^ 25 →
    WindowValid s c ((s.phase.toNat % 2 ^ 25 + 16 * s.deltaUp.toNat) / 2 ^ 25) →
    (∀ n ≤ 16, ∃ p, upSteps s .dst n (upStart s c .dst) = .ok p ∧
      p.cursor = c + (s.phase.toNat % 2 ^ 25 + n * s.deltaUp.toNat) / 2 ^ 25) ∧
    ∃ t, exec (.up16 c) s = .next t ∧
      t.response = some ((c + (s.phase.toNat % 2 ^ 25 + 16 * s.deltaUp.toNat) / 2 ^ 25) % 2 ^ s.cursorW) ∧
      t.phase = s.phase + 16#32 * s.deltaUp

/-- Rules R140 to R144: `UP16` is the interpolated two-row filter of its input stream. Output sample `n` is the interpolation
of two weighted sums over the eight samples that end with the last one pulled, and the ring holds the eight most recent
samples, oldest at the current index. Which draw stands for a NaN is the model's numbering (log entry 11). Larger deltas are
in `UpStepPullsTheRingAdvance`. -/
def Obligations.Up16IsTheSlidingFilter : Prop :=
  ∀ (s t : State) (c : Nat), s.deltaUp.toNat ≤ 7 * 2 ^ 25 → exec (.up16 c) s = .next t →
    (∀ (n : Nat) (h : n < 16), t.dst[n] = upOutput s c n) ∧
    ∀ k : Nat, k < 8 → slotGet t.inputRing (ringOf t.phase + BitVec.ofNat 3 k) =
      upStream s c (upConsumption s.phase s.deltaUp + k)

/-- Rules R142 to R144 for every delta, the aliasing ones too: one output sample pulls `(r' −8 r)` source samples, at most
seven, and writes to its slot the interpolation `lo ⊕ (fracS(FRAC) ⊗ (hi ⊖ lo))` of the two row sums over the ring after the
pull, tap 0 on the slot that `RING` names, all at the phase after the addition. Which draw stands for a NaN is the model's
numbering (log entry 11). -/
def Obligations.UpStepPullsTheRingAdvance : Prop :=
  ∀ (s : State) (b : Buffer) (n : Nat) (p p' : UpPass), upStep s b n p = .ok p' →
    let w := fun k => slotGet p'.ring (ringOf p'.phase + BitVec.ofNat 3 k)
    let lo := streamSum p.draws s.rom (rowIndex p'.phase) w
    let hi := streamSum (p.draws + 15) s.rom (nextRowIndex p'.phase) w
    p'.phase = p.phase + s.deltaUp ∧
    p'.out = p.out.setIfInBounds n
      (addS (p.draws + 32) lo (mulS (p.draws + 31) (fracS (fracOf p'.phase).toNat) (subS (p.draws + 30) hi lo))) ∧
    (∃ j ≤ 7, j = ((ringOf p'.phase).toNat + 8 - (ringOf p.phase).toNat) % 8 ∧
      p'.cursor = p.cursor + j ∧
      (∀ i < j, slotGet p'.ring (ringOf p.phase + BitVec.ofNat 3 i) = s.src.read ((p.cursor + i) % 2 ^ s.cursorW)) ∧
      ∀ i < 8, j ≤ i → slotGet p'.ring (ringOf p.phase + BitVec.ofNat 3 i) =
        slotGet p.ring (ringOf p.phase + BitVec.ofNat 3 i))

/-- Rules R142 and R145 for every delta: with every cursor readable `UP16` completes, whatever `deltaUp` is; it returns the
entry cursor plus the sum of the sixteen ring advances, and `phase` has advanced by `16·d`. -/
def Obligations.Up16CompletesForEveryDelta : Prop :=
  ∀ (s : State) (c : Nat), AllValid s →
    ∃ t, exec (.up16 c) s = .next t ∧ t.phase = s.phase + 16#32 * s.deltaUp ∧
      t.response = some ((c + ((List.range 16).map (fun n =>
        ((ringOf (phaseAfter s.phase s.deltaUp (n + 1))).toNat + 8 -
          (ringOf (phaseAfter s.phase s.deltaUp n)).toNat) % 8)).sum) % 2 ^ s.cursorW)

/-! ### DOWN16 -/

/-- Rule R157: `DOWN16` completes on exactly `ceil((16·2^25 − P)/d)` source samples when `1 ≤ d ≤ 2^25`, on exactly 16 when
`2^25 < d ≤ 7·2^25`; it returns the entry cursor plus that number and has advanced `phase` by as many `d`; inside the
envelope (`d ≥ 0x00492492`) it reads at most 128. Larger deltas are in `Down16EndsUnlessStationary`. -/
def Obligations.Down16CompletesAndConsumes : Prop :=
  ∀ (s : State) (c m : Nat),
    (1 ≤ s.deltaDown.toNat ∧ s.deltaDown.toNat ≤ 2 ^ 25 ∧
        m = (16 * 2 ^ 25 - s.phase.toNat % 2 ^ 25 + s.deltaDown.toNat - 1) / s.deltaDown.toNat) ∨
      (2 ^ 25 < s.deltaDown.toNat ∧ s.deltaDown.toNat ≤ 7 * 2 ^ 25 ∧ m = 16) →
    WindowValid s c m →
    (0x00492492 ≤ s.deltaDown.toNat → m ≤ 128) ∧
    ∃ t, exec (.down16 c) s = .next t ∧ t.response = some ((c + m) % 2 ^ s.cursorW) ∧
      t.phase = s.phase + BitVec.ofNat 32 m * s.deltaDown

/-- Rules R150 to R155 at `d ≤ 2^25`: `DOWN16` is the transposed two-row filter. Output `n` is the pending sum number `n` after
all source samples, and the accumulator holds the next eight pending sums, oldest at the current index. Which draw stands for
a NaN is the model's numbering (log entry 11). Larger deltas are in `DownStepAccumulatesAndEmitsOnce`. -/
def Obligations.Down16IsTheTransposedFilter : Prop :=
  ∀ (s t : State) (c : Nat), 1 ≤ s.deltaDown.toNat → s.deltaDown.toNat ≤ 2 ^ 25 → exec (.down16 c) s = .next t →
    (∀ (n : Nat) (h : n < 16), t.dst[n] = downPending s c n (downConsumption s.phase s.deltaDown)) ∧
    ∀ k : Nat, k < 8 → slotGet t.outputAccum (ringOf t.phase + BitVec.ofNat 3 k) =
      downPending s c (16 + k) (downConsumption s.phase s.deltaDown)

/-- Rules R152 to R156 for every delta: one source sample is scaled and split by the fraction before the advance, added to all
eight slots through both rows, and on a rotation of any size exactly one slot, the one `RING` named before the advance, is
emitted and cleared. Which draw stands for a NaN is the model's numbering (log entry 11). -/
def Obligations.DownStepAccumulatesAndEmitsOnce : Prop :=
  ∀ (s : State) (b : Buffer) (p p' : DownPass), downStep s b p = .ok p' →
    let r := ringOf p.phase
    let xs := mulS p.draws (s.src.read (p.cursor % 2 ^ s.cursorW)) s.downscale
    let x0 := mulS (p.draws + 1) xs (fracS (2 ^ 17 - (fracOf p.phase).toNat))
    let x1 := mulS (p.draws + 2) xs (fracS (fracOf p.phase).toNat)
    let sum := fun k : Fin 8 =>
      addS (p.draws + 3 + 4 * k.val + 3)
        (addS (p.draws + 3 + 4 * k.val + 1) (slotGet p.accum (r + BitVec.ofNat 3 k.val))
          (mulS (p.draws + 3 + 4 * k.val) (romAt s.rom (rowIndex p.phase) k) x0))
        (mulS (p.draws + 3 + 4 * k.val + 2) (romAt s.rom (nextRowIndex p.phase) k) x1)
    p'.phase = p.phase + s.deltaDown ∧ p'.cursor = p.cursor + 1 ∧
    (∀ k : Fin 8, k ≠ 0 → slotGet p'.accum (r + BitVec.ofNat 3 k.val) = sum k) ∧
    (ringOf p'.phase = r → slotGet p'.accum r = sum 0 ∧ p'.emitted = p.emitted ∧ p'.out = p.out) ∧
    (ringOf p'.phase ≠ r → slotGet p'.accum r = 0x00000000#32 ∧ p'.emitted = p.emitted + 1 ∧
      p'.out = p.out.setIfInBounds p.emitted (sum 0))

/-- Rule R158, for every delta: with every cursor valid the loop of `DOWN16` ends if and only if adding `deltaDown` can change
`RING` at all, that is unless its low 28 bits are zero; then the operation is stuck. The rule names `deltaDown = 0`; that the
other deltas with those bits zero behave alike is the model's deduction from rule R193 (log entry 21). -/
def Obligations.Down16EndsUnlessStationary : Prop :=
  ∀ (s : State) (c : Nat), AllValid s →
    ((∃ t, exec (.down16 c) s = .next t) ↔ s.deltaDown.toNat % 2 ^ 28 ≠ 0) ∧
    (s.deltaDown.toNat % 2 ^ 28 = 0 → exec (.down16 c) s = .fault .downNeverRotates)

/-! ### Both engines -/

/-- Rules R60, R164 and R165: an engine is stuck exactly when a cursor it consumes is outside `SRC_VALID`, and a transition
block exactly when a cursor that either of its passes consumes is; for every delta a transition block is stuck exactly as
its first pass is, or, where that one completes, as its second. -/
def Obligations.InvalidSourceReadIsStuck : Prop :=
  ∀ (s : State) (c : Nat),
    (s.deltaUp.toNat ≤ 7 * 2 ^ 25 →
      (exec (.up16 c) s = .fault .sourceReadOutsideValid ↔ ¬ WindowValid s c (upConsumption s.phase s.deltaUp))) ∧
    (1 ≤ s.deltaDown.toNat → s.deltaDown.toNat ≤ 7 * 2 ^ 25 →
      (exec (.down16 c) s = .fault .sourceReadOutsideValid ↔ ¬ WindowValid s c (downConsumption s.phase s.deltaDown))) ∧
    (∀ p : U32, s.deltaUp.toNat ≤ 7 * 2 ^ 25 → 1 ≤ s.deltaDown.toNat → s.deltaDown.toNat ≤ 7 * 2 ^ 25 →
      p = ~~~(s.phase + 16#32 * s.deltaUp) →
      (exec (.up2down16 c) s = .fault .sourceReadOutsideValid ↔
        ¬ (WindowValid s c (upConsumption s.phase s.deltaUp) ∧ WindowValid s c (downConsumption p s.deltaDown)))) ∧
    (∀ p : U32, s.deltaUp.toNat ≤ 7 * 2 ^ 25 → 1 ≤ s.deltaDown.toNat → s.deltaDown.toNat ≤ 7 * 2 ^ 25 →
      p = ~~~(s.phase + BitVec.ofNat 32 (downConsumption s.phase s.deltaDown) * s.deltaDown) →
      (exec (.down2up16 c) s = .fault .sourceReadOutsideValid ↔
        ¬ (WindowValid s c (downConsumption s.phase s.deltaDown) ∧ WindowValid s c (upConsumption p s.deltaUp)))) ∧
    ∀ f : Fault,
      (exec (.up2down16 c) s = .fault f ↔ exec (.up16 c) s = .fault f ∨ ∃ u, exec (.up16 c) s = .next u ∧
        exec (.down16 c) { u with phase := ~~~u.phase, mode := .down, outputAccum := Vector.replicate 8 0x00000000#32 } =
          .fault f) ∧
      (exec (.down2up16 c) s = .fault f ↔ exec (.down16 c) s = .fault f ∨ ∃ u, exec (.down16 c) s = .next u ∧
        exec (.up16 c) { u with phase := ~~~u.phase, mode := .up, inputRing := Vector.replicate 8 0x00000000#32 } =
          .fault f)

/-- Rules R11, R158 and R220: a block operation is never refused, and is stuck for two reasons only: a source read outside
`SRC_VALID`, or a down pass whose delta can never rotate the ring. The second stops `DOWN16` and `DOWN2UP16` whatever is
readable, and `UP2DOWN16` where its up pass completes. That the deltas with 28 low bits zero are those of rule R158, and that
the model names this reason first, are the model's deduction and choice (log entry 21). -/
def Obligations.BlocksAreStuckForTwoReasonsOnly : Prop :=
  ∀ (s : State) (c : Nat),
    (∀ i : Instr, IsProcess16 c i → (∀ r : Refusal, exec i s ≠ .refused r) ∧
      ∀ f : Fault, exec i s = .fault f → f = .sourceReadOutsideValid ∨
        (f = .downNeverRotates ∧ s.deltaDown.toNat % 2 ^ 28 = 0 ∧ i ≠ .up16 c)) ∧
    (s.deltaDown.toNat % 2 ^ 28 = 0 →
      exec (.down16 c) s = .fault .downNeverRotates ∧ exec (.down2up16 c) s = .fault .downNeverRotates ∧
      (exec (.up2down16 c) s = .fault .downNeverRotates ↔ ∃ u, exec (.up16 c) s = .next u))

/-- Rules R36, R140, R150: what a block that runs one engine leaves unchanged. `UP16` writes `phase`, `inputRing` and `DST`;
`DOWN16` writes `phase`, `outputAccum` and `DST`; `SRC` reads as before at every cursor. -/
def Obligations.SingleEngineFrame : Prop :=
  ∀ (s t : State) (c : Nat),
    (exec (.up16 c) s = .next t →
      t.ratio = s.ratio ∧ t.downscale = s.downscale ∧ t.deltaUp = s.deltaUp ∧ t.deltaDown = s.deltaDown ∧
      t.mode = s.mode ∧ t.outputAccum = s.outputAccum ∧ t.tmp = s.tmp ∧ t.rom = s.rom ∧ t.envelope = s.envelope ∧
      t.cursorW = s.cursorW ∧ t.srcValid = s.srcValid ∧ t.inputs = s.inputs ∧ ∀ a : Nat, t.src.read a = s.src.read a) ∧
    (exec (.down16 c) s = .next t →
      t.ratio = s.ratio ∧ t.downscale = s.downscale ∧ t.deltaUp = s.deltaUp ∧ t.deltaDown = s.deltaDown ∧
      t.mode = s.mode ∧ t.inputRing = s.inputRing ∧ t.tmp = s.tmp ∧ t.rom = s.rom ∧ t.envelope = s.envelope ∧
      t.cursorW = s.cursorW ∧ t.srcValid = s.srcValid ∧ t.inputs = s.inputs ∧ ∀ a : Nat, t.src.read a = s.src.read a)

/-- Rules R36, R164, R165: what a transition block leaves unchanged: the ratio registers, the ROM, `SRC` and the host's side;
it lands in the opposite steady mode whatever the deltas are (rule R171). -/
def Obligations.TransitionFrame : Prop :=
  ∀ (s t : State) (c : Nat) (i : Instr), i = .up2down16 c ∨ i = .down2up16 c → exec i s = .next t →
    t.ratio = s.ratio ∧ t.downscale = s.downscale ∧ t.deltaUp = s.deltaUp ∧ t.deltaDown = s.deltaDown ∧
    t.rom = s.rom ∧ t.envelope = s.envelope ∧ t.cursorW = s.cursorW ∧ t.srcValid = s.srcValid ∧ t.inputs = s.inputs ∧
    (∀ a : Nat, t.src.read a = s.src.read a) ∧
    (i = .up2down16 c → t.mode = .down) ∧ (i = .down2up16 c → t.mode = .up)

/-- Rule R182: what `DST` held before a block operation has no influence on its answer; so all sixteen slots are written,
whatever the ratio. -/
def Obligations.OldBufferContentsDoNotMatter : Prop :=
  ∀ (s : State) (c : Nat) (i : Instr) (v : Block), IsProcess16 c i → exec i { s with dst := v } = exec i s

/-- Rules R54 and R172 (d), which the spec derives: a transition block overwrites `TMP` in full and reads no slot it did not
write, so what `TMP` held before has no influence on its answer; a block that runs one engine neither reads nor writes it.
That `TMP` is a field that outlives the operation is the model's (log entry 5). -/
def Obligations.OldTmpContentsDoNotMatter : Prop :=
  ∀ (s : State) (c : Nat) (w : Block),
    (∀ i : Instr, i = .up2down16 c ∨ i = .down2up16 c → exec i { s with tmp := w } = exec i s) ∧
    ∀ (i : Instr) (t : State), i = .up16 c ∨ i = .down16 c → exec i s = .next t →
      exec i { s with tmp := w } = .next { t with tmp := w }

/-- Rules R131 and R194: no test of the block looks at a sample or at the ROM. Two states that agree on `phase`, `mode`, the
deltas, `SRC_VALID` and `CURSOR_W` are stuck together or complete together, with the same `phase`, `mode` and cursor; if they agree on
`SRC` and on the ring as well, the rings they leave are the same, whatever the ROM. -/
def Obligations.SamplesAndRomDoNotSteer : Prop :=
  ∀ (s s' : State) (c : Nat) (i : Instr), IsProcess16 c i →
    s'.phase = s.phase → s'.mode = s.mode → s'.deltaUp = s.deltaUp → s'.deltaDown = s.deltaDown →
    s'.srcValid = s.srcValid → s'.cursorW = s.cursorW →
    (∀ f, exec i s = .fault f → exec i s' = .fault f) ∧
    (∀ t, exec i s = .next t → ∃ t', exec i s' = .next t' ∧
      t'.phase = t.phase ∧ t'.mode = t.mode ∧ t'.response = t.response ∧
      (s'.src = s.src → s'.inputRing = s.inputRing → t'.inputRing = t.inputRing))

/-- Rules R83, R190, R191: `CARRY` influences nothing. States that differ only in `phase[31:28]` are stuck together or leave
states that differ only there. -/
def Obligations.CarryInfluencesNothing : Prop :=
  ∀ (s : State) (c : Nat) (i : Instr) (p : U32), IsProcess16 c i → p.toNat % 2 ^ 28 = s.phase.toNat % 2 ^ 28 →
    (∀ f, exec i s = .fault f → exec i { s with phase := p } = .fault f) ∧
    (∀ t, exec i s = .next t → ∃ p' : U32, p'.toNat % 2 ^ 28 = t.phase.toNat % 2 ^ 28 ∧
      exec i { s with phase := p } = .next { t with phase := p' })

/-- Rules R61 and R188: an engine reads `SRC` at consecutive ascending cursors from the entry cursor, as many as the returned
cursor says, and writes the slots of `DST` once each in ascending order, with the values they end with. The access record is
the model's own (log entry 16). -/
def Obligations.EngineAccessesInOrder : Prop :=
  ∀ (s t : State) (c : Nat) (i : Instr), i = .up16 c ∨ i = .down16 c → exec i s = .next t →
    ∃ (l : List Access) (n : Nat), t.accesses = s.accesses ++ l ∧
      sourceCursors l = (List.range n).map (fun j => (c + j) % 2 ^ s.cursorW) ∧
      t.response = some ((c + n) % 2 ^ s.cursorW) ∧
      bufferWrites .dst l = (List.range 16).zip t.dst.toList ∧ bufferWrites .tmp l = []

/-- Rules R57, R61 and R169: a transition block reads `SRC` twice from the same entry cursor, the old engine's stretch and then
the new engine's, and returns the cursor of the second; `TMP` is written once in order, `DST` in full and then its last eight
slots again. The access record is the model's own (log entry 16), and so is that `TMP` still holds what the block wrote there
(log entry 5). -/
def Obligations.TransitionReadsTheSourceTwice : Prop :=
  ∀ (s t : State) (c : Nat) (i : Instr), i = .up2down16 c ∨ i = .down2up16 c → exec i s = .next t →
    ∃ (l : List Access) (m n : Nat) (old : Block), t.accesses = s.accesses ++ l ∧
      sourceCursors l = (List.range m).map (fun j => (c + j) % 2 ^ s.cursorW) ++
        (List.range n).map (fun j => (c + j) % 2 ^ s.cursorW) ∧
      t.response = some ((c + n) % 2 ^ s.cursorW) ∧
      bufferWrites .tmp l = (List.range 16).zip t.tmp.toList ∧
      bufferWrites .dst l = (List.range 16).zip old.toList ++ ((List.range 16).zip t.dst.toList).drop 8

/-- Rules R93, R126 and R130: for each output sample, after its addition, `UP16` reads the eight taps of row
`TAB = floor(p / 2^17) mod 2^8` and the eight of row `TAB + 1`, at the addresses `{row[8:0], tap[2:0]}`; `DOWN16` reads the
same sixteen for each source sample, before its addition; a transition block reads what its old engine reads and then what
its new engine reads from the complemented phase (rules R164 to R166), and its blend reads none; no address is formed above
row 256. `RESET`, `SET_RATIO` and `TRANSPOSE` access nothing, and so leave `DST`, `TMP` and the response alone (rules R90,
R110, R113, R240; log entry 15). The access record and the order within one sample are the model's (log entry 16). -/
def Obligations.RomReadsOfEachOperation : Prop :=
  let up := fun p : U32 =>
    (List.range 8).map (fun k => BitVec.ofNat 9 (p.toNat / 2 ^ 17 % 2 ^ 8) ++ BitVec.ofNat 3 k) ++
    (List.range 8).map (fun k => BitVec.ofNat 9 (p.toNat / 2 ^ 17 % 2 ^ 8 + 1) ++ BitVec.ofNat 3 k)
  let down := fun p : U32 =>
    (List.range 8).flatMap (fun k =>
      [BitVec.ofNat 9 (p.toNat / 2 ^ 17 % 2 ^ 8) ++ BitVec.ofNat 3 k,
       BitVec.ofNat 9 (p.toNat / 2 ^ 17 % 2 ^ 8 + 1) ++ BitVec.ofNat 3 k])
  let upBlock := fun p d : U32 => (List.range 16).flatMap (fun n => up (p + BitVec.ofNat 32 (n + 1) * d))
  let downBlock := fun (p d : U32) (m : Nat) => (List.range m).flatMap (fun n => down (p + BitVec.ofNat 32 n * d))
  ∀ (s t : State) (c : Nat),
    let cursors := fun m => (List.range m).map (fun j => (c + j) % 2 ^ s.cursorW)
    (exec (.up16 c) s = .next t → ∃ l, t.accesses = s.accesses ++ l ∧
      romAddresses l = upBlock s.phase s.deltaUp ∧
      (romAddresses l).length = 256 ∧ ∀ a ∈ romAddresses l, (a.extractLsb' 3 9).toNat ≤ 256) ∧
    (exec (.down16 c) s = .next t → ∃ (l : List Access) (m : Nat), t.accesses = s.accesses ++ l ∧
      t.response = some ((c + m) % 2 ^ s.cursorW) ∧ sourceCursors l = cursors m ∧
      romAddresses l = downBlock s.phase s.deltaDown m ∧
      (romAddresses l).length = 16 * m ∧ ∀ a ∈ romAddresses l, (a.extractLsb' 3 9).toNat ≤ 256) ∧
    (exec (.up2down16 c) s = .next t → ∃ (l : List Access) (m₁ m₂ : Nat), t.accesses = s.accesses ++ l ∧
      t.response = some ((c + m₂) % 2 ^ s.cursorW) ∧ sourceCursors l = cursors m₁ ++ cursors m₂ ∧
      romAddresses l = upBlock s.phase s.deltaUp ++
        downBlock (~~~(s.phase + 16#32 * s.deltaUp)) s.deltaDown m₂ ∧
      (romAddresses l).length = 256 + 16 * m₂ ∧ ∀ a ∈ romAddresses l, (a.extractLsb' 3 9).toNat ≤ 256) ∧
    (exec (.down2up16 c) s = .next t → ∃ (l : List Access) (m₁ m₂ : Nat), t.accesses = s.accesses ++ l ∧
      t.response = some ((c + m₂) % 2 ^ s.cursorW) ∧ sourceCursors l = cursors m₁ ++ cursors m₂ ∧
      romAddresses l = downBlock s.phase s.deltaDown m₁ ++
        upBlock (~~~(s.phase + BitVec.ofNat 32 m₁ * s.deltaDown)) s.deltaUp ∧
      (romAddresses l).length = 16 * m₁ + 256 ∧ ∀ a ∈ romAddresses l, (a.extractLsb' 3 9).toNat ≤ 256) ∧
    (∀ i : Instr, (i = .reset ∨ (∃ q, i = .setRatio q) ∨ ∃ x, i = .transpose x) → exec i s = .next t →
      t.accesses = s.accesses ∧ t.response = s.response ∧ t.dst = s.dst ∧ t.tmp = s.tmp)

/-- Rules R60 and R185: with the invariant, an envelope within the default one (log entry 7) and the 128 cursors from `c` on
valid, every block operation completes, and it reads no other cursor. The access record is the model's own (log entry 16). -/
def Obligations.ProcessCompletesInTheEnvelope : Prop :=
  ∀ (s : State) (c : Nat) (i : Instr), Inv s → WithinDefault s.envelope → WindowValid s c 128 → IsProcess16 c i →
    ∃ (t : State) (l : List Access), exec i s = .next t ∧ t.accesses = s.accesses ++ l ∧
      ∀ a ∈ sourceCursors l, ∃ j < 128, a = (c + j) % 2 ^ s.cursorW

/-! ### Transitions -/

/-- Rules R164, R166, R169 and R173: `UP2DOWN16` completes; it lands in `DOWN`, returns the entry cursor plus what the new
engine consumes from the inverted phase, and leaves the phase that pass ends with. -/
def Obligations.Up2Down16CompletesAndConsumes : Prop :=
  ∀ (s : State) (c : Nat) (p : U32), s.deltaUp.toNat ≤ 7 * 2 ^ 25 →
    1 ≤ s.deltaDown.toNat → s.deltaDown.toNat ≤ 7 * 2 ^ 25 →
    p = ~~~(s.phase + 16#32 * s.deltaUp) →
    WindowValid s c (upConsumption s.phase s.deltaUp) → WindowValid s c (downConsumption p s.deltaDown) →
    ∃ t, exec (.up2down16 c) s = .next t ∧ t.mode = .down ∧
      t.response = some ((c + downConsumption p s.deltaDown) % 2 ^ s.cursorW) ∧
      t.phase = p + BitVec.ofNat 32 (downConsumption p s.deltaDown) * s.deltaDown

/-- Rules R165, R166, R169 and R173: the same of `DOWN2UP16`, which lands in `UP`. -/
def Obligations.Down2Up16CompletesAndConsumes : Prop :=
  ∀ (s : State) (c : Nat) (p : U32), s.deltaUp.toNat ≤ 7 * 2 ^ 25 →
    1 ≤ s.deltaDown.toNat → s.deltaDown.toNat ≤ 7 * 2 ^ 25 →
    p = ~~~(s.phase + BitVec.ofNat 32 (downConsumption s.phase s.deltaDown) * s.deltaDown) →
    WindowValid s c (downConsumption s.phase s.deltaDown) → WindowValid s c (upConsumption p s.deltaUp) →
    ∃ t, exec (.down2up16 c) s = .next t ∧ t.mode = .up ∧
      t.response = some ((c + upConsumption p s.deltaUp) % 2 ^ s.cursorW) ∧
      t.phase = p + 16#32 * s.deltaUp

/-- Rules R164, R167 and R168: a transition block is the old engine's block, then the new engine's on the inverted phase and a
cleared array from the same cursor; `DST[0..7]` are the old engine's, and `DST[8+j]` is
`old ⊕ (W[j] ⊗ (new ⊖ old))`. That `TMP` still holds the new engine's block afterwards is log entry 5, and which draw stands
for a NaN is log entry 11, both the model's. -/
def Obligations.TransitionBlendsOldAndNew : Prop :=
  ∀ (s t : State) (c : Nat),
    (exec (.up2down16 c) s = .next t → ∃ u v : State,
      exec (.up16 c) s = .next u ∧
      exec (.down16 c) { u with phase := ~~~u.phase, mode := .down, outputAccum := Vector.replicate 8 0x00000000#32 } = .next v ∧
      t.inputRing = u.inputRing ∧ t.outputAccum = v.outputAccum ∧ t.phase = v.phase ∧ t.response = v.response ∧
      t.tmp = v.dst ∧ (∀ (n : Nat) (h : n < 8), t.dst[n] = u.dst[n]) ∧
      ∀ j : Fin 8, t.dst[8 + j.val] =
        addS (v.draws + 3 * j.val + 2) (u.dst[8 + j.val])
          (mulS (v.draws + 3 * j.val + 1) (blendWeight j) (subS (v.draws + 3 * j.val) (v.dst[8 + j.val]) (u.dst[8 + j.val])))) ∧
    (exec (.down2up16 c) s = .next t → ∃ u v : State,
      exec (.down16 c) s = .next u ∧
      exec (.up16 c) { u with phase := ~~~u.phase, mode := .up, inputRing := Vector.replicate 8 0x00000000#32 } = .next v ∧
      t.outputAccum = u.outputAccum ∧ t.inputRing = v.inputRing ∧ t.phase = v.phase ∧ t.response = v.response ∧
      t.tmp = v.dst ∧ (∀ (n : Nat) (h : n < 8), t.dst[n] = u.dst[n]) ∧
      ∀ j : Fin 8, t.dst[8 + j.val] =
        addS (v.draws + 3 * j.val + 2) (u.dst[8 + j.val])
          (mulS (v.draws + 3 * j.val + 1) (blendWeight j) (subS (v.draws + 3 * j.val) (v.dst[8 + j.val]) (u.dst[8 + j.val]))))

/-- Rule R94: the eight weights are the constants of the table, and each is the binary32 nearest `(j+1)/9`. -/
def Obligations.BlendWeightsAreTheTable : Prop :=
  taps.map blendWeight = [0x3DE38E39#32, 0x3E638E39#32, 0x3EAAAAAB#32, 0x3EE38E39#32, 0x3F0E38E4#32, 0x3F2AAAAB#32,
    0x3F471C72#32, 0x3F638E39#32] ∧
  ∀ j : Fin 8, IsRN32 (((j.val : ℚ) + 1) / 9) (blendWeight j)

/-- Rules R166 and R191: the inversion is `(2^32 − 1) − phase`; field by field it complements `FRAC`, `TAB`, `RING` and `CARRY`
within their widths; twice is the identity. -/
def Obligations.PhaseInversionComplementsTheFields : Prop :=
  ∀ s : State,
    (complementPhase s).phase.toNat = 2 ^ 32 - 1 - s.phase.toNat ∧
    (fracOf (complementPhase s).phase).toNat = 2 ^ 17 - 1 - (fracOf s.phase).toNat ∧
    (tabOf (complementPhase s).phase).toNat = 255 - (tabOf s.phase).toNat ∧
    (ringOf (complementPhase s).phase).toNat = 7 - (ringOf s.phase).toNat ∧
    (carryOf (complementPhase s).phase).toNat = 15 - (carryOf s.phase).toNat ∧
    (complementPhase (complementPhase s)).phase = s.phase

/-! ### Integer arithmetic -/

/-- Rule R82: the four fields, disjoint and covering all 32 bits; the table index is at most 255, and the next row is one
above it, so that 256 is reached only there. -/
def Obligations.PhaseFieldsCoverThePhase : Prop :=
  ∀ p : U32,
    p.toNat = (carryOf p).toNat * 2 ^ 28 + (ringOf p).toNat * 2 ^ 25 + (tabOf p).toNat * 2 ^ 17 + (fracOf p).toNat ∧
    (fracOf p).toNat = p.toNat % 2 ^ 17 ∧ (tabOf p).toNat = p.toNat / 2 ^ 17 % 2 ^ 8 ∧
    (ringOf p).toNat = p.toNat / 2 ^ 25 % 8 ∧ (carryOf p).toNat = p.toNat / 2 ^ 28 ∧
    (rowIndex p).val = (tabOf p).toNat ∧ (rowIndex p).val ≤ 255 ∧ (nextRowIndex p).val = (tabOf p).toNat + 1

/-- Rule R193: the advance law of one addition, and the number of slots it advances. -/
def Obligations.AdvanceLaw : Prop :=
  ∀ p d : U32,
    (ringOf (p + d)).toNat = ((ringOf p).toNat + (d.toNat / 2 ^ 25 % 8 +
      if p.toNat % 2 ^ 25 + d.toNat % 2 ^ 25 ≥ 2 ^ 25 then 1 else 0)) % 8 ∧
    (p + d).toNat % 2 ^ 25 = (p.toNat % 2 ^ 25 + d.toNat % 2 ^ 25) % 2 ^ 25 ∧
    slotsAdvanced p (p + d) = (p.toNat % 2 ^ 25 + d.toNat % 2 ^ 28) / 2 ^ 25 % 8 ∧
    (d.toNat ≤ 7 * 2 ^ 25 → slotsAdvanced p (p + d) = (p.toNat % 2 ^ 25 + d.toNat) / 2 ^ 25)

/-! ### Sample arithmetic -/

/-- Rule R205: `rn32` is the binary32 nearest the rational, ties to even, an infinity from `2^128 − 2^103` on. -/
def Obligations.Rn32IsTheNearest : Prop :=
  ∀ (neg : Bool) (num den : Nat), 0 < den →
    IsRN32 ((if neg then -1 else 1) * ((num : ℚ) / den)) (rn32 neg num den)

/-- Rule R198: each operator computes the exact real result of two finite operands and rounds it once, to nearest even (the spec's
decision D4, log entry 13). -/
def Obligations.OperatorsRoundTheExactResult : Prop :=
  ∀ (d : Nat) (a b : Sample), isFinite a = true → isFinite b = true →
    IsRN32 (sampleValue a + sampleValue b) (addS d a b) ∧
    IsRN32 (sampleValue a - sampleValue b) (subS d a b) ∧
    IsRN32 (sampleValue a * sampleValue b) (mulS d a b)

/-- Rule R200: a NaN operand gives a NaN; `∞ ⊖ ∞`, `∞ ⊕ (−∞)` and `0 ⊗ ∞` give a NaN; the other operations with an infinity
give the infinity of the right sign. Which NaN is free. -/
def Obligations.NaNsAndInfinitiesPropagate : Prop :=
  ∀ (d : Nat) (a b : Sample),
    (isNaN a = true ∨ isNaN b = true → isNaN (addS d a b) = true ∧ isNaN (subS d a b) = true ∧ isNaN (mulS d a b) = true) ∧
    (isInf a = true → isInf b = true →
      (signBit a ≠ signBit b → isNaN (addS d a b) = true ∧ subS d a b = a) ∧
      (signBit a = signBit b → isNaN (subS d a b) = true ∧ addS d a b = a)) ∧
    (isInf a = true → isFinite b = true → addS d a b = a ∧ addS d b a = a ∧ subS d a b = a ∧
      subS d b a = (if signBit a then 0x7F800000#32 else 0xFF800000#32)) ∧
    (isInf a = true → isZero b = true → isNaN (mulS d a b) = true ∧ isNaN (mulS d b a) = true) ∧
    (isInf a = true → isZero b = false → isNaN b = false →
      mulS d a b = (if signBit a = signBit b then 0x7F800000#32 else 0xFF800000#32) ∧ mulS d b a = mulS d a b)

/-- Rule R201: the signs of zero results. -/
def Obligations.SignedZeroResults : Prop :=
  ∀ (d : Nat) (x : Sample),
    (isNaN x = false → x ≠ 0x80000000#32 → addS d x 0x00000000#32 = x) ∧
    addS d 0x80000000#32 0x00000000#32 = 0x00000000#32 ∧ addS d 0x00000000#32 0x80000000#32 = 0x00000000#32 ∧
    (isFinite x = true → mulS d 0x00000000#32 x = (if signBit x then 0x80000000#32 else 0x00000000#32)) ∧
    (isFinite x = true → subS d x x = 0x00000000#32)

/-- Rule R204: `fracS` is exact on `[0, 2^17]`, and the two weights of a phase value sum to exactly 1. -/
def Obligations.FractionWeightsAreExact : Prop :=
  (∀ F : Nat, F ≤ 2 ^ 17 → isFinite (fracS F) = true ∧ sampleValue (fracS F) = (F : ℚ) / 2 ^ 17) ∧
  ∀ p : U32, sampleValue (fracS (fracOf p).toNat) + sampleValue (fracS (2 ^ 17 - (fracOf p).toNat)) = 1

/-- Rule R209, the laws a model may assume, but for monotonicity, which is `OperatorsAreMonotone`: `⊕` and `⊗` commute, 1.0 is
neutral for `⊗`, `x ⊖ y` is `x ⊕ (−y)`, a result is exact whenever the real result is representable, and a weight of
magnitude at most 1 does not enlarge a finite sample. A NaN, whose pattern is free (log entry 11), commutes only in being
one. -/
def Obligations.OperatorLaws : Prop :=
  ∀ (d : Nat) (a b : Sample),
    (isNaN (addS d a b) = false → addS d b a = addS d a b) ∧
    (isNaN (mulS d a b) = false → mulS d b a = mulS d a b) ∧
    (isNaN a = false → mulS d a 0x3F800000#32 = a) ∧
    subS d a b = addS d a (b ^^^ 0x80000000#32) ∧
    (isFinite a = true → isFinite b = true → ∀ z : Sample, isFinite z = true →
      (sampleValue z = sampleValue a + sampleValue b →
        isFinite (addS d a b) = true ∧ sampleValue (addS d a b) = sampleValue a + sampleValue b) ∧
      (sampleValue z = sampleValue a - sampleValue b →
        isFinite (subS d a b) = true ∧ sampleValue (subS d a b) = sampleValue a - sampleValue b) ∧
      (sampleValue z = sampleValue a * sampleValue b →
        isFinite (mulS d a b) = true ∧ sampleValue (mulS d a b) = sampleValue a * sampleValue b)) ∧
    (isFinite a = true → isFinite b = true → |sampleValue b| ≤ 1 →
      isFinite (mulS d a b) = true ∧ |sampleValue (mulS d a b)| ≤ |sampleValue a|)

/-- Rule R209: each operator is monotone in each operand, `⊗` for a fixed sign of the other, `⊖` downward in the second, in
the order of the values with the infinities at its ends, wherever neither operand nor result is a NaN. -/
def Obligations.OperatorsAreMonotone : Prop :=
  ∀ (d : Nat) (a a' b : Sample), AtMost a a' →
    AtMost (addS d a b) (addS d a' b) ∧ AtMost (addS d b a) (addS d b a') ∧
    AtMost (subS d a b) (subS d a' b) ∧ AtMost (subS d b a') (subS d b a) ∧
    (signBit b = false → AtMost (mulS d a b) (mulS d a' b) ∧ AtMost (mulS d b a) (mulS d b a')) ∧
    (signBit b = true → AtMost (mulS d a' b) (mulS d a b) ∧ AtMost (mulS d b a') (mulS d b a))

/-- Rule R207, the zero-input law: with zeros in both arrays and at every source sample read, and `downscale` finite, a block
operation writes sixteen zeros and leaves zeros in both arrays; with +0.0 everywhere, and no negative sign in the ROM or in
`downscale`, they are all +0.0. -/
def Obligations.ZerosInZerosOut : Prop :=
  ∀ (s t : State) (c : Nat) (i : Instr) (l : List Access), IsProcess16 c i → exec i s = .next t →
    t.accesses = s.accesses ++ l → isFinite s.downscale = true →
    ((∀ r : RingIx, isZero (slotGet s.inputRing r) = true) → (∀ r : RingIx, isZero (slotGet s.outputAccum r) = true) →
      (∀ a ∈ sourceCursors l, isZero (s.src.read a) = true) →
      (∀ (n : Nat) (h : n < 16), isZero (t.dst[n]) = true) ∧
      (∀ r : RingIx, isZero (slotGet t.inputRing r) = true) ∧ ∀ r : RingIx, isZero (slotGet t.outputAccum r) = true) ∧
    ((∀ r : RingIx, slotGet s.inputRing r = 0x00000000#32) → (∀ r : RingIx, slotGet s.outputAccum r = 0x00000000#32) →
      (∀ a ∈ sourceCursors l, s.src.read a = 0x00000000#32) → signBit s.downscale = false →
      (∀ (row : Fin 257) (k : Fin 8), signBit (romAt s.rom row k) = false) →
      (∀ (n : Nat) (h : n < 16), t.dst[n] = 0x00000000#32) ∧
      (∀ r : RingIx, slotGet t.inputRing r = 0x00000000#32) ∧ ∀ r : RingIx, slotGet t.outputAccum r = 0x00000000#32)
end

