-- ==== Sys2Proof/Laws/State.lean ====
section
/-! SUPPORT. One lemma for each field of each named update of the state, so that no later proof unfolds a record update. -/

namespace Sys2Proof.Machine

/-! ### `resetRegisters` -/

@[simp] theorem resetRegisters_ratio (s : State) : (resetRegisters s).ratio = oneSample := rfl
@[simp] theorem resetRegisters_downscale (s : State) : (resetRegisters s).downscale = oneSample := rfl
@[simp] theorem resetRegisters_deltaUp (s : State) : (resetRegisters s).deltaUp = 0x02000000#32 := rfl
@[simp] theorem resetRegisters_deltaDown (s : State) : (resetRegisters s).deltaDown = 0x02000000#32 := rfl
@[simp] theorem resetRegisters_phase (s : State) : (resetRegisters s).phase = 0x00000000#32 := rfl
@[simp] theorem resetRegisters_mode (s : State) : (resetRegisters s).mode = .up := rfl
@[simp] theorem resetRegisters_inputRing (s : State) : (resetRegisters s).inputRing = zeroSlots := rfl
@[simp] theorem resetRegisters_outputAccum (s : State) : (resetRegisters s).outputAccum = zeroSlots := rfl
@[simp] theorem resetRegisters_dst (s : State) : (resetRegisters s).dst = s.dst := rfl
@[simp] theorem resetRegisters_tmp (s : State) : (resetRegisters s).tmp = s.tmp := rfl
@[simp] theorem resetRegisters_envelope (s : State) : (resetRegisters s).envelope = s.envelope := rfl
@[simp] theorem resetRegisters_cursorW (s : State) : (resetRegisters s).cursorW = s.cursorW := rfl
@[simp] theorem resetRegisters_rom (s : State) : (resetRegisters s).rom = s.rom := rfl
@[simp] theorem resetRegisters_src (s : State) : (resetRegisters s).src = s.src := rfl
@[simp] theorem resetRegisters_srcValid (s : State) : (resetRegisters s).srcValid = s.srcValid := rfl
@[simp] theorem resetRegisters_inputs (s : State) : (resetRegisters s).inputs = s.inputs := rfl
@[simp] theorem resetRegisters_response (s : State) : (resetRegisters s).response = s.response := rfl
@[simp] theorem resetRegisters_accesses (s : State) : (resetRegisters s).accesses = s.accesses := rfl
@[simp] theorem resetRegisters_draws (s : State) : (resetRegisters s).draws = s.draws := rfl

/-! ### `loadRatio` -/

@[simp] theorem loadRatio_ratio (q : Sample) (s : State) : (loadRatio q s).ratio = q := rfl
@[simp] theorem loadRatio_downscale (q : Sample) (s : State) : (loadRatio q s).downscale = downscaleOf q := rfl
@[simp] theorem loadRatio_deltaUp (q : Sample) (s : State) : (loadRatio q s).deltaUp = deltaUpOf q := rfl
@[simp] theorem loadRatio_deltaDown (q : Sample) (s : State) : (loadRatio q s).deltaDown = deltaDownOf q := rfl
@[simp] theorem loadRatio_phase (q : Sample) (s : State) : (loadRatio q s).phase = s.phase := rfl
@[simp] theorem loadRatio_mode (q : Sample) (s : State) : (loadRatio q s).mode = s.mode := rfl
@[simp] theorem loadRatio_inputRing (q : Sample) (s : State) : (loadRatio q s).inputRing = s.inputRing := rfl
@[simp] theorem loadRatio_outputAccum (q : Sample) (s : State) : (loadRatio q s).outputAccum = s.outputAccum := rfl
@[simp] theorem loadRatio_dst (q : Sample) (s : State) : (loadRatio q s).dst = s.dst := rfl
@[simp] theorem loadRatio_tmp (q : Sample) (s : State) : (loadRatio q s).tmp = s.tmp := rfl
@[simp] theorem loadRatio_envelope (q : Sample) (s : State) : (loadRatio q s).envelope = s.envelope := rfl
@[simp] theorem loadRatio_cursorW (q : Sample) (s : State) : (loadRatio q s).cursorW = s.cursorW := rfl
@[simp] theorem loadRatio_rom (q : Sample) (s : State) : (loadRatio q s).rom = s.rom := rfl
@[simp] theorem loadRatio_src (q : Sample) (s : State) : (loadRatio q s).src = s.src := rfl
@[simp] theorem loadRatio_srcValid (q : Sample) (s : State) : (loadRatio q s).srcValid = s.srcValid := rfl
@[simp] theorem loadRatio_inputs (q : Sample) (s : State) : (loadRatio q s).inputs = s.inputs := rfl
@[simp] theorem loadRatio_response (q : Sample) (s : State) : (loadRatio q s).response = s.response := rfl
@[simp] theorem loadRatio_accesses (q : Sample) (s : State) : (loadRatio q s).accesses = s.accesses := rfl
@[simp] theorem loadRatio_draws (q : Sample) (s : State) : (loadRatio q s).draws = s.draws := rfl

/-! ### `setMode` -/

@[simp] theorem setMode_ratio (m : Mode) (s : State) : (setMode m s).ratio = s.ratio := rfl
@[simp] theorem setMode_downscale (m : Mode) (s : State) : (setMode m s).downscale = s.downscale := rfl
@[simp] theorem setMode_deltaUp (m : Mode) (s : State) : (setMode m s).deltaUp = s.deltaUp := rfl
@[simp] theorem setMode_deltaDown (m : Mode) (s : State) : (setMode m s).deltaDown = s.deltaDown := rfl
@[simp] theorem setMode_phase (m : Mode) (s : State) : (setMode m s).phase = s.phase := rfl
@[simp] theorem setMode_mode (m : Mode) (s : State) : (setMode m s).mode = m := rfl
@[simp] theorem setMode_inputRing (m : Mode) (s : State) : (setMode m s).inputRing = s.inputRing := rfl
@[simp] theorem setMode_outputAccum (m : Mode) (s : State) : (setMode m s).outputAccum = s.outputAccum := rfl
@[simp] theorem setMode_dst (m : Mode) (s : State) : (setMode m s).dst = s.dst := rfl
@[simp] theorem setMode_tmp (m : Mode) (s : State) : (setMode m s).tmp = s.tmp := rfl
@[simp] theorem setMode_envelope (m : Mode) (s : State) : (setMode m s).envelope = s.envelope := rfl
@[simp] theorem setMode_cursorW (m : Mode) (s : State) : (setMode m s).cursorW = s.cursorW := rfl
@[simp] theorem setMode_rom (m : Mode) (s : State) : (setMode m s).rom = s.rom := rfl
@[simp] theorem setMode_src (m : Mode) (s : State) : (setMode m s).src = s.src := rfl
@[simp] theorem setMode_srcValid (m : Mode) (s : State) : (setMode m s).srcValid = s.srcValid := rfl
@[simp] theorem setMode_inputs (m : Mode) (s : State) : (setMode m s).inputs = s.inputs := rfl
@[simp] theorem setMode_response (m : Mode) (s : State) : (setMode m s).response = s.response := rfl
@[simp] theorem setMode_accesses (m : Mode) (s : State) : (setMode m s).accesses = s.accesses := rfl
@[simp] theorem setMode_draws (m : Mode) (s : State) : (setMode m s).draws = s.draws := rfl

/-! ### `complementPhase` -/

@[simp] theorem complementPhase_ratio (s : State) : (complementPhase s).ratio = s.ratio := rfl
@[simp] theorem complementPhase_downscale (s : State) : (complementPhase s).downscale = s.downscale := rfl
@[simp] theorem complementPhase_deltaUp (s : State) : (complementPhase s).deltaUp = s.deltaUp := rfl
@[simp] theorem complementPhase_deltaDown (s : State) : (complementPhase s).deltaDown = s.deltaDown := rfl
@[simp] theorem complementPhase_phase (s : State) : (complementPhase s).phase = ~~~s.phase := rfl
@[simp] theorem complementPhase_mode (s : State) : (complementPhase s).mode = s.mode := rfl
@[simp] theorem complementPhase_inputRing (s : State) : (complementPhase s).inputRing = s.inputRing := rfl
@[simp] theorem complementPhase_outputAccum (s : State) : (complementPhase s).outputAccum = s.outputAccum := rfl
@[simp] theorem complementPhase_dst (s : State) : (complementPhase s).dst = s.dst := rfl
@[simp] theorem complementPhase_tmp (s : State) : (complementPhase s).tmp = s.tmp := rfl
@[simp] theorem complementPhase_envelope (s : State) : (complementPhase s).envelope = s.envelope := rfl
@[simp] theorem complementPhase_cursorW (s : State) : (complementPhase s).cursorW = s.cursorW := rfl
@[simp] theorem complementPhase_rom (s : State) : (complementPhase s).rom = s.rom := rfl
@[simp] theorem complementPhase_src (s : State) : (complementPhase s).src = s.src := rfl
@[simp] theorem complementPhase_srcValid (s : State) : (complementPhase s).srcValid = s.srcValid := rfl
@[simp] theorem complementPhase_inputs (s : State) : (complementPhase s).inputs = s.inputs := rfl
@[simp] theorem complementPhase_response (s : State) : (complementPhase s).response = s.response := rfl
@[simp] theorem complementPhase_accesses (s : State) : (complementPhase s).accesses = s.accesses := rfl
@[simp] theorem complementPhase_draws (s : State) : (complementPhase s).draws = s.draws := rfl

/-! ### `clearInputRing` -/

@[simp] theorem clearInputRing_ratio (s : State) : (clearInputRing s).ratio = s.ratio := rfl
@[simp] theorem clearInputRing_downscale (s : State) : (clearInputRing s).downscale = s.downscale := rfl
@[simp] theorem clearInputRing_deltaUp (s : State) : (clearInputRing s).deltaUp = s.deltaUp := rfl
@[simp] theorem clearInputRing_deltaDown (s : State) : (clearInputRing s).deltaDown = s.deltaDown := rfl
@[simp] theorem clearInputRing_phase (s : State) : (clearInputRing s).phase = s.phase := rfl
@[simp] theorem clearInputRing_mode (s : State) : (clearInputRing s).mode = s.mode := rfl
@[simp] theorem clearInputRing_inputRing (s : State) : (clearInputRing s).inputRing = zeroSlots := rfl
@[simp] theorem clearInputRing_outputAccum (s : State) : (clearInputRing s).outputAccum = s.outputAccum := rfl
@[simp] theorem clearInputRing_dst (s : State) : (clearInputRing s).dst = s.dst := rfl
@[simp] theorem clearInputRing_tmp (s : State) : (clearInputRing s).tmp = s.tmp := rfl
@[simp] theorem clearInputRing_envelope (s : State) : (clearInputRing s).envelope = s.envelope := rfl
@[simp] theorem clearInputRing_cursorW (s : State) : (clearInputRing s).cursorW = s.cursorW := rfl
@[simp] theorem clearInputRing_rom (s : State) : (clearInputRing s).rom = s.rom := rfl
@[simp] theorem clearInputRing_src (s : State) : (clearInputRing s).src = s.src := rfl
@[simp] theorem clearInputRing_srcValid (s : State) : (clearInputRing s).srcValid = s.srcValid := rfl
@[simp] theorem clearInputRing_inputs (s : State) : (clearInputRing s).inputs = s.inputs := rfl
@[simp] theorem clearInputRing_response (s : State) : (clearInputRing s).response = s.response := rfl
@[simp] theorem clearInputRing_accesses (s : State) : (clearInputRing s).accesses = s.accesses := rfl
@[simp] theorem clearInputRing_draws (s : State) : (clearInputRing s).draws = s.draws := rfl

/-! ### `clearOutputAccum` -/

@[simp] theorem clearOutputAccum_ratio (s : State) : (clearOutputAccum s).ratio = s.ratio := rfl
@[simp] theorem clearOutputAccum_downscale (s : State) : (clearOutputAccum s).downscale = s.downscale := rfl
@[simp] theorem clearOutputAccum_deltaUp (s : State) : (clearOutputAccum s).deltaUp = s.deltaUp := rfl
@[simp] theorem clearOutputAccum_deltaDown (s : State) : (clearOutputAccum s).deltaDown = s.deltaDown := rfl
@[simp] theorem clearOutputAccum_phase (s : State) : (clearOutputAccum s).phase = s.phase := rfl
@[simp] theorem clearOutputAccum_mode (s : State) : (clearOutputAccum s).mode = s.mode := rfl
@[simp] theorem clearOutputAccum_inputRing (s : State) : (clearOutputAccum s).inputRing = s.inputRing := rfl
@[simp] theorem clearOutputAccum_outputAccum (s : State) : (clearOutputAccum s).outputAccum = zeroSlots := rfl
@[simp] theorem clearOutputAccum_dst (s : State) : (clearOutputAccum s).dst = s.dst := rfl
@[simp] theorem clearOutputAccum_tmp (s : State) : (clearOutputAccum s).tmp = s.tmp := rfl
@[simp] theorem clearOutputAccum_envelope (s : State) : (clearOutputAccum s).envelope = s.envelope := rfl
@[simp] theorem clearOutputAccum_cursorW (s : State) : (clearOutputAccum s).cursorW = s.cursorW := rfl
@[simp] theorem clearOutputAccum_rom (s : State) : (clearOutputAccum s).rom = s.rom := rfl
@[simp] theorem clearOutputAccum_src (s : State) : (clearOutputAccum s).src = s.src := rfl
@[simp] theorem clearOutputAccum_srcValid (s : State) : (clearOutputAccum s).srcValid = s.srcValid := rfl
@[simp] theorem clearOutputAccum_inputs (s : State) : (clearOutputAccum s).inputs = s.inputs := rfl
@[simp] theorem clearOutputAccum_response (s : State) : (clearOutputAccum s).response = s.response := rfl
@[simp] theorem clearOutputAccum_accesses (s : State) : (clearOutputAccum s).accesses = s.accesses := rfl
@[simp] theorem clearOutputAccum_draws (s : State) : (clearOutputAccum s).draws = s.draws := rfl

/-! ### `respond` -/

@[simp] theorem respond_ratio (c : Nat) (s : State) : (respond c s).ratio = s.ratio := rfl
@[simp] theorem respond_downscale (c : Nat) (s : State) : (respond c s).downscale = s.downscale := rfl
@[simp] theorem respond_deltaUp (c : Nat) (s : State) : (respond c s).deltaUp = s.deltaUp := rfl
@[simp] theorem respond_deltaDown (c : Nat) (s : State) : (respond c s).deltaDown = s.deltaDown := rfl
@[simp] theorem respond_phase (c : Nat) (s : State) : (respond c s).phase = s.phase := rfl
@[simp] theorem respond_mode (c : Nat) (s : State) : (respond c s).mode = s.mode := rfl
@[simp] theorem respond_inputRing (c : Nat) (s : State) : (respond c s).inputRing = s.inputRing := rfl
@[simp] theorem respond_outputAccum (c : Nat) (s : State) : (respond c s).outputAccum = s.outputAccum := rfl
@[simp] theorem respond_dst (c : Nat) (s : State) : (respond c s).dst = s.dst := rfl
@[simp] theorem respond_tmp (c : Nat) (s : State) : (respond c s).tmp = s.tmp := rfl
@[simp] theorem respond_envelope (c : Nat) (s : State) : (respond c s).envelope = s.envelope := rfl
@[simp] theorem respond_cursorW (c : Nat) (s : State) : (respond c s).cursorW = s.cursorW := rfl
@[simp] theorem respond_rom (c : Nat) (s : State) : (respond c s).rom = s.rom := rfl
@[simp] theorem respond_src (c : Nat) (s : State) : (respond c s).src = s.src := rfl
@[simp] theorem respond_srcValid (c : Nat) (s : State) : (respond c s).srcValid = s.srcValid := rfl
@[simp] theorem respond_inputs (c : Nat) (s : State) : (respond c s).inputs = s.inputs := rfl
@[simp] theorem respond_response (c : Nat) (s : State) : (respond c s).response = some (wrapCursor s.cursorW c) := rfl
@[simp] theorem respond_accesses (c : Nat) (s : State) : (respond c s).accesses = s.accesses := rfl
@[simp] theorem respond_draws (c : Nat) (s : State) : (respond c s).draws = s.draws := rfl

/-! ### `acceptCommand` -/

@[simp] theorem acceptCommand_ratio (rest : List Input) (s : State) : (acceptCommand rest s).ratio = s.ratio := rfl
@[simp] theorem acceptCommand_downscale (rest : List Input) (s : State) : (acceptCommand rest s).downscale = s.downscale := rfl
@[simp] theorem acceptCommand_deltaUp (rest : List Input) (s : State) : (acceptCommand rest s).deltaUp = s.deltaUp := rfl
@[simp] theorem acceptCommand_deltaDown (rest : List Input) (s : State) : (acceptCommand rest s).deltaDown = s.deltaDown := rfl
@[simp] theorem acceptCommand_phase (rest : List Input) (s : State) : (acceptCommand rest s).phase = s.phase := rfl
@[simp] theorem acceptCommand_mode (rest : List Input) (s : State) : (acceptCommand rest s).mode = s.mode := rfl
@[simp] theorem acceptCommand_inputRing (rest : List Input) (s : State) : (acceptCommand rest s).inputRing = s.inputRing := rfl
@[simp] theorem acceptCommand_outputAccum (rest : List Input) (s : State) : (acceptCommand rest s).outputAccum = s.outputAccum := rfl
@[simp] theorem acceptCommand_dst (rest : List Input) (s : State) : (acceptCommand rest s).dst = s.dst := rfl
@[simp] theorem acceptCommand_tmp (rest : List Input) (s : State) : (acceptCommand rest s).tmp = s.tmp := rfl
@[simp] theorem acceptCommand_envelope (rest : List Input) (s : State) : (acceptCommand rest s).envelope = s.envelope := rfl
@[simp] theorem acceptCommand_cursorW (rest : List Input) (s : State) : (acceptCommand rest s).cursorW = s.cursorW := rfl
@[simp] theorem acceptCommand_rom (rest : List Input) (s : State) : (acceptCommand rest s).rom = s.rom := rfl
@[simp] theorem acceptCommand_src (rest : List Input) (s : State) : (acceptCommand rest s).src = s.src := rfl
@[simp] theorem acceptCommand_srcValid (rest : List Input) (s : State) : (acceptCommand rest s).srcValid = s.srcValid := rfl
@[simp] theorem acceptCommand_inputs (rest : List Input) (s : State) : (acceptCommand rest s).inputs = rest := rfl
@[simp] theorem acceptCommand_response (rest : List Input) (s : State) : (acceptCommand rest s).response = none := rfl
@[simp] theorem acceptCommand_accesses (rest : List Input) (s : State) : (acceptCommand rest s).accesses = [] := rfl
@[simp] theorem acceptCommand_draws (rest : List Input) (s : State) : (acceptCommand rest s).draws = s.draws := rfl

/-! ### `hostWriteSource` -/

@[simp] theorem hostWriteSource_ratio (c : Nat) (v : Sample) (rest : List Input) (s : State) : (hostWriteSource c v rest s).ratio = s.ratio := rfl
@[simp] theorem hostWriteSource_downscale (c : Nat) (v : Sample) (rest : List Input) (s : State) : (hostWriteSource c v rest s).downscale = s.downscale := rfl
@[simp] theorem hostWriteSource_deltaUp (c : Nat) (v : Sample) (rest : List Input) (s : State) : (hostWriteSource c v rest s).deltaUp = s.deltaUp := rfl
@[simp] theorem hostWriteSource_deltaDown (c : Nat) (v : Sample) (rest : List Input) (s : State) : (hostWriteSource c v rest s).deltaDown = s.deltaDown := rfl
@[simp] theorem hostWriteSource_phase (c : Nat) (v : Sample) (rest : List Input) (s : State) : (hostWriteSource c v rest s).phase = s.phase := rfl
@[simp] theorem hostWriteSource_mode (c : Nat) (v : Sample) (rest : List Input) (s : State) : (hostWriteSource c v rest s).mode = s.mode := rfl
@[simp] theorem hostWriteSource_inputRing (c : Nat) (v : Sample) (rest : List Input) (s : State) : (hostWriteSource c v rest s).inputRing = s.inputRing := rfl
@[simp] theorem hostWriteSource_outputAccum (c : Nat) (v : Sample) (rest : List Input) (s : State) : (hostWriteSource c v rest s).outputAccum = s.outputAccum := rfl
@[simp] theorem hostWriteSource_dst (c : Nat) (v : Sample) (rest : List Input) (s : State) : (hostWriteSource c v rest s).dst = s.dst := rfl
@[simp] theorem hostWriteSource_tmp (c : Nat) (v : Sample) (rest : List Input) (s : State) : (hostWriteSource c v rest s).tmp = s.tmp := rfl
@[simp] theorem hostWriteSource_envelope (c : Nat) (v : Sample) (rest : List Input) (s : State) : (hostWriteSource c v rest s).envelope = s.envelope := rfl
@[simp] theorem hostWriteSource_cursorW (c : Nat) (v : Sample) (rest : List Input) (s : State) : (hostWriteSource c v rest s).cursorW = s.cursorW := rfl
@[simp] theorem hostWriteSource_rom (c : Nat) (v : Sample) (rest : List Input) (s : State) : (hostWriteSource c v rest s).rom = s.rom := rfl
@[simp] theorem hostWriteSource_src (c : Nat) (v : Sample) (rest : List Input) (s : State) : (hostWriteSource c v rest s).src = s.src.write (wrapCursor s.cursorW c) v := rfl
@[simp] theorem hostWriteSource_srcValid (c : Nat) (v : Sample) (rest : List Input) (s : State) : (hostWriteSource c v rest s).srcValid = s.srcValid := rfl
@[simp] theorem hostWriteSource_inputs (c : Nat) (v : Sample) (rest : List Input) (s : State) : (hostWriteSource c v rest s).inputs = rest := rfl
@[simp] theorem hostWriteSource_response (c : Nat) (v : Sample) (rest : List Input) (s : State) : (hostWriteSource c v rest s).response = s.response := rfl
@[simp] theorem hostWriteSource_accesses (c : Nat) (v : Sample) (rest : List Input) (s : State) : (hostWriteSource c v rest s).accesses = s.accesses := rfl
@[simp] theorem hostWriteSource_draws (c : Nat) (v : Sample) (rest : List Input) (s : State) : (hostWriteSource c v rest s).draws = s.draws := rfl

/-! ### `hostSetValid` -/

@[simp] theorem hostSetValid_ratio (ws : List Window) (rest : List Input) (s : State) : (hostSetValid ws rest s).ratio = s.ratio := rfl
@[simp] theorem hostSetValid_downscale (ws : List Window) (rest : List Input) (s : State) : (hostSetValid ws rest s).downscale = s.downscale := rfl
@[simp] theorem hostSetValid_deltaUp (ws : List Window) (rest : List Input) (s : State) : (hostSetValid ws rest s).deltaUp = s.deltaUp := rfl
@[simp] theorem hostSetValid_deltaDown (ws : List Window) (rest : List Input) (s : State) : (hostSetValid ws rest s).deltaDown = s.deltaDown := rfl
@[simp] theorem hostSetValid_phase (ws : List Window) (rest : List Input) (s : State) : (hostSetValid ws rest s).phase = s.phase := rfl
@[simp] theorem hostSetValid_mode (ws : List Window) (rest : List Input) (s : State) : (hostSetValid ws rest s).mode = s.mode := rfl
@[simp] theorem hostSetValid_inputRing (ws : List Window) (rest : List Input) (s : State) : (hostSetValid ws rest s).inputRing = s.inputRing := rfl
@[simp] theorem hostSetValid_outputAccum (ws : List Window) (rest : List Input) (s : State) : (hostSetValid ws rest s).outputAccum = s.outputAccum := rfl
@[simp] theorem hostSetValid_dst (ws : List Window) (rest : List Input) (s : State) : (hostSetValid ws rest s).dst = s.dst := rfl
@[simp] theorem hostSetValid_tmp (ws : List Window) (rest : List Input) (s : State) : (hostSetValid ws rest s).tmp = s.tmp := rfl
@[simp] theorem hostSetValid_envelope (ws : List Window) (rest : List Input) (s : State) : (hostSetValid ws rest s).envelope = s.envelope := rfl
@[simp] theorem hostSetValid_cursorW (ws : List Window) (rest : List Input) (s : State) : (hostSetValid ws rest s).cursorW = s.cursorW := rfl
@[simp] theorem hostSetValid_rom (ws : List Window) (rest : List Input) (s : State) : (hostSetValid ws rest s).rom = s.rom := rfl
@[simp] theorem hostSetValid_src (ws : List Window) (rest : List Input) (s : State) : (hostSetValid ws rest s).src = s.src := rfl
@[simp] theorem hostSetValid_srcValid (ws : List Window) (rest : List Input) (s : State) : (hostSetValid ws rest s).srcValid = ws := rfl
@[simp] theorem hostSetValid_inputs (ws : List Window) (rest : List Input) (s : State) : (hostSetValid ws rest s).inputs = rest := rfl
@[simp] theorem hostSetValid_response (ws : List Window) (rest : List Input) (s : State) : (hostSetValid ws rest s).response = s.response := rfl
@[simp] theorem hostSetValid_accesses (ws : List Window) (rest : List Input) (s : State) : (hostSetValid ws rest s).accesses = s.accesses := rfl
@[simp] theorem hostSetValid_draws (ws : List Window) (rest : List Input) (s : State) : (hostSetValid ws rest s).draws = s.draws := rfl

/-! ### `blend` -/

@[simp] theorem blend_ratio (s : State) : (blend s).ratio = s.ratio := by simp only [blend]
@[simp] theorem blend_downscale (s : State) : (blend s).downscale = s.downscale := by simp only [blend]
@[simp] theorem blend_deltaUp (s : State) : (blend s).deltaUp = s.deltaUp := by simp only [blend]
@[simp] theorem blend_deltaDown (s : State) : (blend s).deltaDown = s.deltaDown := by simp only [blend]
@[simp] theorem blend_phase (s : State) : (blend s).phase = s.phase := by simp only [blend]
@[simp] theorem blend_mode (s : State) : (blend s).mode = s.mode := by simp only [blend]
@[simp] theorem blend_inputRing (s : State) : (blend s).inputRing = s.inputRing := by simp only [blend]
@[simp] theorem blend_outputAccum (s : State) : (blend s).outputAccum = s.outputAccum := by simp only [blend]
@[simp] theorem blend_dst (s : State) : (blend s).dst = blendBlock s.draws s.dst s.tmp := by simp only [blend]
@[simp] theorem blend_tmp (s : State) : (blend s).tmp = s.tmp := by simp only [blend]
@[simp] theorem blend_envelope (s : State) : (blend s).envelope = s.envelope := by simp only [blend]
@[simp] theorem blend_cursorW (s : State) : (blend s).cursorW = s.cursorW := by simp only [blend]
@[simp] theorem blend_rom (s : State) : (blend s).rom = s.rom := by simp only [blend]
@[simp] theorem blend_src (s : State) : (blend s).src = s.src := by simp only [blend]
@[simp] theorem blend_srcValid (s : State) : (blend s).srcValid = s.srcValid := by simp only [blend]
@[simp] theorem blend_inputs (s : State) : (blend s).inputs = s.inputs := by simp only [blend]
@[simp] theorem blend_response (s : State) : (blend s).response = s.response := by simp only [blend]
@[simp] theorem blend_accesses (s : State) : (blend s).accesses = s.accesses ++ blendAccesses s.draws s.dst s.tmp := by simp only [blend]
@[simp] theorem blend_draws (s : State) : (blend s).draws = s.draws + 24 := by simp only [blend]

/-! ### `setBlock_dst` -/

@[simp] theorem setBlock_dst_ratio (v : Block) (s : State) : (setBlock .dst v s).ratio = s.ratio := rfl
@[simp] theorem setBlock_dst_downscale (v : Block) (s : State) : (setBlock .dst v s).downscale = s.downscale := rfl
@[simp] theorem setBlock_dst_deltaUp (v : Block) (s : State) : (setBlock .dst v s).deltaUp = s.deltaUp := rfl
@[simp] theorem setBlock_dst_deltaDown (v : Block) (s : State) : (setBlock .dst v s).deltaDown = s.deltaDown := rfl
@[simp] theorem setBlock_dst_phase (v : Block) (s : State) : (setBlock .dst v s).phase = s.phase := rfl
@[simp] theorem setBlock_dst_mode (v : Block) (s : State) : (setBlock .dst v s).mode = s.mode := rfl
@[simp] theorem setBlock_dst_inputRing (v : Block) (s : State) : (setBlock .dst v s).inputRing = s.inputRing := rfl
@[simp] theorem setBlock_dst_outputAccum (v : Block) (s : State) : (setBlock .dst v s).outputAccum = s.outputAccum := rfl
@[simp] theorem setBlock_dst_dst (v : Block) (s : State) : (setBlock .dst v s).dst = v := rfl
@[simp] theorem setBlock_dst_tmp (v : Block) (s : State) : (setBlock .dst v s).tmp = s.tmp := rfl
@[simp] theorem setBlock_dst_envelope (v : Block) (s : State) : (setBlock .dst v s).envelope = s.envelope := rfl
@[simp] theorem setBlock_dst_cursorW (v : Block) (s : State) : (setBlock .dst v s).cursorW = s.cursorW := rfl
@[simp] theorem setBlock_dst_rom (v : Block) (s : State) : (setBlock .dst v s).rom = s.rom := rfl
@[simp] theorem setBlock_dst_src (v : Block) (s : State) : (setBlock .dst v s).src = s.src := rfl
@[simp] theorem setBlock_dst_srcValid (v : Block) (s : State) : (setBlock .dst v s).srcValid = s.srcValid := rfl
@[simp] theorem setBlock_dst_inputs (v : Block) (s : State) : (setBlock .dst v s).inputs = s.inputs := rfl
@[simp] theorem setBlock_dst_response (v : Block) (s : State) : (setBlock .dst v s).response = s.response := rfl
@[simp] theorem setBlock_dst_accesses (v : Block) (s : State) : (setBlock .dst v s).accesses = s.accesses := rfl
@[simp] theorem setBlock_dst_draws (v : Block) (s : State) : (setBlock .dst v s).draws = s.draws := rfl

/-! ### `setBlock_tmp` -/

@[simp] theorem setBlock_tmp_ratio (v : Block) (s : State) : (setBlock .tmp v s).ratio = s.ratio := rfl
@[simp] theorem setBlock_tmp_downscale (v : Block) (s : State) : (setBlock .tmp v s).downscale = s.downscale := rfl
@[simp] theorem setBlock_tmp_deltaUp (v : Block) (s : State) : (setBlock .tmp v s).deltaUp = s.deltaUp := rfl
@[simp] theorem setBlock_tmp_deltaDown (v : Block) (s : State) : (setBlock .tmp v s).deltaDown = s.deltaDown := rfl
@[simp] theorem setBlock_tmp_phase (v : Block) (s : State) : (setBlock .tmp v s).phase = s.phase := rfl
@[simp] theorem setBlock_tmp_mode (v : Block) (s : State) : (setBlock .tmp v s).mode = s.mode := rfl
@[simp] theorem setBlock_tmp_inputRing (v : Block) (s : State) : (setBlock .tmp v s).inputRing = s.inputRing := rfl
@[simp] theorem setBlock_tmp_outputAccum (v : Block) (s : State) : (setBlock .tmp v s).outputAccum = s.outputAccum := rfl
@[simp] theorem setBlock_tmp_dst (v : Block) (s : State) : (setBlock .tmp v s).dst = s.dst := rfl
@[simp] theorem setBlock_tmp_tmp (v : Block) (s : State) : (setBlock .tmp v s).tmp = v := rfl
@[simp] theorem setBlock_tmp_envelope (v : Block) (s : State) : (setBlock .tmp v s).envelope = s.envelope := rfl
@[simp] theorem setBlock_tmp_cursorW (v : Block) (s : State) : (setBlock .tmp v s).cursorW = s.cursorW := rfl
@[simp] theorem setBlock_tmp_rom (v : Block) (s : State) : (setBlock .tmp v s).rom = s.rom := rfl
@[simp] theorem setBlock_tmp_src (v : Block) (s : State) : (setBlock .tmp v s).src = s.src := rfl
@[simp] theorem setBlock_tmp_srcValid (v : Block) (s : State) : (setBlock .tmp v s).srcValid = s.srcValid := rfl
@[simp] theorem setBlock_tmp_inputs (v : Block) (s : State) : (setBlock .tmp v s).inputs = s.inputs := rfl
@[simp] theorem setBlock_tmp_response (v : Block) (s : State) : (setBlock .tmp v s).response = s.response := rfl
@[simp] theorem setBlock_tmp_accesses (v : Block) (s : State) : (setBlock .tmp v s).accesses = s.accesses := rfl
@[simp] theorem setBlock_tmp_draws (v : Block) (s : State) : (setBlock .tmp v s).draws = s.draws := rfl

/-! ### `upFinish_dst` -/

@[simp] theorem upFinish_dst_ratio (p : UpPass) (s : State) : (upFinish .dst p s).ratio = s.ratio := rfl
@[simp] theorem upFinish_dst_downscale (p : UpPass) (s : State) : (upFinish .dst p s).downscale = s.downscale := rfl
@[simp] theorem upFinish_dst_deltaUp (p : UpPass) (s : State) : (upFinish .dst p s).deltaUp = s.deltaUp := rfl
@[simp] theorem upFinish_dst_deltaDown (p : UpPass) (s : State) : (upFinish .dst p s).deltaDown = s.deltaDown := rfl
@[simp] theorem upFinish_dst_phase (p : UpPass) (s : State) : (upFinish .dst p s).phase = p.phase := rfl
@[simp] theorem upFinish_dst_mode (p : UpPass) (s : State) : (upFinish .dst p s).mode = s.mode := rfl
@[simp] theorem upFinish_dst_inputRing (p : UpPass) (s : State) : (upFinish .dst p s).inputRing = p.ring := rfl
@[simp] theorem upFinish_dst_outputAccum (p : UpPass) (s : State) : (upFinish .dst p s).outputAccum = s.outputAccum := rfl
@[simp] theorem upFinish_dst_dst (p : UpPass) (s : State) : (upFinish .dst p s).dst = p.out := rfl
@[simp] theorem upFinish_dst_tmp (p : UpPass) (s : State) : (upFinish .dst p s).tmp = s.tmp := rfl
@[simp] theorem upFinish_dst_envelope (p : UpPass) (s : State) : (upFinish .dst p s).envelope = s.envelope := rfl
@[simp] theorem upFinish_dst_cursorW (p : UpPass) (s : State) : (upFinish .dst p s).cursorW = s.cursorW := rfl
@[simp] theorem upFinish_dst_rom (p : UpPass) (s : State) : (upFinish .dst p s).rom = s.rom := rfl
@[simp] theorem upFinish_dst_src (p : UpPass) (s : State) : (upFinish .dst p s).src = s.src := rfl
@[simp] theorem upFinish_dst_srcValid (p : UpPass) (s : State) : (upFinish .dst p s).srcValid = s.srcValid := rfl
@[simp] theorem upFinish_dst_inputs (p : UpPass) (s : State) : (upFinish .dst p s).inputs = s.inputs := rfl
@[simp] theorem upFinish_dst_response (p : UpPass) (s : State) : (upFinish .dst p s).response = s.response := rfl
@[simp] theorem upFinish_dst_accesses (p : UpPass) (s : State) : (upFinish .dst p s).accesses = p.accesses := rfl
@[simp] theorem upFinish_dst_draws (p : UpPass) (s : State) : (upFinish .dst p s).draws = p.draws := rfl

/-! ### `downFinish_dst` -/

@[simp] theorem downFinish_dst_ratio (p : DownPass) (s : State) : (downFinish .dst p s).ratio = s.ratio := rfl
@[simp] theorem downFinish_dst_downscale (p : DownPass) (s : State) : (downFinish .dst p s).downscale = s.downscale := rfl
@[simp] theorem downFinish_dst_deltaUp (p : DownPass) (s : State) : (downFinish .dst p s).deltaUp = s.deltaUp := rfl
@[simp] theorem downFinish_dst_deltaDown (p : DownPass) (s : State) : (downFinish .dst p s).deltaDown = s.deltaDown := rfl
@[simp] theorem downFinish_dst_phase (p : DownPass) (s : State) : (downFinish .dst p s).phase = p.phase := rfl
@[simp] theorem downFinish_dst_mode (p : DownPass) (s : State) : (downFinish .dst p s).mode = s.mode := rfl
@[simp] theorem downFinish_dst_inputRing (p : DownPass) (s : State) : (downFinish .dst p s).inputRing = s.inputRing := rfl
@[simp] theorem downFinish_dst_outputAccum (p : DownPass) (s : State) : (downFinish .dst p s).outputAccum = p.accum := rfl
@[simp] theorem downFinish_dst_dst (p : DownPass) (s : State) : (downFinish .dst p s).dst = p.out := rfl
@[simp] theorem downFinish_dst_tmp (p : DownPass) (s : State) : (downFinish .dst p s).tmp = s.tmp := rfl
@[simp] theorem downFinish_dst_envelope (p : DownPass) (s : State) : (downFinish .dst p s).envelope = s.envelope := rfl
@[simp] theorem downFinish_dst_cursorW (p : DownPass) (s : State) : (downFinish .dst p s).cursorW = s.cursorW := rfl
@[simp] theorem downFinish_dst_rom (p : DownPass) (s : State) : (downFinish .dst p s).rom = s.rom := rfl
@[simp] theorem downFinish_dst_src (p : DownPass) (s : State) : (downFinish .dst p s).src = s.src := rfl
@[simp] theorem downFinish_dst_srcValid (p : DownPass) (s : State) : (downFinish .dst p s).srcValid = s.srcValid := rfl
@[simp] theorem downFinish_dst_inputs (p : DownPass) (s : State) : (downFinish .dst p s).inputs = s.inputs := rfl
@[simp] theorem downFinish_dst_response (p : DownPass) (s : State) : (downFinish .dst p s).response = s.response := rfl
@[simp] theorem downFinish_dst_accesses (p : DownPass) (s : State) : (downFinish .dst p s).accesses = p.accesses := rfl
@[simp] theorem downFinish_dst_draws (p : DownPass) (s : State) : (downFinish .dst p s).draws = p.draws := rfl

/-! ### `upFinish_tmp` -/

@[simp] theorem upFinish_tmp_ratio (p : UpPass) (s : State) : (upFinish .tmp p s).ratio = s.ratio := rfl
@[simp] theorem upFinish_tmp_downscale (p : UpPass) (s : State) : (upFinish .tmp p s).downscale = s.downscale := rfl
@[simp] theorem upFinish_tmp_deltaUp (p : UpPass) (s : State) : (upFinish .tmp p s).deltaUp = s.deltaUp := rfl
@[simp] theorem upFinish_tmp_deltaDown (p : UpPass) (s : State) : (upFinish .tmp p s).deltaDown = s.deltaDown := rfl
@[simp] theorem upFinish_tmp_phase (p : UpPass) (s : State) : (upFinish .tmp p s).phase = p.phase := rfl
@[simp] theorem upFinish_tmp_mode (p : UpPass) (s : State) : (upFinish .tmp p s).mode = s.mode := rfl
@[simp] theorem upFinish_tmp_inputRing (p : UpPass) (s : State) : (upFinish .tmp p s).inputRing = p.ring := rfl
@[simp] theorem upFinish_tmp_outputAccum (p : UpPass) (s : State) : (upFinish .tmp p s).outputAccum = s.outputAccum := rfl
@[simp] theorem upFinish_tmp_dst (p : UpPass) (s : State) : (upFinish .tmp p s).dst = s.dst := rfl
@[simp] theorem upFinish_tmp_tmp (p : UpPass) (s : State) : (upFinish .tmp p s).tmp = p.out := rfl
@[simp] theorem upFinish_tmp_envelope (p : UpPass) (s : State) : (upFinish .tmp p s).envelope = s.envelope := rfl
@[simp] theorem upFinish_tmp_cursorW (p : UpPass) (s : State) : (upFinish .tmp p s).cursorW = s.cursorW := rfl
@[simp] theorem upFinish_tmp_rom (p : UpPass) (s : State) : (upFinish .tmp p s).rom = s.rom := rfl
@[simp] theorem upFinish_tmp_src (p : UpPass) (s : State) : (upFinish .tmp p s).src = s.src := rfl
@[simp] theorem upFinish_tmp_srcValid (p : UpPass) (s : State) : (upFinish .tmp p s).srcValid = s.srcValid := rfl
@[simp] theorem upFinish_tmp_inputs (p : UpPass) (s : State) : (upFinish .tmp p s).inputs = s.inputs := rfl
@[simp] theorem upFinish_tmp_response (p : UpPass) (s : State) : (upFinish .tmp p s).response = s.response := rfl
@[simp] theorem upFinish_tmp_accesses (p : UpPass) (s : State) : (upFinish .tmp p s).accesses = p.accesses := rfl
@[simp] theorem upFinish_tmp_draws (p : UpPass) (s : State) : (upFinish .tmp p s).draws = p.draws := rfl

/-! ### `downFinish_tmp` -/

@[simp] theorem downFinish_tmp_ratio (p : DownPass) (s : State) : (downFinish .tmp p s).ratio = s.ratio := rfl
@[simp] theorem downFinish_tmp_downscale (p : DownPass) (s : State) : (downFinish .tmp p s).downscale = s.downscale := rfl
@[simp] theorem downFinish_tmp_deltaUp (p : DownPass) (s : State) : (downFinish .tmp p s).deltaUp = s.deltaUp := rfl
@[simp] theorem downFinish_tmp_deltaDown (p : DownPass) (s : State) : (downFinish .tmp p s).deltaDown = s.deltaDown := rfl
@[simp] theorem downFinish_tmp_phase (p : DownPass) (s : State) : (downFinish .tmp p s).phase = p.phase := rfl
@[simp] theorem downFinish_tmp_mode (p : DownPass) (s : State) : (downFinish .tmp p s).mode = s.mode := rfl
@[simp] theorem downFinish_tmp_inputRing (p : DownPass) (s : State) : (downFinish .tmp p s).inputRing = s.inputRing := rfl
@[simp] theorem downFinish_tmp_outputAccum (p : DownPass) (s : State) : (downFinish .tmp p s).outputAccum = p.accum := rfl
@[simp] theorem downFinish_tmp_dst (p : DownPass) (s : State) : (downFinish .tmp p s).dst = s.dst := rfl
@[simp] theorem downFinish_tmp_tmp (p : DownPass) (s : State) : (downFinish .tmp p s).tmp = p.out := rfl
@[simp] theorem downFinish_tmp_envelope (p : DownPass) (s : State) : (downFinish .tmp p s).envelope = s.envelope := rfl
@[simp] theorem downFinish_tmp_cursorW (p : DownPass) (s : State) : (downFinish .tmp p s).cursorW = s.cursorW := rfl
@[simp] theorem downFinish_tmp_rom (p : DownPass) (s : State) : (downFinish .tmp p s).rom = s.rom := rfl
@[simp] theorem downFinish_tmp_src (p : DownPass) (s : State) : (downFinish .tmp p s).src = s.src := rfl
@[simp] theorem downFinish_tmp_srcValid (p : DownPass) (s : State) : (downFinish .tmp p s).srcValid = s.srcValid := rfl
@[simp] theorem downFinish_tmp_inputs (p : DownPass) (s : State) : (downFinish .tmp p s).inputs = s.inputs := rfl
@[simp] theorem downFinish_tmp_response (p : DownPass) (s : State) : (downFinish .tmp p s).response = s.response := rfl
@[simp] theorem downFinish_tmp_accesses (p : DownPass) (s : State) : (downFinish .tmp p s).accesses = p.accesses := rfl
@[simp] theorem downFinish_tmp_draws (p : DownPass) (s : State) : (downFinish .tmp p s).draws = p.draws := rfl

@[simp] theorem blockOf_dst (s : State) : blockOf .dst s = s.dst := rfl
@[simp] theorem blockOf_tmp (s : State) : blockOf .tmp s = s.tmp := rfl

/-! ### The passes at their entry -/

@[simp] theorem upStart_phase (s : State) (c : Nat) (b : Buffer) : (upStart s c b).phase = s.phase := rfl
@[simp] theorem upStart_ring (s : State) (c : Nat) (b : Buffer) : (upStart s c b).ring = s.inputRing := rfl
@[simp] theorem upStart_cursor (s : State) (c : Nat) (b : Buffer) : (upStart s c b).cursor = c := rfl
@[simp] theorem upStart_out (s : State) (c : Nat) (b : Buffer) : (upStart s c b).out = blockOf b s := rfl
@[simp] theorem upStart_draws (s : State) (c : Nat) (b : Buffer) : (upStart s c b).draws = s.draws := rfl
@[simp] theorem upStart_accesses (s : State) (c : Nat) (b : Buffer) : (upStart s c b).accesses = s.accesses := rfl
@[simp] theorem downStart_phase (s : State) (c : Nat) (b : Buffer) : (downStart s c b).phase = s.phase := rfl
@[simp] theorem downStart_accum (s : State) (c : Nat) (b : Buffer) : (downStart s c b).accum = s.outputAccum := rfl
@[simp] theorem downStart_cursor (s : State) (c : Nat) (b : Buffer) : (downStart s c b).cursor = c := rfl
@[simp] theorem downStart_out (s : State) (c : Nat) (b : Buffer) : (downStart s c b).out = blockOf b s := rfl
@[simp] theorem downStart_emitted (s : State) (c : Nat) (b : Buffer) : (downStart s c b).emitted = 0 := rfl
@[simp] theorem downStart_draws (s : State) (c : Nat) (b : Buffer) : (downStart s c b).draws = s.draws := rfl
@[simp] theorem downStart_accesses (s : State) (c : Nat) (b : Buffer) : (downStart s c b).accesses = s.accesses := rfl

end Sys2Proof.Machine
end

