-- ==== Sys2Proof/Laws/Slots.lean ====
section
/-! SUPPORT. Register files, source reads and cursors: one lemma for what each shared operation does. -/

namespace Sys2Proof.Machine

/-! ### Slots -/

theorem slotGet_slotSet (v : Slots) (i j : RingIx) (x : Sample) :
    slotGet (slotSet v i x) j = if j = i then x else slotGet v j := by
  unfold slotGet slotSet
  rw [Vector.getElem_set]
  by_cases h : j = i
  · simp [h]
  · have : i.toNat ≠ j.toNat := fun e => h (BitVec.eq_of_toNat_eq e.symm)
    simp [h, this]

@[simp] theorem slotGet_slotSet_same (v : Slots) (i : RingIx) (x : Sample) : slotGet (slotSet v i x) i = x := by
  simp [slotGet_slotSet]

theorem slotGet_slotSet_other (v : Slots) {i j : RingIx} (x : Sample) (h : j ≠ i) :
    slotGet (slotSet v i x) j = slotGet v j := by
  simp [slotGet_slotSet, h]

@[simp] theorem slotGet_zeroSlots (i : RingIx) : slotGet zeroSlots i = zeroSample := by
  simp [slotGet, zeroSlots]

/-- Two register files with the same slots are the same. -/
theorem slots_ext {v w : Slots} (h : ∀ i : RingIx, slotGet v i = slotGet w i) : v = w := by
  apply Vector.ext
  intro i hi
  have := h (BitVec.ofNat 3 i)
  simpa [slotGet, Nat.mod_eq_of_lt hi] using this

/-- Every ring index is `r +8 k` for exactly one `k < 8`. -/
theorem ring_exists_offset (r i : RingIx) : ∃ k < 8, i = r + BitVec.ofNat 3 k :=
  ⟨(i - r).toNat, (i - r).isLt, by
    apply BitVec.eq_of_toNat_eq
    have := i.isLt; have := r.isLt
    simp only [BitVec.toNat_add, BitVec.toNat_ofNat, BitVec.toNat_sub]
    omega⟩

theorem ring_add_ofNat_inj (r : RingIx) {j k : Nat} (hj : j < 8) (hk : k < 8) :
    r + BitVec.ofNat 3 j = r + BitVec.ofNat 3 k ↔ j = k := by
  constructor
  · intro h
    have h' : BitVec.ofNat 3 j = BitVec.ofNat 3 k := by simpa using h
    have := congrArg BitVec.toNat h'
    simpa [Nat.mod_eq_of_lt hj, Nat.mod_eq_of_lt hk] using this
  · rintro rfl; rfl

/-! ### Cursors -/

/-- A cursor in range is itself (rule R59). -/
theorem wrapCursor_of_lt {w : Nat} {c : Nat} (h : c < 2 ^ w) : wrapCursor w c = c := Nat.mod_eq_of_lt h

theorem wrapCursor_lt (w c : Nat) : wrapCursor w c < 2 ^ w := Nat.mod_lt _ (Nat.two_pow_pos w)

@[simp] theorem wrapCursor_wrapCursor (w c : Nat) : wrapCursor w (wrapCursor w c) = wrapCursor w c :=
  Nat.mod_mod _ _

/-- Counting on from a reduced cursor is counting on from the cursor (rule R59). -/
@[simp] theorem wrapCursor_add (w c j : Nat) :
    wrapCursor w (wrapCursor w c + j) = wrapCursor w (c + j) := Nat.mod_add_mod _ _ _

/-! ### Source reads -/

theorem readSource_eq_ok {s : State} {c : Nat} {x : Sample} :
    readSource s c = .ok x ↔
      cursorValid s.cursorW s.srcValid (wrapCursor s.cursorW c) = true ∧ x = s.src.read (wrapCursor s.cursorW c) := by
  unfold readSource
  split
  · next h => simp only [Except.ok.injEq, h, true_and]; exact eq_comm
  · next h => simp [h]

theorem readSource_eq_error {s : State} {c : Nat} {f : Fault} :
    readSource s c = .error f ↔
      cursorValid s.cursorW s.srcValid (wrapCursor s.cursorW c) = false ∧ f = .sourceReadOutsideValid := by
  unfold readSource
  split
  · next h => simp [h]
  · next h => simp only [Except.error.injEq, Bool.not_eq_true _ ▸ h, true_and]; exact eq_comm

/-! ### Stuck passes -/

theorem bind_eq_ok {ε α β : Type} {x : Except ε α} {f : α → Except ε β} {b : β} :
    (x >>= f) = .ok b ↔ ∃ a, x = .ok a ∧ f a = .ok b := by
  cases x <;> simp [bind, Except.bind]

theorem bind_eq_error {ε α β : Type} {x : Except ε α} {f : α → Except ε β} {e : ε} :
    (x >>= f) = .error e ↔ x = .error e ∨ ∃ a, x = .ok a ∧ f a = .error e := by
  cases x <;> simp [bind, Except.bind]

theorem answer_eq_next {r : Except Fault (Nat × State)} {t : State} :
    answer r = .next t ↔ ∃ c s, r = .ok (c, s) ∧ t = respond c s := by
  cases r with
  | error f => simp [answer]
  | ok p => obtain ⟨c, s⟩ := p; simp [answer, eq_comm]

theorem answer_eq_fault {r : Except Fault (Nat × State)} {f : Fault} : answer r = .fault f ↔ r = .error f := by
  cases r <;> simp [answer]

theorem answer_ne_refused (r : Except Fault (Nat × State)) (q : Refusal) : answer r ≠ .refused q := by
  cases r <;> simp [answer]

end Sys2Proof.Machine
end

