-- ==== Sys2Proof/Laws/Up.lean ====
section
/-! SUPPORT. What `UP16` can do, said once for each of its operations. -/

namespace Sys2Proof.Machine

/-! ### Counting cursors and additions -/

@[simp] theorem cursorsFrom_zero (w c : Nat) : cursorsFrom w c 0 = [] := rfl

theorem cursorsFrom_add (w c m n : Nat) :
    cursorsFrom w c (m + n) = cursorsFrom w c m ++ cursorsFrom w (c + m) n := by
  unfold cursorsFrom
  rw [List.range_add, List.map_append, List.map_map]
  simp [Function.comp_def, Nat.add_assoc]

theorem cursorsFrom_succ_left (w c n : Nat) :
    cursorsFrom w c (n + 1) = wrapCursor w c :: cursorsFrom w (c + 1) n := by
  rw [Nat.add_comm, cursorsFrom_add]
  simp [cursorsFrom]

/-- The cursors from a reduced cursor on are those from the cursor on (rule R59). -/
@[simp] theorem cursorsFrom_wrapCursor (w c n : Nat) :
    cursorsFrom w (wrapCursor w c) n = cursorsFrom w c n := by
  simp [cursorsFrom]

@[simp] theorem phaseAfter_zero (p d : U32) : phaseAfter p d 0 = p := by
  unfold phaseAfter; simp

theorem phaseAfter_succ (p d : U32) (n : Nat) : phaseAfter p d (n + 1) = phaseAfter p d n + d := by
  unfold phaseAfter
  rw [BitVec.ofNat_add]
  rw [BitVec.add_mul, BitVec.add_assoc]
  simp

/-! ### Reading an access record -/

@[simp] theorem sourceCursors_append (l m : List Access) : sourceCursors (l ++ m) = sourceCursors l ++ sourceCursors m := by
  simp [sourceCursors]
@[simp] theorem romAddresses_append (l m : List Access) : romAddresses (l ++ m) = romAddresses l ++ romAddresses m := by
  simp [romAddresses]
@[simp] theorem bufferWrites_append (b : Buffer) (l m : List Access) :
    bufferWrites b (l ++ m) = bufferWrites b l ++ bufferWrites b m := by
  simp [bufferWrites]
@[simp] theorem sourceCursors_sourceReads (l : List Nat) : sourceCursors (l.map .sourceRead) = l := by
  simp [sourceCursors, List.filterMap_map]
@[simp] theorem romAddresses_sourceReads (l : List Nat) : romAddresses (l.map .sourceRead) = [] := by
  simp [romAddresses, List.filterMap_map]
@[simp] theorem bufferWrites_sourceReads (b : Buffer) (l : List Nat) : bufferWrites b (l.map .sourceRead) = [] := by
  simp [bufferWrites, List.filterMap_map]
@[simp] theorem sourceCursors_upRomReads (p : U32) : sourceCursors (upRomReads p) = [] := rfl
@[simp] theorem bufferWrites_upRomReads (b : Buffer) (p : U32) : bufferWrites b (upRomReads p) = [] := rfl
@[simp] theorem sourceCursors_write (b : Buffer) (n : Nat) (v : Sample) : sourceCursors [.write b n v] = [] := rfl
@[simp] theorem romAddresses_write (b : Buffer) (n : Nat) (v : Sample) : romAddresses [.write b n v] = [] := rfl

/-! ### The pull loop -/

/-- Everything a completed pull of `n` samples does. -/
theorem pull_spec (s : State) : ∀ (n : Nat) (r : RingIx) (p p' : UpPass), pull s n r p = .ok p' →
    (∀ j < n, cursorValid s.cursorW s.srcValid (wrapCursor s.cursorW (p.cursor + j)) = true) ∧
    p'.phase = p.phase ∧ p'.out = p.out ∧ p'.draws = p.draws ∧
    p'.cursor = p.cursor + n ∧
    p'.accesses = p.accesses ++ (cursorsFrom s.cursorW p.cursor n).map .sourceRead ∧
    (n ≤ 8 → ∀ i < 8, slotGet p'.ring (r + BitVec.ofNat 3 i) =
      if i < n then s.src.read (wrapCursor s.cursorW (p.cursor + i)) else slotGet p.ring (r + BitVec.ofNat 3 i)) := by
  intro n
  induction n with
  | zero => intro r p p' h; simp only [pull, Except.ok.injEq] at h; subst h; simp
  | succ n ih =>
    intro r p p' h
    rw [pull, bind_eq_ok] at h
    obtain ⟨x, hx, h⟩ := h
    obtain ⟨hv, rfl⟩ := readSource_eq_ok.1 hx
    obtain ⟨h1, h2, h3, h4, h5, h6, h7⟩ := ih _ _ _ h
    simp only at h1 h2 h3 h4 h5 h6 h7
    refine ⟨?_, h2, h3, h4, ?_, ?_, ?_⟩
    · intro j hj
      cases j with
      | zero => simpa using hv
      | succ j => have := h1 j (by omega); rwa [Nat.add_assoc, Nat.add_comm 1 j] at this
    · rw [h5, Nat.add_assoc, Nat.add_comm 1 n]
    · rw [h6, cursorsFrom_succ_left]; simp
    · intro hn i hi
      cases i with
      | zero =>
        have h8 := h7 (by omega) 7 (by omega)
        have e : r + 1#3 + BitVec.ofNat 3 7 = r := by
          rw [BitVec.add_assoc]
          have : (1#3 + BitVec.ofNat 3 7) = 0#3 := by decide
          rw [this, BitVec.add_zero]
        have hn7 : ¬ (7 < n) := by omega
        rw [e, if_neg hn7, slotGet_slotSet_same] at h8
        simp [h8]
      | succ i =>
        have h8 := h7 (by omega) i (by omega)
        have e : r + 1#3 + BitVec.ofNat 3 i = r + BitVec.ofNat 3 (i + 1) := by
          apply BitVec.eq_of_toNat_eq
          simp only [BitVec.toNat_add, BitVec.toNat_ofNat]
          omega
        rw [e] at h8
        rw [h8, Nat.add_assoc, Nat.add_comm 1 i]
        have hne : r + BitVec.ofNat 3 (i + 1) ≠ r := by
          intro hh
          have := (ring_add_ofNat_inj r (j := i + 1) (k := 0) hi (by omega)).1 (by simpa using hh)
          omega
        simp [slotGet_slotSet_other _ _ hne]

theorem pull_completes (s : State) : ∀ (n : Nat) (r : RingIx) (p : UpPass),
    (∀ j < n, cursorValid s.cursorW s.srcValid (wrapCursor s.cursorW (p.cursor + j)) = true) → ∃ p', pull s n r p = .ok p' := by
  intro n
  induction n with
  | zero => intro r p _; exact ⟨p, rfl⟩
  | succ n ih =>
    intro r p h
    have h0 : cursorValid s.cursorW s.srcValid (wrapCursor s.cursorW p.cursor) = true := by simpa using h 0 (by omega)
    rw [pull, readSource_eq_ok.2 ⟨h0, rfl⟩]
    apply ih
    intro j hj
    have := h (j + 1) (by omega)
    rwa [Nat.add_comm j 1, ← Nat.add_assoc] at this

theorem pull_error (s : State) : ∀ (n : Nat) (r : RingIx) (p : UpPass) (f : Fault), pull s n r p = .error f →
    f = .sourceReadOutsideValid := by
  intro n
  induction n with
  | zero => intro r p f h; simp [pull] at h
  | succ n ih =>
    intro r p f h
    rw [pull, bind_eq_error] at h
    rcases h with h | ⟨x, _, h⟩
    · exact (readSource_eq_error.1 h).2
    · exact ih _ _ _ h

/-! ### One output sample -/

/-- Everything one completed output sample does (rules R141 to R144). -/
theorem upStep_spec {s : State} {b : Buffer} {n : Nat} {p p' : UpPass} (h : upStep s b n p = .ok p') :
    ∃ k ≤ 7, k = slotsAdvanced p.phase (p.phase + s.deltaUp) ∧
      (∀ j < k, cursorValid s.cursorW s.srcValid (wrapCursor s.cursorW (p.cursor + j)) = true) ∧
      p'.phase = p.phase + s.deltaUp ∧
      p'.cursor = p.cursor + k ∧
      p'.draws = p.draws + 33 ∧
      p'.out = p.out.setIfInBounds n (upSample p.draws s.rom p'.phase p'.ring) ∧
      p'.accesses = p.accesses ++ ((cursorsFrom s.cursorW p.cursor k).map .sourceRead ++
        (upRomReads p'.phase ++ [.write b n (upSample p.draws s.rom p'.phase p'.ring)])) ∧
      ∀ i < 8, slotGet p'.ring (ringOf p.phase + BitVec.ofNat 3 i) =
        if i < k then s.src.read (wrapCursor s.cursorW (p.cursor + i))
        else slotGet p.ring (ringOf p.phase + BitVec.ofNat 3 i) := by
  rw [upStep, bind_eq_ok] at h
  obtain ⟨q, hq, h⟩ := h
  simp only [Except.ok.injEq] at h
  have hk : slotsAdvanced p.phase (p.phase + s.deltaUp) ≤ 7 := by
    have := (ringOf (p.phase + s.deltaUp) - ringOf p.phase).isLt
    unfold slotsAdvanced
    omega
  obtain ⟨h1, h2, h3, h4, h5, h6, h7⟩ := pull_spec s _ _ _ _ hq
  simp only at h1 h2 h3 h4 h5 h6 h7
  subst h
  refine ⟨_, hk, rfl, h1, h2, h5, ?_, ?_, ?_, h7 (by omega)⟩
  · simp [h4]
  · simp [h3, h4]
  · simp [h6, h4, List.append_assoc]

theorem upStep_completes {s : State} (b : Buffer) (n : Nat) {p : UpPass}
    (h : ∀ j < slotsAdvanced p.phase (p.phase + s.deltaUp),
      cursorValid s.cursorW s.srcValid (wrapCursor s.cursorW (p.cursor + j)) = true) :
    ∃ p', upStep s b n p = .ok p' := by
  obtain ⟨q, hq⟩ := pull_completes s _ (ringOf p.phase) { p with phase := p.phase + s.deltaUp } h
  rw [upStep, hq]
  exact ⟨_, rfl⟩

theorem upStep_error {s : State} {b : Buffer} {n : Nat} {p : UpPass} {f : Fault} (h : upStep s b n p = .error f) :
    f = .sourceReadOutsideValid := by
  rw [upStep, bind_eq_error] at h
  rcases h with h | ⟨x, _, h⟩
  · exact pull_error s _ _ _ _ h
  · simp at h

/-! ### The whole pass -/

theorem upSteps_succ_eq_ok {s : State} {b : Buffer} {n : Nat} {p p' : UpPass} :
    upSteps s b (n + 1) p = .ok p' ↔ ∃ q, upSteps s b n p = .ok q ∧ upStep s b n q = .ok p' := by
  rw [upSteps, bind_eq_ok]

theorem upSteps_error (s : State) (b : Buffer) : ∀ (n : Nat) (p : UpPass) (f : Fault), upSteps s b n p = .error f →
    f = .sourceReadOutsideValid := by
  intro n
  induction n with
  | zero => intro p f h; simp [upSteps] at h
  | succ n ih =>
    intro p f h
    rw [upSteps, bind_eq_error] at h
    rcases h with h | ⟨q, _, h⟩
    · exact ih _ _ h
    · exact upStep_error h

/-- What `n` output samples leave whatever the deltas are. -/
theorem upSteps_phase {s : State} {b : Buffer} : ∀ {n : Nat} {p p' : UpPass}, upSteps s b n p = .ok p' →
    p'.phase = phaseAfter p.phase s.deltaUp n ∧ p'.draws = p.draws + 33 * n := by
  intro n
  induction n with
  | zero => intro p p' h; simp only [upSteps, Except.ok.injEq] at h; subst h; simp
  | succ n ih =>
    intro p p' h
    obtain ⟨q, hq, h⟩ := upSteps_succ_eq_ok.1 h
    obtain ⟨h1, h2⟩ := ih hq
    obtain ⟨k, _, _, _, h3, _, h4, _⟩ := upStep_spec h
    exact ⟨by rw [h3, h1, phaseAfter_succ], by rw [h4, h2]; omega⟩

/-- `UP16(c, B)` completes with a cursor and a state exactly when its sixteen steps do. -/
theorem runUp_eq_ok {s t : State} {c c' : Nat} {b : Buffer} :
    runUp c b s = .ok (c', t) ↔
      ∃ p, upSteps s b 16 (upStart s c b) = .ok p ∧ c' = p.cursor ∧ t = upFinish b p s := by
  rw [runUp, bind_eq_ok]
  simp [eq_comm]

theorem runUp_error {s : State} {c : Nat} {b : Buffer} {f : Fault} (h : runUp c b s = .error f) :
    f = .sourceReadOutsideValid := by
  rw [runUp, bind_eq_error] at h
  rcases h with h | ⟨p, _, h⟩
  · exact upSteps_error s b _ _ _ h
  · simp at h

end Sys2Proof.Machine
end

