-- ==== Sys2Proof/Laws/Down.lean ====
section
/-! SUPPORT. What `DOWN16` can do, said once for each of its operations. -/

namespace Sys2Proof.Machine

@[simp] theorem sourceCursors_downRomReads (p : U32) : sourceCursors (downRomReads p) = [] := rfl
@[simp] theorem bufferWrites_downRomReads (b : Buffer) (p : U32) : bufferWrites b (downRomReads p) = [] := rfl
@[simp] theorem sourceCursors_read_cons (c : Nat) (l : List Access) :
    sourceCursors (.sourceRead c :: l) = c :: sourceCursors l := by simp [sourceCursors]
@[simp] theorem romAddresses_read_cons (c : Nat) (l : List Access) :
    romAddresses (.sourceRead c :: l) = romAddresses l := by simp [romAddresses]
@[simp] theorem bufferWrites_read_cons (b : Buffer) (c : Nat) (l : List Access) :
    bufferWrites b (.sourceRead c :: l) = bufferWrites b l := by simp [bufferWrites]
@[simp] theorem romAddresses_upRomReads_length (p : U32) : (romAddresses (upRomReads p)).length = 16 := rfl
@[simp] theorem romAddresses_downRomReads_length (p : U32) : (romAddresses (downRomReads p)).length = 16 := rfl

/-! ### The eight taps -/

/-- What slot `r +8 k` holds after the walk (rules R153, R199). -/
def tapResult (d : Nat) (rom : Config.RomImage) (phase : U32) (x0 x1 : Sample) (acc : Slots) (k : Fin 8) : Sample :=
  addS (d + 4 * k.val + 3)
    (addS (d + 4 * k.val + 1) (slotGet acc (tapSlot (ringOf phase) k))
      (mulS (d + 4 * k.val) (romAt rom (rowIndex phase) k) x0))
    (mulS (d + 4 * k.val + 2) (romAt rom (nextRowIndex phase) k) x1)

theorem tapSlot_inj (r : RingIx) {j k : Fin 8} : tapSlot r j = tapSlot r k ↔ j = k := by
  unfold tapSlot
  rw [ring_add_ofNat_inj r j.isLt k.isLt, Fin.ext_iff]

theorem accumulateTap_get (d : Nat) (rom : Config.RomImage) (phase : U32) (x0 x1 : Sample) (acc : Slots) (j k : Fin 8) :
    slotGet (accumulateTap d rom phase x0 x1 acc j) (tapSlot (ringOf phase) k) =
      if k = j then tapResult d rom phase x0 x1 acc k else slotGet acc (tapSlot (ringOf phase) k) := by
  unfold accumulateTap
  rw [slotGet_slotSet]
  by_cases h : k = j
  · subst h; simp [tapResult]
  · have h' : tapSlot (ringOf phase) k ≠ tapSlot (ringOf phase) j := fun e => h ((tapSlot_inj _).1 e)
    rw [if_neg h', if_neg h]

theorem foldl_accumulateTap_get (d : Nat) (rom : Config.RomImage) (phase : U32) (x0 x1 : Sample) (k : Fin 8) :
    ∀ (l : List (Fin 8)) (acc : Slots), l.Nodup →
      slotGet (l.foldl (accumulateTap d rom phase x0 x1) acc) (tapSlot (ringOf phase) k) =
        if k ∈ l then tapResult d rom phase x0 x1 acc k else slotGet acc (tapSlot (ringOf phase) k) := by
  intro l
  induction l with
  | nil => intro acc _; simp
  | cons j l ih =>
    intro acc hl
    rw [List.nodup_cons] at hl
    rw [List.foldl_cons, ih _ hl.2]
    by_cases hk : k ∈ l
    · have hkj : k ≠ j := fun e => hl.1 (e ▸ hk)
      simp only [hk, if_true, List.mem_cons, or_true]
      simp only [tapResult, accumulateTap_get, if_neg hkj]
    · rw [if_neg hk, accumulateTap_get]
      by_cases hkj : k = j <;> simp [hk, hkj]

/-- The accumulation of one source sample adds to all eight slots, each once (rule R153). -/
theorem accumulate_get (d : Nat) (rom : Config.RomImage) (phase : U32) (x0 x1 : Sample) (acc : Slots) (k : Fin 8) :
    slotGet (accumulate d rom phase x0 x1 acc) (tapSlot (ringOf phase) k) = tapResult d rom phase x0 x1 acc k := by
  have h : k ∈ taps := by revert k; decide
  rw [accumulate, foldl_accumulateTap_get _ _ _ _ _ _ _ _ (by decide), if_pos h]

/-! ### One source sample -/

/-- Everything one completed source sample does (rules R150 to R156). -/
theorem downStep_spec {s : State} {b : Buffer} {p p' : DownPass} (h : downStep s b p = .ok p') :
    cursorValid s.cursorW s.srcValid (wrapCursor s.cursorW p.cursor) = true ∧
    p'.phase = p.phase + s.deltaDown ∧ p'.cursor = p.cursor + 1 ∧ p'.draws = p.draws + 35 ∧
    ∃ acc, acc = downAccumulate p.draws s.rom s.downscale p.phase (s.src.read (wrapCursor s.cursorW p.cursor)) p.accum ∧
      if rotated p.phase (p.phase + s.deltaDown) = true then
        p'.out = p.out.setIfInBounds p.emitted (slotGet acc (ringOf p.phase)) ∧
        p'.accum = slotSet acc (ringOf p.phase) zeroSample ∧
        p'.emitted = p.emitted + 1 ∧
        p'.accesses = p.accesses ++ (.sourceRead (wrapCursor s.cursorW p.cursor) :: (downRomReads p.phase ++
          [.write b p.emitted (slotGet acc (ringOf p.phase))]))
      else
        p'.out = p.out ∧ p'.accum = acc ∧ p'.emitted = p.emitted ∧
        p'.accesses = p.accesses ++ (.sourceRead (wrapCursor s.cursorW p.cursor) :: downRomReads p.phase) := by
  rw [downStep, bind_eq_ok] at h
  obtain ⟨x, hx, h⟩ := h
  obtain ⟨hv, rfl⟩ := readSource_eq_ok.1 hx
  simp only at h
  split at h
  · next hr =>
    simp only [Except.ok.injEq] at h
    subst h
    exact ⟨hv, rfl, rfl, rfl, _, rfl, by simp [hr, List.append_assoc]⟩
  · next hr =>
    simp only [Except.ok.injEq] at h
    subst h
    exact ⟨hv, rfl, rfl, rfl, _, rfl, by simp [hr]⟩

theorem downStep_completes {s : State} (b : Buffer) {p : DownPass} (h : cursorValid s.cursorW s.srcValid (wrapCursor s.cursorW p.cursor) = true) :
    ∃ p', downStep s b p = .ok p' := by
  rw [downStep, readSource_eq_ok.2 ⟨h, rfl⟩]
  simp only [bind, Except.bind]
  split
  · exact ⟨_, rfl⟩
  · exact ⟨_, rfl⟩

theorem downStep_error {s : State} {b : Buffer} {p : DownPass} {f : Fault} (h : downStep s b p = .error f) :
    f = .sourceReadOutsideValid ∧ cursorValid s.cursorW s.srcValid (wrapCursor s.cursorW p.cursor) = false := by
  rw [downStep, bind_eq_error] at h
  rcases h with h | ⟨x, _, h⟩
  · obtain ⟨h1, h2⟩ := readSource_eq_error.1 h
    exact ⟨h2, h1⟩
  · simp only at h
    split at h <;> simp at h

/-! ### The loop -/

/-- `m` source samples in a row, with no test of `n < BLOCK`: what the loop does while the test holds. -/
def downSteps (s : State) (b : Buffer) : Nat → DownPass → Except Fault DownPass
  | 0, p => .ok p
  | m + 1, p => do
    let p ← downSteps s b m p
    downStep s b p

theorem downSteps_succ_eq_ok {s : State} {b : Buffer} {m : Nat} {p p' : DownPass} :
    downSteps s b (m + 1) p = .ok p' ↔ ∃ q, downSteps s b m p = .ok q ∧ downStep s b q = .ok p' := by
  rw [downSteps, bind_eq_ok]

theorem downSteps_succ_left {s : State} {b : Buffer} {p q : DownPass} (h : downStep s b p = .ok q) :
    ∀ m, downSteps s b (m + 1) p = downSteps s b m q := by
  intro m
  induction m with
  | zero => simp [downSteps, h, bind, Except.bind]
  | succ m ih => rw [downSteps, ih, downSteps]

theorem downLoop_of_done {s : State} {b : Buffer} {fuel : Nat} {p : DownPass} (h : ¬ p.emitted < 16) :
    downLoop s b fuel p = .ok p := by
  cases fuel <;> simp [downLoop, h]

theorem downLoop_of_more {s : State} {b : Buffer} {fuel : Nat} {p : DownPass} (h : p.emitted < 16) :
    downLoop s b (fuel + 1) p = downStep s b p >>= downLoop s b fuel := by
  simp [downLoop, h]

/-- A completed loop took some number of source samples, the test holding before each and failing after the last. -/
theorem downLoop_eq_ok {s : State} {b : Buffer} : ∀ {fuel : Nat} {p p' : DownPass}, downLoop s b fuel p = .ok p' →
    ∃ m ≤ fuel, downSteps s b m p = .ok p' ∧ ¬ p'.emitted < 16 ∧
      ∀ j < m, ∃ q, downSteps s b j p = .ok q ∧ q.emitted < 16 := by
  intro fuel
  induction fuel with
  | zero =>
    intro p p' h
    by_cases hp : p.emitted < 16
    · simp [downLoop, hp] at h
    · rw [downLoop_of_done hp] at h
      cases h
      exact ⟨0, by omega, rfl, hp, by omega⟩
  | succ fuel ih =>
    intro p p' h
    by_cases hp : p.emitted < 16
    · rw [downLoop_of_more hp, bind_eq_ok] at h
      obtain ⟨q, hq, h⟩ := h
      obtain ⟨m, hm, h1, h2, h3⟩ := ih h
      refine ⟨m + 1, by omega, by rw [downSteps_succ_left hq]; exact h1, h2, ?_⟩
      intro j hj
      cases j with
      | zero => exact ⟨p, rfl, hp⟩
      | succ j => rw [downSteps_succ_left hq]; exact h3 j (by omega)
    · rw [downLoop_of_done hp] at h
      cases h
      exact ⟨0, by omega, rfl, hp, by omega⟩

/-- The converse: where the test holds before each of `m` samples and fails after them, the loop completes there. -/
theorem downLoop_of_downSteps {s : State} {b : Buffer} : ∀ {m fuel : Nat} {p p' : DownPass}, m ≤ fuel →
    downSteps s b m p = .ok p' → ¬ p'.emitted < 16 →
    (∀ j < m, ∃ q, downSteps s b j p = .ok q ∧ q.emitted < 16) → downLoop s b fuel p = .ok p' := by
  intro m
  induction m with
  | zero =>
    intro fuel p p' _ h h' _
    cases h
    exact downLoop_of_done h'
  | succ m ih =>
    intro fuel p p' hm h h' hj
    obtain ⟨fuel, rfl⟩ : ∃ k, fuel = k + 1 := ⟨fuel - 1, by omega⟩
    obtain ⟨_, h0, h0'⟩ := hj 0 (by omega)
    cases h0
    obtain ⟨q, hq⟩ : ∃ q, downStep s b p = .ok q := by
      by_cases hm0 : m = 0
      · subst hm0
        exact ⟨p', by simpa [downSteps, bind, Except.bind] using h⟩
      · obtain ⟨q, hq, _⟩ := hj 1 (by omega)
        exact ⟨q, by simpa [downSteps, bind, Except.bind] using hq⟩
    rw [downLoop_of_more h0', hq]
    refine ih (by omega) (by rw [← downSteps_succ_left hq]; exact h) h' ?_
    intro j hjm
    rw [← downSteps_succ_left hq]
    exact hj (j + 1) (by omega)

/-- What `m` source samples leave whatever the deltas are. -/
theorem downSteps_phase {s : State} {b : Buffer} : ∀ {m : Nat} {p p' : DownPass}, downSteps s b m p = .ok p' →
    p'.phase = phaseAfter p.phase s.deltaDown m ∧ p'.draws = p.draws + 35 * m ∧
    p'.cursor = p.cursor + m ∧
    ∀ j < m, cursorValid s.cursorW s.srcValid (wrapCursor s.cursorW (p.cursor + j)) = true := by
  intro m
  induction m with
  | zero => intro p p' h; cases h; simp
  | succ m ih =>
    intro p p' h
    obtain ⟨q, hq, h⟩ := downSteps_succ_eq_ok.1 h
    obtain ⟨h1, h2, h3, h4⟩ := ih hq
    obtain ⟨hv, g1, g2, g3, _⟩ := downStep_spec h
    refine ⟨by rw [g1, h1, phaseAfter_succ], by rw [g3, h2]; omega, ?_, ?_⟩
    · rw [g2, h3, Nat.add_assoc]
    · intro j hj
      by_cases hjm : j < m
      · exact h4 j hjm
      · have : j = m := by omega
        subst this; rw [← h3]; exact hv

/-- While every cursor is readable the samples go on. -/
theorem downSteps_completes {s : State} {b : Buffer} : ∀ (m : Nat) (p : DownPass),
    (∀ j < m, cursorValid s.cursorW s.srcValid (wrapCursor s.cursorW (p.cursor + j)) = true) → ∃ p', downSteps s b m p = .ok p' := by
  intro m
  induction m with
  | zero => intro p _; exact ⟨p, rfl⟩
  | succ m ih =>
    intro p h
    obtain ⟨q, hq⟩ := ih p (fun j hj => h j (by omega))
    obtain ⟨_, _, h3, _⟩ := downSteps_phase hq
    obtain ⟨p', hp'⟩ := downStep_completes b (s := s) (p := q) (by rw [h3]; exact h m (by omega))
    exact ⟨p', downSteps_succ_eq_ok.2 ⟨q, hq, hp'⟩⟩

/-- `DOWN16(c, B)` completes with a cursor and a state exactly when the ring can rotate and its loop completes. -/
theorem runDown_eq_ok {s t : State} {c c' : Nat} {b : Buffer} :
    runDown c b s = .ok (c', t) ↔
      canRotate s.deltaDown = true ∧
      ∃ p, downLoop s b downFuel (downStart s c b) = .ok p ∧ c' = p.cursor ∧ t = downFinish b p s := by
  unfold runDown
  split
  · next h => rw [bind_eq_ok]; simp [h, eq_comm]
  · next h => simp [h]

theorem runDown_error {s : State} {c : Nat} {b : Buffer} {f : Fault} (h : runDown c b s = .error f) :
    (f = .downNeverRotates ∧ canRotate s.deltaDown = false) ∨
    (canRotate s.deltaDown = true ∧ downLoop s b downFuel (downStart s c b) = .error f) := by
  unfold runDown at h
  split at h
  · next hr =>
    rw [bind_eq_error] at h
    rcases h with h | ⟨p, _, h⟩
    · exact .inr ⟨hr, h⟩
    · simp at h
  · next hr => simp only [Except.error.injEq] at h; exact .inl ⟨h.symm, by simpa using hr⟩

end Sys2Proof.Machine
end

