-- ==== Sys2Proof/Laws/Memory.lean ====
section
/-! SUPPORT. `SRC`: reading after writing, and the canonical form that every operation keeps. -/

namespace Sys2Proof.Machine

@[simp] theorem memory_wf_nil (w : Nat) : Memory.wf w [] = true := rfl

/-- A key below every listed one reads as an unlisted one. -/
theorem memory_read_below : ∀ {m : Memory} {w low : Nat} {c : Nat}, Memory.wfFrom w low m = true → c < low →
    m.read c = Memory.unlisted := by
  intro m
  induction m with
  | nil => intro w low c _ _; rfl
  | cons p m ih =>
    intro w low c h hc
    obtain ⟨a, v⟩ := p
    simp only [Memory.wfFrom, Bool.and_eq_true, decide_eq_true_eq] at h
    have ha : a ≠ c := by omega
    rw [Memory.read, if_neg ha]
    exact ih h.2 (by omega)

theorem memory_wfFrom_mono : ∀ {m : Memory} {w low low' : Nat}, Memory.wfFrom w low m = true → low' ≤ low →
    Memory.wfFrom w low' m = true := by
  intro m
  cases m with
  | nil => intro _ _ _ _ _; rfl
  | cons p m =>
    intro w low low' h hl
    simp only [Memory.wfFrom, Bool.and_eq_true, decide_eq_true_eq] at h ⊢
    exact ⟨⟨⟨by omega, h.1.1.2⟩, h.1.2⟩, h.2⟩

/-- Putting an entry in keeps the canonical form. -/
theorem memory_insert_wf : ∀ {m : Memory} {w low a : Nat} (v : Sample), Memory.wfFrom w low m = true → low ≤ a →
    a < 2 ^ w → Memory.wfFrom w low (m.insert a v) = true := by
  intro m
  induction m with
  | nil =>
    intro w low a v _ hl ha
    unfold Memory.insert
    split
    · rfl
    · next hv =>
      simp only [Memory.wfFrom, Bool.and_eq_true, decide_eq_true_eq, bne_iff_ne, ne_eq, and_true]
      exact ⟨⟨hl, ha⟩, hv⟩
  | cons p m ih =>
    intro w low a v h hl ha
    obtain ⟨b, x⟩ := p
    have h0 := h
    simp only [Memory.wfFrom, Bool.and_eq_true, decide_eq_true_eq, bne_iff_ne, ne_eq] at h
    obtain ⟨⟨⟨h1, h2⟩, h3⟩, h4⟩ := h
    unfold Memory.insert
    split
    · next hb =>
      simp only [Memory.wfFrom, Bool.and_eq_true, decide_eq_true_eq, bne_iff_ne, ne_eq]
      exact ⟨⟨⟨h1, h2⟩, h3⟩, ih v h4 (by omega) ha⟩
    · next hb =>
      have htail : Memory.wfFrom w (a + 1) (if b = a then m else (b, x) :: m) = true := by
        split
        · next e => exact e ▸ h4
        · next e =>
          simp only [Memory.wfFrom, Bool.and_eq_true, decide_eq_true_eq, bne_iff_ne, ne_eq]
          exact ⟨⟨⟨by omega, h2⟩, h3⟩, h4⟩
      simp only
      split
      · exact memory_wfFrom_mono htail (by omega)
      · next hv =>
        simp only [Memory.wfFrom, Bool.and_eq_true, decide_eq_true_eq, bne_iff_ne, ne_eq]
        exact ⟨⟨⟨hl, ha⟩, hv⟩, htail⟩

/-- A read after putting an entry in. -/
theorem memory_read_insert : ∀ {m : Memory} {w low a : Nat} (v : Sample) (c : Nat), Memory.wfFrom w low m = true →
    (m.insert a v).read c = if c = a then v else m.read c := by
  intro m
  induction m with
  | nil =>
    intro w low a v c _
    unfold Memory.insert
    by_cases hv : v = Memory.unlisted
    · simp [hv, Memory.read]
    · by_cases hc : c = a
      · simp [hv, Memory.read, hc]
      · have : ¬ a = c := fun e => hc e.symm
        simp [hv, Memory.read, hc, this]
  | cons p m ih =>
    intro w low a v c h
    obtain ⟨b, x⟩ := p
    simp only [Memory.wfFrom, Bool.and_eq_true, decide_eq_true_eq] at h
    have h4 := h.2
    unfold Memory.insert
    split
    · next hb =>
      rw [Memory.read, ih v c h4, Memory.read]
      by_cases hbc : b = c
      · have : ¬ c = a := by omega
        simp [hbc, this]
      · simp [hbc]
    · next hb =>
      have hread : Memory.read (if b = a then m else (b, x) :: m) c =
          if c = a then Memory.unlisted else Memory.read ((b, x) :: m) c := by
        by_cases hba : b = a
        · rw [if_pos hba, Memory.read]
          by_cases hc : c = a
          · rw [if_pos hc]; exact memory_read_below h4 (by omega)
          · have : ¬ b = c := by omega
            rw [if_neg hc, if_neg this]
        · rw [if_neg hba]
          by_cases hc : c = a
          · have : ¬ b = c := by omega
            rw [if_pos hc, Memory.read, if_neg this]
            exact memory_read_below h4 (by omega)
          · rw [if_neg hc]
      simp only
      split
      · next hv => rw [hread, hv]
      · next hv =>
        rw [Memory.read]
        by_cases hc : c = a
        · simp [hc]
        · have : ¬ a = c := fun e => hc e.symm
          rw [if_neg this, if_neg hc, hread, if_neg hc]

/-- The host's write keeps the canonical form (rules R62, R64). -/
theorem memory_write_wf {m : Memory} {w : Nat} {c : Nat} (v : Sample) (h : m.wf w = true) (hc : c < 2 ^ w) :
    (m.write c v).wf w = true :=
  memory_insert_wf v h (Nat.zero_le _) hc

/-- A read after the host's write gives the value at its cursor and what was there elsewhere. -/
theorem memory_read_write {m : Memory} {w : Nat} (c a : Nat) (v : Sample) (h : m.wf w = true) :
    (m.write c v).read a = if a = c then v else m.read a := by
  unfold Memory.write
  exact memory_read_insert v a h

/-- Two canonical memories that read alike are the same data. -/
theorem memory_ext : ∀ {m n : Memory} {w low : Nat}, Memory.wfFrom w low m = true → Memory.wfFrom w low n = true →
    (∀ c : Nat, m.read c = n.read c) → m = n := by
  intro m
  induction m with
  | nil =>
    intro n w low _ hn h
    cases n with
    | nil => rfl
    | cons q n =>
      obtain ⟨b, x⟩ := q
      simp only [Memory.wfFrom, Bool.and_eq_true, decide_eq_true_eq, bne_iff_ne, ne_eq] at hn
      have := h b
      simp only [Memory.read, if_true] at this
      exact absurd this.symm hn.1.2
  | cons p m ih =>
    intro n w low hm hn h
    obtain ⟨a, v⟩ := p
    have hm0 := hm
    simp only [Memory.wfFrom, Bool.and_eq_true, decide_eq_true_eq, bne_iff_ne, ne_eq] at hm
    cases n with
    | nil =>
      have := h a
      simp only [Memory.read, if_true] at this
      exact absurd this hm.1.2
    | cons q n =>
      obtain ⟨b, x⟩ := q
      have hn0 := hn
      simp only [Memory.wfFrom, Bool.and_eq_true, decide_eq_true_eq, bne_iff_ne, ne_eq] at hn
      have hab : a = b := by
        rcases Nat.lt_trichotomy a b with hlt | heq | hgt
        · have := h a
          have hne : ¬ b = a := by omega
          rw [Memory.read, if_pos rfl, Memory.read, if_neg hne,
            memory_read_below hn.2 (by omega)] at this
          exact absurd this hm.1.2
        · exact heq
        · have := h b
          have hne : ¬ a = b := by omega
          rw [Memory.read, if_neg hne, Memory.read, if_pos rfl,
            memory_read_below hm.2 (by omega)] at this
          exact absurd this.symm hn.1.2
      subst hab
      have hvw : v = x := by
        have := h a
        simpa [Memory.read] using this
      subst hvw
      congr 1
      apply ih hm.2 hn.2
      intro c
      by_cases hc : c < a + 1
      · rw [memory_read_below hm.2 hc, memory_read_below hn.2 hc]
      · have := h c
        have hne : ¬ a = c := by omega
        rwa [Memory.read, if_neg hne, Memory.read, if_neg hne] at this

end Sys2Proof.Machine
end

