-- ==== Sys2Proof/Laws/Numerics.lean ====
section
/-! SUPPORT. Small lemmas of the sample operators: the special cases of each, said once. -/

namespace Sys2Proof.Machine

@[simp] theorem isNaN_freeNaN (d : Nat) : isNaN (freeNaN d) = true := (Config.nanDraw d).nan

/-- The three classes of patterns: a pattern is finite, an infinity or a NaN. -/
theorem finite_iff (x : Sample) : isFinite x = true ↔ isNaN x = false ∧ isInf x = false := by
  unfold isFinite isNaN isInf
  by_cases h : expField x = 255#8
  · by_cases h' : fractionField x = 0#23 <;> simp [h, h']
  · simp [h]

theorem addS_of_nan (d : Nat) {a b : Sample} (h : isNaN a = true ∨ isNaN b = true) : addS d a b = freeNaN d := by
  unfold addS
  have : (isNaN a || isNaN b) = true := by simpa using h
  simp [this]

theorem mulS_of_nan (d : Nat) {a b : Sample} (h : isNaN a = true ∨ isNaN b = true) : mulS d a b = freeNaN d := by
  unfold mulS
  have : (isNaN a || isNaN b) = true := by simpa using h
  simp [this]

/-- The sum of two finite samples. -/
theorem addS_of_finite (d : Nat) {a b : Sample} (ha : isFinite a = true) (hb : isFinite b = true) :
    addS d a b =
      if sampleUnits a + sampleUnits b = 0 then (if signBit a && signBit b then 0x80000000#32 else zeroSample)
      else rn32 (sampleUnits a + sampleUnits b < 0) (sampleUnits a + sampleUnits b).natAbs (2 ^ 149) := by
  obtain ⟨ha1, ha2⟩ := (finite_iff a).1 ha
  obtain ⟨hb1, hb2⟩ := (finite_iff b).1 hb
  unfold addS
  simp only [ha1, ha2, hb1, hb2, Bool.or_self, Bool.false_eq_true, if_false]

/-- The product of two finite samples. -/
theorem mulS_of_finite (d : Nat) {a b : Sample} (ha : isFinite a = true) (hb : isFinite b = true) :
    mulS d a b = rn32 (signBit a != signBit b) (magUnits a * magUnits b) (2 ^ 149 * 2 ^ 149) := by
  obtain ⟨ha1, ha2⟩ := (finite_iff a).1 ha
  obtain ⟨hb1, hb2⟩ := (finite_iff b).1 hb
  unfold mulS
  simp only [ha1, ha2, hb1, hb2, Bool.or_self, Bool.false_eq_true, if_false]

/-- A zero of either sign has magnitude zero, and nothing else has. -/
theorem isZero_iff_magUnits (x : Sample) : isZero x = true ↔ magUnits x = 0 := by
  have hx := x.isLt
  have he : (expField x).toNat = x.toNat / 2 ^ 23 % 2 ^ 8 := by
    simp [expField, BitVec.extractLsb'_toNat, Nat.shiftRight_eq_div_pow]
  have hf : (fractionField x).toNat = x.toNat % 2 ^ 23 := by
    simp [fractionField, BitVec.extractLsb'_toNat]
  have hz : isZero x = true ↔ x.toNat % 2 ^ 31 = 0 := by
    simp [isZero, ← BitVec.toNat_inj]
  have he0 : expField x = 0#8 ↔ x.toNat / 2 ^ 23 % 2 ^ 8 = 0 := by
    rw [← BitVec.toNat_inj, he]; rfl
  rw [hz, magUnits]
  split
  · next h => rw [he0] at h; rw [hf]; omega
  · next h =>
    rw [he0] at h
    constructor
    · intro h1; omega
    · intro h1
      have h2 : 0 < (2 ^ 23 + (fractionField x).toNat) * 2 ^ ((expField x).toNat - 1) := by positivity
      omega

/-- Rounding zero gives the zero of the sign asked for. -/
theorem rn32_zero (neg : Bool) (den : Nat) : rn32 neg 0 den = if neg then 0x80000000#32 else 0x00000000#32 := by
  have hr : roundMagnitude 0 den = 0 := by
    unfold roundMagnitude ulpExponent divNearestEven
    simp
  cases neg <;> simp [rn32, hr]

end Sys2Proof.Machine
end

