-- ==== Sys2Proof/Laws/PerInstr.lean ====
section
/-! SUPPORT. Statements for all instructions, one lemma for each constructor: the dispatch word of a well-formed instruction
fits its row of the opcode table and no other, and its operand survives the argument. -/

namespace Sys2Proof.Laws.EncodeRow

/-- The mask and the pattern of an instruction's row of the opcode table (rule R91). -/
def row : Instr → BitVec 5 × BitVec 5
  | .reset => (0b11100#5, 0b00000#5)
  | .setRatio _ => (0b11100#5, 0b00100#5)
  | .transpose _ => (0b11100#5, 0b01000#5)
  | .up16 _ => (0b11111#5, 0b01100#5)
  | .down16 _ => (0b11111#5, 0b01101#5)
  | .up2down16 _ => (0b11111#5, 0b01110#5)
  | .down2up16 _ => (0b11111#5, 0b01111#5)
  | .reserved _ => (0b10000#5, 0b10000#5)

/-- For every cursor width, a well-formed instruction's dispatch word fits its own row, and the dispatch word and the argument
together decode to it. -/
def Statement (i : Instr) : Prop :=
  ∀ w : Nat, WellFormed w i = true →
    fitsRow (row i).1 (row i).2 (encodeDispatch i) = true ∧ decodeCommand w (encodeDispatch i) (encodeArg i) = i

theorem argCursor_of_lt {w c : Nat} (h : decide (c < 2 ^ w) = true) : argCursor w c = c :=
  Nat.mod_eq_of_lt (of_decide_eq_true h)

theorem argSample_toNat (q : Sample) : argSample q.toNat = q := by simp [argSample]

theorem reset : Statement .reset := fun _ _ => ⟨rfl, rfl⟩
theorem setRatio (q : Sample) : Statement (.setRatio q) := fun _ _ =>
  ⟨by simp [row, fitsRow, encodeDispatch], by simp [encodeDispatch, encodeArg, decodeCommand, fitsRow, argSample_toNat]⟩
theorem transpose (s : Sample) : Statement (.transpose s) := fun _ _ =>
  ⟨by simp [row, fitsRow, encodeDispatch], by simp [encodeDispatch, encodeArg, decodeCommand, fitsRow, argSample_toNat]⟩
theorem up16 (c : Nat) : Statement (.up16 c) := fun _ h =>
  ⟨by simp [row, fitsRow, encodeDispatch], by simp [encodeDispatch, encodeArg, decodeCommand, fitsRow, argCursor_of_lt h]⟩
theorem down16 (c : Nat) : Statement (.down16 c) := fun _ h =>
  ⟨by simp [row, fitsRow, encodeDispatch], by simp [encodeDispatch, encodeArg, decodeCommand, fitsRow, argCursor_of_lt h]⟩
theorem up2down16 (c : Nat) : Statement (.up2down16 c) := fun _ h =>
  ⟨by simp [row, fitsRow, encodeDispatch], by simp [encodeDispatch, encodeArg, decodeCommand, fitsRow, argCursor_of_lt h]⟩
theorem down2up16 (c : Nat) : Statement (.down2up16 c) := fun _ h =>
  ⟨by simp [row, fitsRow, encodeDispatch], by simp [encodeDispatch, encodeArg, decodeCommand, fitsRow, argCursor_of_lt h]⟩
theorem reserved (cmd : BitVec 3) : Statement (.reserved cmd) := by
  intro w h
  have key : ∀ c : BitVec 3, (c.extractLsb' 2 1 == 1#1) = true →
      fitsRow 0b10000#5 0b10000#5 (c ++ 0b00#2) = true ∧ fitsRow 0b11100#5 0b00000#5 (c ++ 0b00#2) = false ∧
      fitsRow 0b11100#5 0b00100#5 (c ++ 0b00#2) = false ∧ fitsRow 0b11100#5 0b01000#5 (c ++ 0b00#2) = false ∧
      fitsRow 0b11111#5 0b01100#5 (c ++ 0b00#2) = false ∧ fitsRow 0b11111#5 0b01101#5 (c ++ 0b00#2) = false ∧
      fitsRow 0b11111#5 0b01110#5 (c ++ 0b00#2) = false ∧ fitsRow 0b11111#5 0b01111#5 (c ++ 0b00#2) = false ∧
      (c ++ 0b00#2).extractLsb' 2 3 = c := by decide
  obtain ⟨h0, h1, h2, h3, h4, h5, h6, h7, h8⟩ := key cmd h
  exact ⟨h0, by simp only [encodeDispatch, decodeCommand, h1, h2, h3, h4, h5, h6, h7, h8, Bool.false_eq_true, if_false]⟩

end Sys2Proof.Laws.EncodeRow

namespace Sys2Proof

/-! ### The byte layout (log entry 17) -/

/-- The bytes of an argument hold all its bits. -/
theorem argW_le (w : Nat) : argW w ≤ 8 * argLength w := by unfold argLength; omega

@[simp] theorem length_numberBytes (n v : Nat) : (numberBytes n v).length = n := by
  induction n generalizing v with
  | zero => rfl
  | succ n ih => rw [numberBytes, List.length_cons, ih]

/-- The bytes of a number stand for it, modulo what they can hold. -/
theorem bytesValue_numberBytes (n v : Nat) : bytesValue (numberBytes n v) = v % 2 ^ (8 * n) := by
  induction n generalizing v with
  | zero => simp [numberBytes, bytesValue, Nat.mod_one]
  | succ n ih =>
    rw [numberBytes, bytesValue, ih, BitVec.toNat_ofNat, Nat.mul_succ, Nat.add_comm (8 * n) 8, Nat.pow_add, Nat.mod_mul]

end Sys2Proof
end

