-- ==== Sys2Proof/Laws/Phase.lean ====
section
/-! SUPPORT. The phase after many additions of a delta: its low 28 bits, its ring index, and the periods passed. -/

namespace Sys2Proof.Machine

theorem ringOf_toNat (p : U32) : (ringOf p).toNat = p.toNat / 2 ^ 25 % 8 := by
  simp [ringOf, BitVec.extractLsb'_toNat, Nat.shiftRight_eq_div_pow]

/-- Only the low 28 bits reach a field that a rule reads (rule R190). -/
theorem phaseAfter_mod (p d : U32) (n : Nat) : (phaseAfter p d n).toNat % 2 ^ 28 = (p.toNat + n * d.toNat) % 2 ^ 28 := by
  have hdvd : 2 ^ 28 ∣ 2 ^ 32 := by decide
  unfold phaseAfter
  rw [BitVec.toNat_add, BitVec.toNat_mul, BitVec.toNat_ofNat, Nat.mod_mod_of_dvd _ hdvd]
  conv_lhs =>
    rw [Nat.add_mod, Nat.mod_mod_of_dvd _ hdvd, Nat.mul_mod, Nat.mod_mod_of_dvd _ hdvd, ← Nat.mul_mod, ← Nat.add_mod]

/-- The ring index counts whole periods modulo 8. -/
theorem ringOf_phaseAfter (p d : U32) (n : Nat) :
    ringOf (phaseAfter p d n) = ringOf p + BitVec.ofNat 3 (periodsPassed p d n) := by
  apply BitVec.eq_of_toNat_eq
  have := phaseAfter_mod p d n
  rw [BitVec.toNat_add, ringOf_toNat, ringOf_toNat, BitVec.toNat_ofNat]
  unfold periodsPassed
  generalize n * d.toNat = y at *
  omega

theorem periodsPassed_zero (p d : U32) : periodsPassed p d 0 = 0 := by
  unfold periodsPassed
  omega

theorem periodsPassed_mono (p d : U32) {m n : Nat} (h : m ≤ n) : periodsPassed p d m ≤ periodsPassed p d n := by
  unfold periodsPassed
  have := Nat.mul_le_mul_right d.toNat h
  omega

/-- A rotation is an advance of at least one slot. -/
theorem rotated_iff (p d : U32) : rotated p (p + d) = true ↔ 0 < slotsAdvanced p (p + d) := by
  unfold rotated slotsAdvanced
  rw [bne_iff_ne]
  constructor
  · intro hne
    by_contra h0
    apply hne
    have h : ringOf (p + d) - ringOf p = 0#3 := BitVec.eq_of_toNat_eq (by simpa using h0)
    have := BitVec.sub_add_cancel (ringOf (p + d)) (ringOf p)
    simp_all
  · intro h0 e
    rw [e] at h0
    simp at h0

theorem canRotate_iff (d : U32) : canRotate d = true ↔ d.toNat % 2 ^ 28 ≠ 0 := by
  unfold canRotate
  rw [bne_iff_ne, Ne, Ne, ← BitVec.toNat_inj]
  simp [BitVec.extractLsb'_toNat]

/-- Adding on a ring. -/
theorem ring_add_add (r : RingIx) (j k : Nat) :
    r + BitVec.ofNat 3 j + BitVec.ofNat 3 k = r + BitVec.ofNat 3 ((j + k) % 8) := by
  apply BitVec.eq_of_toNat_eq
  simp only [BitVec.toNat_add, BitVec.toNat_ofNat]
  omega

end Sys2Proof.Machine
end

