-- ==== Sys2Proof/Laws/Ratio.lean ====
section
/-! SUPPORT. Ratio control: what the shared operation can answer, and that `EXP2_12` is the free function. -/

namespace Sys2Proof.Machine

/-- The written-out points agree with the free function (rule R114 (ii)). -/
theorem exp2Of_eq (s : Sample) : exp2Of s = Config.exp2_12.value s := by
  unfold exp2Of
  split
  · next v h =>
    have hmem : (s, v) ∈ Config.exp2ExactPoints := by
      revert h
      generalize Config.exp2ExactPoints = l
      induction l with
      | nil => simp
      | cons p l ih =>
        obtain ⟨a, w⟩ := p
        rw [List.lookup_cons]
        by_cases hsa : s = a
        · subst hsa; simp only [beq_self_eq_true, Option.some.injEq]; rintro rfl; exact List.mem_cons_self ..
        · have : (s == a) = false := by simpa using hsa
          simp only [this]
          exact fun h => List.mem_cons_of_mem _ (ih h)
    exact (Config.exp2_12.exact _ hmem).symm
  · rfl

/-- Every envelope holds the ratio that `RESET` leaves (rules R34, R240). -/
theorem admitted_one (e : Config.Envelope) : admitted e oneSample = true := by
  obtain ⟨h1, h2⟩ := e.holdsOne
  have hm : magUnits oneSample = 2 ^ 149 := by decide +kernel
  have hf : isFinite oneSample = true := by decide
  have hs : signBit oneSample = false := by decide
  unfold admitted
  rw [hm, hf, hs]
  simp only [Bool.not_false, Bool.true_and, Bool.and_eq_true, decide_eq_true_eq]
  rw [Nat.mul_comm (2 ^ 149) e.loDen, Nat.mul_comm (2 ^ 149) e.hiDen]
  exact ⟨Nat.mul_le_mul_right _ h1, Nat.mul_le_mul_right _ h2⟩

/-- The one next state of the common part of `SET_RATIO` and `TRANSPOSE` (rules R88, R110, R111). -/
theorem applyRatio_eq_next {q : Sample} {s t : State} :
    applyRatio q s = .next t ↔ admitted s.envelope q = true ∧
      t = setMode (modeCheck s.mode (deltaUpOf q) (deltaDownOf q)) (loadRatio q s) := by
  unfold applyRatio
  split
  · next h => simp [h, eq_comm]
  · next h => simp [h]

/-- Its one refusal (rule R88). -/
theorem applyRatio_eq_refused {q : Sample} {s : State} {r : Refusal} :
    applyRatio q s = .refused r ↔ admitted s.envelope q = false ∧ r = .ratioOutsideEnvelope := by
  unfold applyRatio
  split
  · next h => simp [h]
  · next h => simp [h, eq_comm]

theorem applyRatio_ne_fault (q : Sample) (s : State) (f : Fault) : applyRatio q s ≠ .fault f := by
  unfold applyRatio
  split <;> simp

/-- `TRANSPOSE` in terms of `SET_RATIO` (rule R113). -/
theorem execTranspose_of_finite {x : Sample} (h : isFinite x = true) (s : State) :
    execTranspose x s = execSetRatio (Config.exp2_12.value x) s := by
  unfold execTranspose execSetRatio
  rw [if_pos h, exp2Of_eq]

theorem execTranspose_of_not_finite {x : Sample} (h : isFinite x = false) (s : State) :
    execTranspose x s = .refused .ratioOutsideEnvelope := by
  unfold execTranspose
  simp [h]

end Sys2Proof.Machine
end

