-- ==== Sys2Proof/Laws/Transition.lean ====
section
/-! SUPPORT. What the two crossfade operations do, said in terms of the engines they run. -/

namespace Sys2Proof.Machine

/-! ### The blend -/

theorem blendBlock_foldl_get (d : Nat) (dst tmp : Block) : ∀ (l : List (Fin 8)) (out : Block), l.Nodup →
    ∀ (n : Nat) (h : n < 16),
      (l.foldl (fun o j => o.setIfInBounds (Config.xfadeKeep + j.val) (blendSample d dst tmp j)) out)[n] =
        if h8 : 8 ≤ n ∧ (⟨n - 8, by omega⟩ : Fin 8) ∈ l then blendSample d dst tmp ⟨n - 8, by omega⟩ else out[n] := by
  intro l
  induction l with
  | nil => intro out _ n h; simp
  | cons j l ih =>
    intro out hl n h
    rw [List.nodup_cons] at hl
    rw [List.foldl_cons, ih _ hl.2 n h]
    by_cases hn : 8 ≤ n ∧ (⟨n - 8, by omega⟩ : Fin 8) ∈ l
    · rw [dif_pos hn, dif_pos ⟨hn.1, List.mem_cons_of_mem _ hn.2⟩]
    · rw [dif_neg hn, Vector.getElem_setIfInBounds]
      by_cases hj : Config.xfadeKeep + j.val = n
      · have e : (⟨n - 8, by have := j.isLt; simp only [Config.xfadeKeep] at hj; omega⟩ : Fin 8) = j := by
          apply Fin.ext
          simp only [Config.xfadeKeep] at hj
          show n - 8 = j.val
          omega
        have h8 : 8 ≤ n := by simp only [Config.xfadeKeep] at hj; omega
        rw [if_pos hj, dif_pos ⟨h8, by rw [e]; exact List.mem_cons_self ..⟩, e]
      · rw [if_neg hj]
        have : ¬ (8 ≤ n ∧ (⟨n - 8, by omega⟩ : Fin 8) ∈ j :: l) := by
          rintro ⟨h8, hm⟩
          rcases List.mem_cons.1 hm with e | hm
          · exact hj (by rw [← e]; show 8 + (n - 8) = n; omega)
          · exact hn ⟨h8, hm⟩
        rw [dif_neg this]

/-- The blend keeps the first eight slots (rule R168). -/
theorem blendBlock_keep (d : Nat) (dst tmp : Block) (n : Nat) (h : n < 8) : (blendBlock d dst tmp)[n] = dst[n] := by
  rw [blendBlock, blendBlock_foldl_get _ _ _ _ _ (by decide), dif_neg (by omega)]

/-- The blend cross-fades the last eight slots (rule R168). -/
theorem blendBlock_fade (d : Nat) (dst tmp : Block) (j : Fin 8) :
    (blendBlock d dst tmp)[8 + j.val] = blendSample d dst tmp j := by
  have hj := j.isLt
  have e : (⟨8 + j.val - 8, by omega⟩ : Fin 8) = j := Fin.ext (by show 8 + j.val - 8 = j.val; omega)
  have hm : j ∈ taps := by revert j; decide
  rw [blendBlock, blendBlock_foldl_get _ _ _ _ _ (by decide), dif_pos ⟨by omega, by rw [e]; exact hm⟩]
  congr 1

/-! ### The two operations -/

/-- `UP2DOWN16(c)` completes exactly when its two passes do (rule R164). -/
theorem runUp2down_eq_ok {s t : State} {c c' : Nat} :
    runUp2down c s = .ok (c', t) ↔ ∃ c₁ u v, runUp c .dst s = .ok (c₁, u) ∧
      runDown c .tmp (clearOutputAccum (setMode .down (complementPhase u))) = .ok (c', v) ∧ t = blend v := by
  unfold runUp2down
  rw [bind_eq_ok]
  constructor
  · rintro ⟨⟨c₁, u⟩, h1, h⟩
    rw [bind_eq_ok] at h
    obtain ⟨⟨c₂, v⟩, h2, h⟩ := h
    simp only [Except.ok.injEq, Prod.mk.injEq] at h
    obtain ⟨rfl, rfl⟩ := h
    exact ⟨c₁, u, v, h1, h2, rfl⟩
  · rintro ⟨c₁, u, v, h1, h2, rfl⟩
    refine ⟨(c₁, u), h1, ?_⟩
    rw [bind_eq_ok]
    exact ⟨(c', v), h2, rfl⟩

/-- `DOWN2UP16(c)` completes exactly when its two passes do (rule R165). -/
theorem runDown2up_eq_ok {s t : State} {c c' : Nat} :
    runDown2up c s = .ok (c', t) ↔ ∃ c₁ u v, runDown c .dst s = .ok (c₁, u) ∧
      runUp c .tmp (clearInputRing (setMode .up (complementPhase u))) = .ok (c', v) ∧ t = blend v := by
  unfold runDown2up
  rw [bind_eq_ok]
  constructor
  · rintro ⟨⟨c₁, u⟩, h1, h⟩
    rw [bind_eq_ok] at h
    obtain ⟨⟨c₂, v⟩, h2, h⟩ := h
    simp only [Except.ok.injEq, Prod.mk.injEq] at h
    obtain ⟨rfl, rfl⟩ := h
    exact ⟨c₁, u, v, h1, h2, rfl⟩
  · rintro ⟨c₁, u, v, h1, h2, rfl⟩
    refine ⟨(c₁, u), h1, ?_⟩
    rw [bind_eq_ok]
    exact ⟨(c', v), h2, rfl⟩

end Sys2Proof.Machine
end

