-- ==== Sys2Proof/Tests/Slice0.lean ====
section
/-! SUPPORT. Tests whose expected results come from spec/ (95_test_vectors.md and the rules named), then a witness for the
hypotheses of every statement. -/

namespace Sys2Proof.Tests

open Sys2Proof Sys2Proof.Machine

/-! ### Helpers -/

/-- Did the operation complete? -/
def isNext (o : Host.Outcome State Fault Refusal) : Bool :=
  match o with
  | .next _ => true
  | .fault _ => false
  | .refused _ => false

/-- The next state, or `d` where there is none. -/
def nextOr (d : State) (o : Host.Outcome State Fault Refusal) : State :=
  match o with
  | .next t => t
  | .fault _ => d
  | .refused _ => d

/-- Are two answers the same? -/
def same (o p : Host.Outcome State Fault Refusal) : Bool :=
  match o, p with
  | .next s, .next t => decide (s = t)
  | .fault f, .fault g => decide (f = g)
  | .refused q, .refused r => decide (q = r)
  | _, _ => false

theorem eq_of_same {o p : Host.Outcome State Fault Refusal} (h : same o p = true) : o = p := by
  cases o <;> cases p <;> simp_all [same]

theorem exists_next {o : Host.Outcome State Fault Refusal} (h : isNext o = true) : ∃ t, o = .next t := by
  cases o with
  | next t => exact ⟨t, rfl⟩
  | fault f => simp [isNext] at h
  | refused r => simp [isNext] at h

/-- The small integer `n` as a sample. -/
def int (n : Nat) : Sample := rn32 false n 1

/-- `ROM_SEL3` (95_test_vectors.md): tap 3 is 1.0, every other tap +0.0. -/
def romSel3 : Config.RomImage where
  cells := Vector.replicate 257 #v[0#32, 0#32, 0#32, 0x3F800000#32, 0#32, 0#32, 0#32, 0#32]
  finite := by
    intro i k
    simp only [Fin.getElem_fin, Vector.getElem_replicate]
    revert i k
    decide +kernel

/-- `ROM_ONE` (95_test_vectors.md): every entry 1.0. -/
def romOne : Config.RomImage where
  cells := Vector.replicate 257 (Vector.replicate 8 0x3F800000#32)
  finite := by
    intro i k
    simp only [Fin.getElem_fin, Vector.getElem_replicate]
    decide

/-- `ROM_LIN` (95_test_vectors.md): taps 3 and 4 are `(256 − i)/256` and `i/256`. -/
def linRow (i : Nat) : Vector Sample 8 :=
  #v[0#32, 0#32, 0#32, rn32 false (256 - i) 256, rn32 false i 256, 0#32, 0#32, 0#32]

def romLin : Config.RomImage where
  cells := Vector.ofFn (fun i : Fin 257 => linRow i.val)
  finite := by
    intro i k
    simp only [Fin.getElem_fin, Vector.getElem_ofFn]
    revert i k
    decide +kernel

/-- `SRC[c] = c + 1` for the first `n` cursors. -/
def ramp (n : Nat) : Memory := (List.range n).map (fun c => (c, int (c + 1)))

/-- The reset state with a test ROM and a ramp to read. -/
def start (rom : Config.RomImage) : State := { State.reset with rom := rom, src := ramp 40 }

/-- The same at ratio 2.0, in a mode (95_test_vectors.md section 3). -/
def atTwo (m : Mode) (rom : Config.RomImage) : State :=
  { start rom with
    ratio := 0x40000000#32, downscale := 0x3F000000#32, deltaUp := 0x04000000#32, deltaDown := 0x01000000#32, mode := m }

/-- The same at ratio 0.5. -/
def atHalf (m : Mode) (rom : Config.RomImage) : State :=
  { start rom with
    ratio := 0x3F000000#32, downscale := 0x40000000#32, deltaUp := 0x01000000#32, deltaDown := 0x04000000#32, mode := m }

/-- The reset state with one command on the port, in a mode. -/
def commanded (m : Mode) (cmd : BitVec 3) (arg : Nat) : State :=
  { State.reset with mode := m, inputs := [.command cmd arg] }

/-! ### Well-formedness -/

/-- Rule R92: a reserved command has `cmd[2] = 1`; terms with the code of another operation stand for no word. -/
theorem test_illformed_reserved : [0b000#3, 0b001#3, 0b010#3, 0b011#3].map (fun c => WellFormed 32 (.reserved c)) =
    [false, false, false, false] := by decide

/-- Rule R90: a cursor has `CURSOR_W` bits. -/
theorem test_illformed_cursor : [Instr.up16 (2 ^ 32), .down16 (2 ^ 32), .up2down16 (2 ^ 40), .down2up16 (2 ^ 32)].map
    (WellFormed 32) = [false, false, false, false] ∧ WellFormed 33 (.up16 (2 ^ 32)) = true := by decide

theorem test_wellformed_reserved : [0b100#3, 0b101#3, 0b110#3, 0b111#3].map (fun c => WellFormed 32 (.reserved c)) =
    [true, true, true, true] := by decide

/-! ### Decoding: words written out from rules R90 and R91 -/

/-- `000 xx`: `RESET`, argument ignored. -/
theorem test_decode_reset : decode 32 [0b000_000_11#8, 0xEF#8, 0xBE#8, 0xAD#8, 0xDE#8] = .instr .reset [] := by decide

/-- `001 xx` with 2.0 = `0x40000000`. -/
theorem test_decode_setRatio :
    decode 32 [0b000_001_01#8, 0x00#8, 0x00#8, 0x00#8, 0x40#8] = .instr (.setRatio 0x40000000#32) [] := by decide

/-- `010 xx` with −12.0 = `0xC1400000`. -/
theorem test_decode_transpose :
    decode 32 [0b000_010_10#8, 0x00#8, 0x00#8, 0x40#8, 0xC1#8] = .instr (.transpose 0xC1400000#32) [] := by decide

/-- `011 00`, cursor `0x12345678`. -/
theorem test_decode_up16 :
    decode 32 [0b000_011_00#8, 0x78#8, 0x56#8, 0x34#8, 0x12#8] = .instr (.up16 0x12345678) [] := by decide

/-- `011 01`. -/
theorem test_decode_down16 :
    decode 32 [0b000_011_01#8, 0x78#8, 0x56#8, 0x34#8, 0x12#8] = .instr (.down16 0x12345678) [] := by decide

/-- `011 10`. -/
theorem test_decode_up2down16 :
    decode 32 [0b000_011_10#8, 0x78#8, 0x56#8, 0x34#8, 0x12#8] = .instr (.up2down16 0x12345678) [] := by decide

/-- `011 11`. -/
theorem test_decode_down2up16 :
    decode 32 [0b000_011_11#8, 0x78#8, 0x56#8, 0x34#8, 0x12#8] = .instr (.down2up16 0x12345678) [] := by decide

/-- `1xx xx`: each reserved code, whatever the mode bits. -/
theorem test_decode_reserved :
    [0b000_100_00#8, 0b000_101_01#8, 0b000_110_10#8, 0b000_111_11#8].map (fun b => decode 32 [b, 0#8, 0#8, 0#8, 0#8]) =
      [.instr (.reserved 0b100#3) [], .instr (.reserved 0b101#3) [], .instr (.reserved 0b110#3) [],
       .instr (.reserved 0b111#3) []] := by decide

/-- The layout of log entry 17: a stray bit, a short command, and the bytes after a command. -/
theorem test_decode_rejects :
    decode 32 [0b001_000_00#8, 0#8, 0#8, 0#8, 0#8] = .reject .strayBits ∧ decode 32 [0#8, 0#8, 0#8, 0#8] = .reject .truncated ∧
    decode 32 [0#8, 0#8, 0#8, 0#8, 0#8, 7#8] = .instr .reset [7#8] := by decide

/-- Rules R90 and R92 for other values of `CURSOR_W`: a narrow cursor ignores the bits above it, a wide one has a wider
argument, of which `SET_RATIO` ignores what stands above bit 31. -/
theorem test_decode_other_widths :
    decode 16 [0b000_011_00#8, 0x78#8, 0x56#8, 0x34#8, 0x12#8] = .instr (.up16 0x5678) [] ∧
    decode 40 [0b000_011_01#8, 0x78#8, 0x56#8, 0x34#8, 0x12#8, 0x9A#8] = .instr (.down16 0x9A12345678) [] ∧
    decode 40 [0b000_001_00#8, 0x00#8, 0x00#8, 0x80#8, 0x3F#8, 0xFF#8] = .instr (.setRatio 0x3F800000#32) [] ∧
    decode 33 [0b000_011_00#8, 0x00#8, 0x00#8, 0x00#8, 0x00#8, 0x02#8] = .reject .strayBits := by decide

/-- The table's rows by number: patterns `0`, `4`, `8`, `12` to `15`, `16`. -/
theorem test_decodeTableWord : [0, 4, 8, 12, 13, 14, 15, 16].map (decodeTableWord 8) =
    [some .reset, some (.setRatio 0), some (.transpose 0), some (.up16 0), some (.down16 0), some (.up2down16 0),
     some (.down2up16 0), some (.reserved 0b100#3)] := by decide

/-! ### Phase fields and integer arithmetic (95_test_vectors.md section 2) -/

theorem test_phase_fields : carryOf 0x12345678#32 = 1#4 ∧ ringOf 0x12345678#32 = 1#3 ∧ tabOf 0x12345678#32 = 26#8 ∧
    fracOf 0x12345678#32 = 0x05678#17 ∧ (complementPhase { State.reset with phase := 0x12345678#32 }).phase = 0xEDCBA987#32 := by
  decide

theorem test_ring_advance : slotsAdvanced 0xFFFF0000#32 0x01FF0000#32 = 1 ∧ slotsAdvanced 0x00000000#32 0x0E000000#32 = 7 ∧
    slotsAdvanced 0x0E000000#32 0x10000000#32 = 1 := by decide

/-- 95_test_vectors.md section 4: rows 255 and 256 of phase `0x03FE0000`. -/
theorem test_rom_addresses : romAddress (rowIndex 0x03FE0000#32) 0 = 0x7F8#12 ∧
    romAddress (nextRowIndex 0x03FE0000#32) 0 = 0x800#12 ∧ (rowIndex 0x12345678#32).val = 26 := by decide

/-! ### Conversions and sample arithmetic (95_test_vectors.md sections 3 and 9) -/

theorem test_conversions_least : deltaUpOf 0x3E124925#32 = 0x00492492#32 ∧ deltaDownOf 0x3E124925#32 = 0x0DFFFFF5#32 ∧
    downscaleOf 0x3E124925#32 = 0x40DFFFFF#32 := by decide

theorem test_conversions_above_one : deltaUpOf 0x3F87A7F0#32 = 0x021E9FC0#32 ∧ deltaDownOf 0x3F87A7F0#32 = 0x01E31AB3#32 ∧
    downscaleOf 0x3F87A7F0#32 = 0x3F718D5A#32 := by decide

theorem test_add_ties_to_even : addS 0 0x4B800000#32 (int 1) = 0x4B800000#32 ∧ addS 0 0x4B800000#32 (int 2) = 0x4B800001#32 ∧
    addS 0 0x4B800000#32 (int 3) = 0x4B800002#32 ∧ addS 0 0x3DCCCCCD#32 0x3E4CCCCD#32 = 0x3E99999A#32 := by decide

theorem test_mul_subnormals : mulS 0 0x00800000#32 0x3F000000#32 = 0x00400000#32 ∧
    mulS 0 0x00000001#32 0x3F000000#32 = 0x00000000#32 ∧ mulS 0 0x00000003#32 0x3F000000#32 = 0x00000002#32 ∧
    mulS 0 0x7F7FFFFF#32 0x40000000#32 = 0x7F800000#32 := by decide

theorem test_fracS : fracS 1 = 0x37000000#32 ∧ fracS 0x10000 = 0x3F000000#32 ∧ fracS 0x1FFFF = 0x3F7FFF80#32 ∧
    fracS 0x20000 = 0x3F800000#32 := by decide

/-- 95_test_vectors.md U-h. -/
theorem test_interpolate : interpolate 0 (fracS 1) (int 1) (int 2) = 0x3F800040#32 ∧
    interpolate 0 (fracS 0x1FFFF) (int 1) (int 2) = 0x3FFFFFC0#32 := by decide

/-- 95_test_vectors.md T-d, rows 1 and 4: slots 8 and 15 of the blend. -/
theorem test_blend :
    (blendBlock 0 (Vector.replicate 16 (int 1)) (Vector.replicate 16 0#32))[8] = 0x3F638E39#32 ∧
    (blendBlock 0 (Vector.replicate 16 0xBF800000#32) (Vector.replicate 16 (int 1)))[15] = 0x3F471C72#32 := by
  decide +kernel

/-! ### One step of each row -/

/-- Rule R240: `RESET` with a transition pending. -/
theorem test_reset : exec .reset (atTwo .up2down romSel3) = .next (start romSel3) := rfl

/-- `SET_RATIO` where its conversions are known; the ROM and the memories stay out of the computation. -/
theorem setRatio_gives {s : State} {q ds : Sample} {dU dD : U32} {m : Mode} (ha : admitted s.envelope q = true)
    (h1 : downscaleOf q = ds) (h2 : deltaUpOf q = dU) (h3 : deltaDownOf q = dD) (hm : modeCheck s.mode dU dD = m) :
    exec (.setRatio q) s = .next { s with ratio := q, downscale := ds, deltaUp := dU, deltaDown := dD, mode := m } := by
  subst h1 h2 h3 hm
  exact applyRatio_eq_next.2 ⟨ha, rfl⟩

/-- 40_ratio_control.md rule R110, the worked example, and the table's `DOWN` row at 0.5. -/
theorem test_setRatio : exec (.setRatio 0x40000000#32) (start romSel3) = .next (atTwo .up2down romSel3) ∧
    exec (.setRatio 0x3F000000#32) (atTwo .down romSel3) = .next (atHalf .down2up romSel3) :=
  ⟨setRatio_gives (by decide +kernel) (by decide +kernel) (by decide +kernel) (by decide +kernel) (by decide),
    setRatio_gives (by decide +kernel) (by decide +kernel) (by decide +kernel) (by decide +kernel) (by decide)⟩

/-- 95_test_vectors.md section 10: the refused operands. -/
theorem test_setRatio_refused : [0x41000000#32, 0x40E00001#32, 0x3E124924#32, 0x3E000000#32, 0x00000000#32, 0x80000000#32,
    0xBF800000#32, 0x00000001#32, 0x7F800000#32, 0x7FC00000#32].all
      (fun q => same (exec (.setRatio q) State.reset) (.refused .ratioOutsideEnvelope)) = true := by decide +kernel

/-- 40_ratio_control.md rule R113, the worked example: an octave up is ratio 2.0. -/
theorem test_transpose : exec (.transpose 0x41400000#32) (start romSel3) = .next (atTwo .up2down romSel3) := by
  have h : exp2Of 0x41400000#32 = 0x40000000#32 := by decide +kernel
  simp only [exec, execTranspose, h]
  exact setRatio_gives (by decide +kernel) (by decide +kernel) (by decide +kernel) (by decide +kernel) (by decide)

/-- Rule R88 with other bounds: 1/8 to 8 admits both its ends and nothing above them. -/
def wider : Config.Envelope where
  loNum := 1
  loDen := 8
  hiNum := 8
  hiDen := 1
  holdsOne := by decide
  fits := by decide

theorem test_setRatio_other_envelope :
    isNext (exec (.setRatio 0x41000000#32) { State.reset with envelope := wider }) = true ∧
    isNext (exec (.setRatio 0x3E000000#32) { State.reset with envelope := wider }) = true ∧
    same (exec (.setRatio 0x41000001#32) { State.reset with envelope := wider }) (.refused .ratioOutsideEnvelope) = true ∧
    same (exec (.setRatio 0x3DFFFFFF#32) { State.reset with envelope := wider }) (.refused .ratioOutsideEnvelope) = true := by
  decide +kernel

theorem test_transpose_refused : exec (.transpose 0x7FC00000#32) State.reset = .refused .ratioOutsideEnvelope ∧
    exec (.transpose 0x7F800000#32) State.reset = .refused .ratioOutsideEnvelope :=
  ⟨eq_of_same (by decide +kernel), eq_of_same (by decide +kernel)⟩

/-- Program P1, line 2. -/
theorem test_up16 :
    let t := nextOr State.reset (exec (.up16 0) (start romSel3))
    t.dst.toList = [0, 0, 0, 0, 1, 2, 3, 4, 5, 6, 7, 8, 9, 10, 11, 12].map int ∧ t.response = some 16 ∧
    t.phase = 0x20000000#32 ∧ t.inputRing.toList = [9, 10, 11, 12, 13, 14, 15, 16].map int := by decide +kernel

/-- 95_test_vectors.md U-e: every step reads the sentinel row. -/
theorem test_up16_sentinel_row :
    let t := nextOr State.reset (exec (.up16 0) { start romLin with phase := 0x03FE0000#32 })
    t.dst[3] = 0x3F7F0000#32 ∧ t.dst[15] = 0x414FF000#32 ∧ t.phase = 0x23FE0000#32 ∧
    t.inputRing.toList = [16, 9, 10, 11, 12, 13, 14, 15].map int := by decide +kernel

/-- 95_test_vectors.md D-b. -/
theorem test_down16 :
    let t := nextOr State.reset (exec (.down16 0) (atTwo .down romSel3))
    t.dst[2] = 0x00000000#32 ∧ t.dst[3] = 0x3FC00000#32 ∧ t.dst[15] = 0x41CC0000#32 ∧ t.response = some 32 ∧
    t.phase = 0x20000000#32 ∧ t.outputAccum[0] = 0x41DC0000#32 ∧ t.outputAccum[3] = 0x00000000#32 := by decide +kernel

/-- 95_test_vectors.md D-d: the rounded sums at ratio 1.5. -/
theorem test_down16_rounding :
    let t := nextOr State.reset (exec (.down16 0)
      { start romLin with mode := .down, deltaDown := 0x01555555#32, downscale := 0x3F2AAAAB#32 })
    t.dst[7] = 0x40F8E390#32 ∧ t.dst[15] = 0x41A8E38E#32 ∧ t.response = some 25 ∧ t.phase = 0x2155554D#32 ∧
    t.outputAccum[3] = 0x41AFFFFD#32 := by decide +kernel

/-- Program P6, line 3. -/
theorem test_up2down16 :
    let t := nextOr State.reset (exec (.up2down16 0) (atTwo .up2down romSel3))
    t.mode = .down ∧ t.phase = 0xDEFFFFFF#32 ∧ t.response = some 31 ∧ t.dst[7] = int 12 ∧ t.dst[8] = 0x4159C71C#32 ∧
    t.dst[15] = 0x41C71C72#32 ∧ t.inputRing[0] = int 25 ∧ t.outputAccum[7] = 0x41D40000#32 := by decide +kernel

/-- Program P4, line 8, from the state that its line 7 leaves. -/
theorem test_down2up16 :
    let t := nextOr State.reset (exec (.down2up16 48)
      { atHalf .down2up romSel3 with
        src := (List.range 16).map (fun i => (48 + i, int (49 + i))), phase := 0x4FFFFFFF#32
        outputAccum := #v[int 544, 0#32, int 496, 0#32, int 512, 0#32, int 528, 0#32] })
    t.mode = .up ∧ t.phase = 0x80000000#32 ∧ t.response = some 56 ∧ t.dst[8] = 0#32 ∧ t.dst[9] = 0x412E38E4#32 ∧
    t.dst[15] = 0x4238E38E#32 ∧ t.inputRing[0] = int 49 ∧
    t.outputAccum.toList = [1008, 0, 936, 0, 960, 0, 984, 0].map int := by decide +kernel

/-- 30_encoding.md rule R92. -/
theorem test_reserved : [0b100#3, 0b101#3, 0b110#3, 0b111#3].all
    (fun c => same (exec (.reserved c) State.reset) (.refused .reservedCommand)) = true := by decide +kernel

/-- 46_numerics.md rule R199, the summation-order vector of 95_test_vectors.md section 9. -/
theorem test_summation_order :
    let t := nextOr State.reset (exec (.up16 0)
      { State.reset with
        rom := romOne, phase := 0x0E000000#32, src := (List.range 16).map (fun c => (c, int 1))
        inputRing := #v[0x4B800000#32, int 1, int 1, int 1, int 1, int 1, int 1, int 99] })
    t.dst[0] = 0x4B800000#32 ∧ t.dst[1] = 0x41000000#32 ∧ t.phase = 0x2E000000#32 := by decide +kernel

/-! ### Stuck, idle, and the host's moves -/

/-- 20_memory.md rule R60: the sixteenth sample is not readable. -/
theorem test_stuck : exec (.up16 0) { start romSel3 with srcValid := [⟨0, 15⟩] } = .fault .sourceReadOutsideValid :=
  eq_of_same (by decide +kernel)

/-- 43_downsampler.md rule R158: a delta that never rotates the ring. -/
theorem test_never_rotates : exec (.down16 0) { start romSel3 with deltaDown := 0x00000000#32 } =
    .fault .downNeverRotates := eq_of_same (by decide +kernel)

/-- A step runs the row that `mode` selects (rule R91). -/
theorem test_step_dispatches : step (commanded .up2down 0b011#3 0) = exec (.up2down16 0)
    { State.reset with mode := .up2down } := by rfl

/-- The canonical form of `SRC`: writing what an unlisted cursor reads as removes the entry. -/
theorem test_memory_canonical : (((ramp 3).write 1 0#32).write 5 (int 9)) = [(0, int 1), (2, int 3), (5, int 9)] ∧
    (ramp 40).wf 32 = true := by decide +kernel

/-- Rule R59: the cursor wraps modulo `2^32`. -/
theorem test_window_wraps : cursorValid 32 [⟨0xFFFFFFFF, 2⟩] 0 = true ∧ cursorValid 32 [⟨0xFFFFFFFF, 2⟩] 1 = false := by
  decide

/-- Rule R59 with a cursor of four bits: sixteen samples from cursor 8 on wrap and end at 8 again. -/
theorem test_cursor_wraps :
    let t := nextOr State.reset (exec (.up16 8) { start romSel3 with cursorW := 4, srcValid := [⟨0, 16⟩], src := ramp 16 })
    t.response = some 8 ∧ sourceCursors t.accesses = [8, 9, 10, 11, 12, 13, 14, 15, 0, 1, 2, 3, 4, 5, 6, 7] ∧
    t.dst[15] = int 4 := by decide +kernel

/-- The host's look at the first instruction after reset: the row of the word runs (log entry 18). -/
theorem test_withFetchWord : [0, 8, 12, 13, 14, 15].map (fun w => isNext (step (State.reset.withFetchWord 8 w))) =
    [true, true, true, true, true, true] ∧
    same (step (State.reset.withFetchWord 8 4)) (.refused .ratioOutsideEnvelope) = true ∧
    isNext (step (State.reset.withFetchWord 40 0x3F80000004)) = true ∧
    same (step (State.reset.withFetchWord 8 16)) (.refused .reservedCommand) = true := by decide +kernel


/-! ### Witnesses: a state and operands that meet the hypotheses of each statement -/

theorem all_valid {s : State} (h : s.srcValid = State.reset.srcValid) (hw : s.cursorW = 32) : AllValid s := by
  intro c
  rw [h, hw]
  simp only [cursorValid, State.reset, List.any_cons, List.any_nil, Bool.or_false, Window.covers, decide_eq_true_eq]
  exact Nat.mod_lt _ (by decide)

theorem window_valid {s : State} (h : s.srcValid = State.reset.srcValid) (hw : s.cursorW = 32) (c n : Nat) :
    WindowValid s c n := fun j _ => all_valid h hw (c + j)

theorem within_default : WithinDefault Config.defaultEnvelope := ⟨by decide, by decide⟩

theorem value_of {x : Sample} {n : Bool} {e f : Nat} (hn : signBit x = n) (he : (expField x).toNat = e) (h0 : e ≠ 0)
    (hf : (fractionField x).toNat = f) : sampleValue x = (if n then -1 else 1) * (((2 : ℚ) ^ 23 + f) * 2 ^ e / 2 ^ 150) := by
  have h : expField x ≠ 0#8 := fun h => h0 (by rw [← he, h]; rfl)
  rw [sampleValue, if_neg h, hn, he, hf]

theorem value_seven : sampleValue 0x40E00000#32 = 7 := by
  rw [value_of (n := false) (e := 129) (f := 6291456) (by decide) (by decide) (by decide) (by decide)]
  norm_num

theorem value_least : sampleValue 0x3E124925#32 = 9586981 / 2 ^ 26 := by
  rw [value_of (n := false) (e := 124) (f := 1198373) (by decide) (by decide) (by decide) (by decide)]
  norm_num

theorem value_eight : sampleValue 0x41000000#32 = 8 := by
  rw [value_of (n := false) (e := 130) (f := 0) (by decide) (by decide) (by decide) (by decide)]
  norm_num

theorem value_two : sampleValue 0x40000000#32 = 2 := by
  rw [value_of (n := false) (e := 128) (f := 0) (by decide) (by decide) (by decide) (by decide)]
  norm_num

theorem value_half : sampleValue 0x3F000000#32 = 1 / 2 := by
  rw [value_of (n := false) (e := 126) (f := 0) (by decide) (by decide) (by decide) (by decide)]
  norm_num

theorem value_24 : sampleValue 0x41C00000#32 = 24 := by
  rw [value_of (n := false) (e := 131) (f := 4194304) (by decide) (by decide) (by decide) (by decide)]
  norm_num

theorem value_neg24 : sampleValue 0xC1C00000#32 = -24 := by
  rw [value_of (n := true) (e := 131) (f := 4194304) (by decide) (by decide) (by decide) (by decide)]
  norm_num

theorem witness_DispatchWords : (commanded .down 0b011#3 7).inputs = .command 0b011#3 7 :: [] := rfl

theorem witness_DecodeOfEncode : WellFormed 32 (.reserved 0b100#3) = true ∧ WellFormed 32 (.up16 0xFFFFFFFF) = true := by decide

/-- A row that keeps 32 bits of its argument, one that keeps the cursor, and two that keep none. -/
theorem witness_EncodeOfDecode : (0b00111#5).extractLsb' 2 3 = 0b001#3 ∧ (0b01011#5).extractLsb' 2 3 = 0b010#3 ∧
    (0b01111#5).extractLsb' 2 3 = 0b011#3 ∧ (0b00011#5).extractLsb' 2 3 = 0b000#3 ∧ (0b10000#5).extractLsb' 4 1 = 1#1 := by
  decide

/-- A set argument bit above `AW = 33`. -/
theorem witness_DecodeRejects_argument : ([0#8, 0#8, 0#8, 0#8, 0#8, 2#8] : List Byte) = 0#8 :: [0#8, 0#8, 0#8, 0#8, 2#8] ∧
    1 + (max 32 33 + 7) / 8 ≤ ([0#8, 0#8, 0#8, 0#8, 0#8, 2#8] : List Byte).length ∧
    2 ^ max 32 33 ≤ bytesValue (([0#8, 0#8, 0#8, 0#8, 2#8] : List Byte).take ((max 32 33 + 7) / 8)) := by decide

theorem witness_DecodeRejects_truncated : ([0xFF#8, 0#8, 0#8, 0#8] : List Byte).length < 5 := by decide

theorem witness_DecodeRejects_stray : ([0b001_00000#8, 0#8, 0#8, 0#8, 0#8] : List Byte) = 0b001_00000#8 :: [0#8, 0#8, 0#8, 0#8] ∧
    5 ≤ ([0b001_00000#8, 0#8, 0#8, 0#8, 0#8] : List Byte).length ∧ (0b001_00000#8).extractLsb' 5 3 ≠ 0#3 := by decide

theorem witness_DecodeRejects_instr : ([0b000_11111#8, 0#8, 0#8, 0#8, 0#8] : List Byte) = 0b000_11111#8 :: [0#8, 0#8, 0#8, 0#8] ∧
    5 ≤ ([0b000_11111#8, 0#8, 0#8, 0#8, 0#8] : List Byte).length ∧ (0b000_11111#8).extractLsb' 5 3 = 0#3 := by decide

theorem witness_StepRuns : (commanded .down2up 0b011#3 0x80000001).inputs = .command 0b011#3 0x80000001 :: [] ∧
    WellFormed 32 (.down2up16 0x80000001) = true ∧
    decode 32 ((0b011#3 ++ modeBits (commanded .down2up 0b011#3 0x80000001).mode).setWidth 8 :: argBytes 32 0x80000001) =
      .instr (.down2up16 0x80000001) [] := ⟨rfl, by decide, by decide⟩

theorem witness_Idle : State.reset.inputs = [] := rfl

theorem witness_HostWrite :
    ({ start romSel3 with inputs := [.writeSource 3 0#32] } : State).inputs = .writeSource 3 0#32 :: [] ∧
    ({ start romSel3 with inputs := [.writeSource 3 0#32] } : State).src.wf 32 = true := ⟨rfl, by decide +kernel⟩

theorem witness_CommandsWrite : (∃ t, step (commanded .down 0b011#3 0) = .next t) ∧
    (commanded .down 0b011#3 0).inputs = .command 0b011#3 0 :: [] := ⟨exists_next (by decide +kernel), rfl⟩

/-- Every clause of the transition table: `RESET`; `SET_RATIO` and `TRANSPOSE` in the four modes; `PROCESS16` in the four
modes; an input that is no command. -/
theorem witness_ModeFollows :
    (∃ t, step (commanded .down2up 0b000#3 0) = .next t) ∧
    (∀ m ∈ [Mode.up, .down, .up2down, .down2up], (∃ t, step (commanded m 0b001#3 0x3F7FFFFF) = .next t) ∧
      (∃ t, step (commanded m 0b010#3 0x41400000) = .next t) ∧ ∃ t, step (commanded m 0b011#3 0) = .next t) ∧
    ∃ t, step { State.reset with inputs := [.setValid []] } = .next t := by
  refine ⟨exists_next (by decide +kernel), ?_, exists_next (by decide +kernel)⟩
  intro m hm
  simp only [List.mem_cons, List.not_mem_nil, or_false] at hm
  rcases hm with rfl | rfl | rfl | rfl <;>
    exact ⟨exists_next (by decide +kernel), exists_next (by decide +kernel), exists_next (by decide +kernel)⟩

/-- Both sides of the list of refusals, for each of its three reasons. -/
theorem witness_Refusals :
    (step (commanded .up 0b100#3 0) = .refused .reservedCommand ∧ 4 ≤ (0b100#3).toNat) ∧
    (step (commanded .up 0b001#3 0x40E00001) = .refused .ratioOutsideEnvelope ∧ admitted Config.defaultEnvelope 0x40E00001#32 = false) ∧
    (step (commanded .up 0b010#3 0x7F800000) = .refused .ratioOutsideEnvelope ∧ isFinite 0x7F800000#32 = false) :=
  ⟨⟨eq_of_same (by decide +kernel), by decide⟩, ⟨eq_of_same (by decide +kernel), by decide +kernel⟩,
    eq_of_same (by decide +kernel), by decide⟩

theorem witness_Reserved : (commanded .up 0b100#3 5).inputs = .command 0b100#3 5 :: [] ∧ 4 ≤ (0b100#3).toNat :=
  ⟨rfl, by decide⟩

theorem inv_start (m : Mode) (ws : List Window) (i : List Input) :
    Inv { atTwo m romSel3 with srcValid := ws, inputs := i } :=
  ⟨(by decide +kernel : admitted Config.defaultEnvelope 0x40000000#32 = true), (by decide +kernel : 0x3F000000#32 = downscaleOf 0x40000000#32),
    (by decide +kernel : 0x04000000#32 = deltaUpOf 0x40000000#32),
    (by decide +kernel : 0x01000000#32 = deltaDownOf 0x40000000#32), (by decide +kernel : (ramp 40).wf 32 = true)⟩

theorem witness_EveryStepKeeps : Inv { atTwo .up2down romSel3 with inputs := [.command 0b011#3 0] } ∧
    ∃ t, step { atTwo .up2down romSel3 with inputs := [.command 0b011#3 0] } = .next t :=
  ⟨inv_start _ _ _, exists_next (by decide +kernel)⟩

/-- A host that keeps its duties: the operands at both ends of the envelope, a transposition by an octave, and blocks at either
end of the cursors, with exactly the 128 cursors from the entry cursor readable before each. -/
def dutifulInputs : List Input :=
  [.command 0b000#3 0, .command 0b001#3 0x3E124925, .command 0b001#3 0x40E00000, .command 0b010#3 0x41400000,
   .setValid [⟨0, 128⟩], .command 0b011#3 0, .writeSource 0 (int 7), .setValid [⟨0xFFFFFFFF, 128⟩],
   .command 0b011#3 0xFFFFFFFF]

theorem witness_Dutiful : Inv { atTwo .up romSel3 with srcValid := [], inputs := dutifulInputs } ∧
    WithinDefault (atTwo .up romSel3).envelope ∧ Dutiful Config.defaultEnvelope 32 [] dutifulInputs := by
  have h12 : Config.exp2_12.value 0x41400000#32 = 0x40000000#32 := Config.exp2_12.exact (0x41400000#32, 0x40000000#32)
    (by simp [Config.exp2ExactPoints])
  refine ⟨inv_start _ _ _, within_default, ⟨by decide, by decide, by decide, by decide, ?_⟩⟩
  refine ⟨by decide, by decide +kernel, by decide, by decide, by decide, by decide +kernel, by decide, by decide, ?_⟩
  refine ⟨by decide, by decide, fun _ => ⟨by decide, ?_⟩, by decide, ?_⟩
  · rw [show argSample 0x41400000 = 0x41400000#32 from rfl, h12]
    decide +kernel
  · exact ⟨by decide, by decide, by decide, by decide +kernel, by decide, by decide, by decide, by decide +kernel, trivial⟩

/-- The two ends of the envelope, and an operand above it. -/
theorem witness_SetRatio :
    (isFinite 0x40E00000#32 = true ∧ (State.reset.envelope.loNum : ℚ) / State.reset.envelope.loDen ≤ sampleValue 0x40E00000#32 ∧
      sampleValue 0x40E00000#32 ≤ (State.reset.envelope.hiNum : ℚ) / State.reset.envelope.hiDen) ∧
    (isFinite 0x3E124925#32 = true ∧ (State.reset.envelope.loNum : ℚ) / State.reset.envelope.loDen ≤ sampleValue 0x3E124925#32 ∧
      sampleValue 0x3E124925#32 ≤ (State.reset.envelope.hiNum : ℚ) / State.reset.envelope.hiDen) ∧
    ¬ (isFinite 0x41000000#32 = true ∧ (State.reset.envelope.loNum : ℚ) / State.reset.envelope.loDen ≤ sampleValue 0x41000000#32 ∧
      sampleValue 0x41000000#32 ≤ (State.reset.envelope.hiNum : ℚ) / State.reset.envelope.hiDen) := by
  rw [value_seven, value_least, value_eight]
  simp only [State.reset, Config.defaultEnvelope]
  refine ⟨⟨by decide, by norm_num, by norm_num⟩, ⟨by decide, by norm_num, by norm_num⟩, ?_⟩
  rintro ⟨_, _, h⟩
  norm_num at h

theorem witness_SetRatio_modes : State.reset.mode = .up ∧ (atTwo .down romSel3).mode = .down ∧
    (atTwo .up2down romSel3).mode = .up2down ∧ (atTwo .down2up romSel3).mode = .down2up := by decide

theorem witness_SetRatioCheck : (State.reset.envelope.loNum = 1 ∧ State.reset.envelope.loDen = 7 ∧
    State.reset.envelope.hiNum = 7 ∧ State.reset.envelope.hiDen = 1) ∧ ¬ ∃ t, exec (.setRatio 0x40E00001#32) State.reset = .next t := by
  have h : exec (.setRatio 0x40E00001#32) State.reset = .refused .ratioOutsideEnvelope := eq_of_same (by decide +kernel)
  refine ⟨by decide, ?_⟩
  rw [h]
  rintro ⟨t, ht⟩
  cases ht

theorem witness_Deltas : (∃ t, exec (.setRatio 0x3E124925#32) State.reset = .next t) ∧
    (∃ t, exec (.setRatio 0x40E00000#32) State.reset = .next t) ∧ WithinDefault State.reset.envelope :=
  ⟨exists_next (by decide +kernel), exists_next (by decide +kernel), within_default⟩

theorem witness_RepeatedRatio : ∃ t, exec (.setRatio 0x3F7FFFFF#32) (atTwo .down romSel3) = .next t :=
  exists_next (by decide +kernel)

theorem witness_DoubleCrossing : ∃ t₁ t₂ t₃ t₄ : State, (start romSel3).mode = .up ∧
    exec (.setRatio 0x40000000#32) (start romSel3) = .next t₁ ∧ 1 < sampleValue 0x40000000#32 ∧
    exec (.setRatio 0x3F000000#32) t₁ = .next t₂ ∧ sampleValue 0x3F000000#32 < 1 ∧
    exec (.up2down16 0) t₂ = .next t₃ ∧
    exec (.setRatio 0x3F000000#32) t₃ = .next t₄ := by
  obtain ⟨t₃, h₃⟩ : ∃ t, exec (.up2down16 0) (atHalf .up2down romSel3) = .next t := exists_next (by decide +kernel)
  have ha : admitted Config.defaultEnvelope 0x3F000000#32 = true := by decide +kernel
  refine ⟨atTwo .up2down romSel3, atHalf .up2down romSel3, t₃,
    setMode (modeCheck t₃.mode (deltaUpOf 0x3F000000#32) (deltaDownOf 0x3F000000#32)) (loadRatio 0x3F000000#32 t₃), rfl,
    test_setRatio.1, ?_,
    setRatio_gives (by decide +kernel) (by decide +kernel) (by decide +kernel) (by decide +kernel) (by decide), ?_, h₃, ?_⟩
  · rw [value_two]; norm_num
  · rw [value_half]; norm_num
  · have he : t₃.envelope = Config.defaultEnvelope := by
      have h := h₃
      simp only [exec, execUp2down16] at h
      obtain ⟨c', u, hu, rfl⟩ := answer_eq_next.1 h
      obtain ⟨c₁, v, w, hv, hw, rfl⟩ := runUp2down_eq_ok.1 hu
      obtain ⟨p, _, _, rfl⟩ := runUp_eq_ok.1 hv
      obtain ⟨_, q, _, _, rfl⟩ := runDown_eq_ok.1 hw
      simp [atHalf, start, State.reset]
    simp only [exec, execSetRatio, applyRatio, he, if_pos ha]

theorem witness_TransposeByOctaves : admitted State.reset.envelope 0x3E800000#32 = true ∧
    admitted State.reset.envelope 0x40800000#32 = true ∧ (0x3F800000#32 : Sample) = 0x3F800000#32 := by decide +kernel

theorem witness_Transpose : isFinite 0x7FC00000#32 = false ∧ isFinite 0x41400000#32 = true := by decide

theorem witness_TransposeWithin :
    (admitted State.reset.envelope 0x3E800000#32 = true ∧ admitted State.reset.envelope 0x40800000#32 = true) ∧
    (isFinite 0x41C00000#32 = true ∧ -24 ≤ sampleValue 0x41C00000#32 ∧ sampleValue 0x41C00000#32 ≤ 24) ∧
    (isFinite 0xC1C00000#32 = true ∧ -24 ≤ sampleValue 0xC1C00000#32 ∧ sampleValue 0xC1C00000#32 ≤ 24) := by
  rw [value_24, value_neg24]
  exact ⟨by decide +kernel, ⟨by decide, by norm_num, by norm_num⟩, by decide, by norm_num, by norm_num⟩

/-- At the greatest delta of the envelope. -/
theorem witness_Up16Completes : ({ start romSel3 with deltaUp := 0x0E000000#32 } : State).deltaUp.toNat ≤ 7 * 2 ^ 25 ∧
    WindowValid { start romSel3 with deltaUp := 0x0E000000#32 } 0
      (((start romSel3).phase.toNat % 2 ^ 25 + 16 * (0x0E000000#32).toNat) / 2 ^ 25) :=
  ⟨by decide, window_valid rfl rfl _ _⟩

theorem witness_Up16Filter : ({ start romSel3 with deltaUp := 0x0E000000#32 } : State).deltaUp.toNat ≤ 7 * 2 ^ 25 ∧
    ∃ t, exec (.up16 0) { start romSel3 with deltaUp := 0x0E000000#32 } = .next t :=
  ⟨by decide, exists_next (by decide +kernel)⟩

/-- Did an output sample complete? -/
def isOk {α : Type} (r : Except Fault α) : Bool :=
  match r with
  | .ok _ => true
  | .error _ => false

theorem exists_ok {α : Type} {r : Except Fault α} (h : isOk r = true) : ∃ p, r = .ok p := by
  cases r with
  | ok p => exact ⟨p, rfl⟩
  | error f => simp [isOk] at h

/-- No pull, seven, and an aliasing delta. -/
theorem witness_UpStep :
    (∃ p, upStep { start romSel3 with deltaUp := 0x00492492#32 } .dst 0 (upStart (start romSel3) 0 .dst) = .ok p) ∧
    (∃ p, upStep { start romSel3 with deltaUp := 0x0E000000#32 } .dst 15 (upStart (start romSel3) 0 .dst) = .ok p) ∧
    ∃ p, upStep { start romSel3 with deltaUp := 0x12000000#32 } .dst 15 (upStart (start romSel3) 0 .dst) = .ok p :=
  ⟨exists_ok (by decide +kernel), exists_ok (by decide +kernel), exists_ok (by decide +kernel)⟩

/-- An aliasing delta. -/
theorem witness_Up16EveryDelta : AllValid { start romSel3 with deltaUp := 0x10000000#32 } := all_valid rfl rfl

/-- The first clause at both ends of its range and at the least delta of the envelope. -/
theorem witness_Down16Completes_low : ∀ d ∈ [0x00000001#32, 0x00492492#32, 0x02000000#32], ∀ m : Nat,
    m = (16 * 2 ^ 25 - 0 % 2 ^ 25 + d.toNat - 1) / d.toNat →
    ({ start romSel3 with deltaDown := d } : State).phase.toNat = 0 ∧ 1 ≤ d.toNat ∧ d.toNat ≤ 2 ^ 25 ∧
    WindowValid { start romSel3 with deltaDown := d } 0 m := by
  intro d hd m _
  simp only [List.mem_cons, List.not_mem_nil, or_false] at hd
  refine ⟨rfl, ?_, ?_, window_valid rfl rfl _ _⟩
  · rcases hd with rfl | rfl | rfl <;> decide
  · rcases hd with rfl | rfl | rfl <;> decide

/-- The second clause at both ends of its range. -/
theorem witness_Down16Completes_high : ∀ d ∈ [0x02000001#32, 0x0E000000#32],
    2 ^ 25 < d.toNat ∧ d.toNat ≤ 7 * 2 ^ 25 ∧ WindowValid { start romSel3 with deltaDown := d } 0 16 := by
  intro d hd
  simp only [List.mem_cons, List.not_mem_nil, or_false] at hd
  refine ⟨?_, ?_, window_valid rfl rfl _ _⟩
  · rcases hd with rfl | rfl <;> decide
  · rcases hd with rfl | rfl <;> decide

theorem witness_Down16Filter : (1 ≤ (start romSel3).deltaDown.toNat ∧ (start romSel3).deltaDown.toNat ≤ 2 ^ 25 ∧
      ∃ t, exec (.down16 0) (start romSel3) = .next t) ∧
    1 ≤ (atTwo .down romSel3).deltaDown.toNat ∧ (atTwo .down romSel3).deltaDown.toNat ≤ 2 ^ 25 ∧
      ∃ t, exec (.down16 0) (atTwo .down romSel3) = .next t :=
  ⟨⟨by decide, by decide, exists_next (by decide +kernel)⟩, by decide, by decide, exists_next (by decide +kernel)⟩

/-- One source sample without a rotation, one with a rotation by one, one with a rotation by seven. -/
theorem witness_DownStep :
    (∃ p, downStep (atTwo .down romSel3) .dst (downStart (start romSel3) 0 .dst) = .ok p ∧
      ringOf p.phase = ringOf (start romSel3).phase) ∧
    (∃ p, downStep (start romSel3) .dst (downStart (start romSel3) 0 .dst) = .ok p ∧
      ringOf p.phase ≠ ringOf (start romSel3).phase) ∧
    ∃ p, downStep { start romSel3 with deltaDown := 0x0E000000#32 } .dst (downStart (start romSel3) 0 .dst) = .ok p ∧
      ringOf p.phase ≠ ringOf (start romSel3).phase :=
  ⟨⟨_, rfl, by decide +kernel⟩, ⟨_, rfl, by decide +kernel⟩, ⟨_, rfl, by decide +kernel⟩⟩

/-- A delta that never rotates the ring, and deltas just beside it. -/
theorem witness_Down16Ends : AllValid (start romSel3) ∧
    (0x10000000#32).toNat % 2 ^ 28 = 0 ∧ (0x10000001#32).toNat % 2 ^ 28 ≠ 0 ∧ (0x0FFFFFFF#32).toNat % 2 ^ 28 ≠ 0 :=
  ⟨all_valid rfl rfl, by decide, by decide, by decide⟩

/-- One readable cursor too few for each engine and for each pass of a transition; the deltas are in range. -/
theorem witness_InvalidSource :
    (¬ WindowValid { start romSel3 with srcValid := [⟨0, 15⟩] } 0 (upConsumption 0#32 0x02000000#32)) ∧
    (¬ WindowValid { start romSel3 with srcValid := [⟨0, 15⟩] } 0 (downConsumption 0#32 0x02000000#32)) ∧
    (WindowValid { start romSel3 with srcValid := [⟨0, 16⟩] } 0 (upConsumption 0#32 0x02000000#32)) ∧
    (WindowValid { start romSel3 with srcValid := [⟨0, 16⟩] } 0 (downConsumption 0#32 0x02000000#32)) ∧
    (start romSel3).deltaUp.toNat ≤ 7 * 2 ^ 25 ∧ 1 ≤ (start romSel3).deltaDown.toNat ∧
    (start romSel3).deltaDown.toNat ≤ 7 * 2 ^ 25 ∧ (∃ p : U32, p = ~~~((start romSel3).phase + 16#32 * (start romSel3).deltaUp)) ∧
    (exec (.up2down16 0) { atTwo .up2down romSel3 with srcValid := [⟨0, 31⟩] } = .fault .sourceReadOutsideValid) ∧
    exec (.down2up16 0) { start romSel3 with srcValid := [⟨0, 15⟩] } = .fault .sourceReadOutsideValid := by
  refine ⟨fun h => ?_, fun h => ?_, ?_, ?_, by decide, by decide, by decide, ⟨_, rfl⟩,
    eq_of_same (by decide +kernel), eq_of_same (by decide +kernel)⟩
  · exact absurd (h 15 (by decide)) (by decide)
  · exact absurd (h 15 (by decide)) (by decide)
  · unfold WindowValid; decide +kernel
  · unfold WindowValid; decide +kernel

/-- A delta that never rotates, with an up pass that completes; and each of the two reasons. -/
theorem witness_StuckBlocks : (0x10000000#32).toNat % 2 ^ 28 = 0 ∧
    (∃ u, exec (.up16 0) { start romSel3 with deltaDown := 0x10000000#32 } = .next u) ∧
    exec (.up2down16 0) { start romSel3 with deltaDown := 0x10000000#32 } = .fault .downNeverRotates ∧
    exec (.up2down16 0) { start romSel3 with deltaDown := 0x10000000#32, srcValid := [] } = .fault .sourceReadOutsideValid :=
  ⟨by decide, exists_next (by decide +kernel), eq_of_same (by decide +kernel), eq_of_same (by decide +kernel)⟩

/-- The two engines and the two transitions complete: the frames, the accesses, the ROM reads and the blend. -/
theorem witness_Process16 : (∃ t, exec (.up16 0) (start romSel3) = .next t) ∧
    (∃ t, exec (.down16 0) (start romSel3) = .next t) ∧
    (∃ t, exec (.up2down16 0) (atTwo .up2down romSel3) = .next t) ∧
    (∃ t, exec (.down2up16 0) (atHalf .down2up romSel3) = .next t) ∧
    (∃ t, exec .reset (start romSel3) = .next t) ∧ (∃ t, exec (.setRatio 0x40000000#32) (start romSel3) = .next t) ∧
    ∃ t, exec (.transpose 0x41400000#32) (start romSel3) = .next t :=
  ⟨exists_next (by decide +kernel), exists_next (by decide +kernel), exists_next (by decide +kernel),
    exists_next (by decide +kernel), exists_next (by decide +kernel), exists_next (by decide +kernel),
    exists_next (by decide +kernel)⟩

theorem witness_IsProcess16 : IsProcess16 9 (.up16 9) ∧ IsProcess16 9 (.down16 9) ∧
    IsProcess16 9 (.up2down16 9) ∧ IsProcess16 9 (.down2up16 9) :=
  ⟨.inl rfl, .inr (.inl rfl), .inr (.inr (.inl rfl)), .inr (.inr (.inr rfl))⟩

/-- Two states with different ROMs and different samples; both are stuck, and both complete. -/
theorem witness_SamplesDoNotSteer :
    (exec (.up16 0) { start romSel3 with srcValid := [⟨0, 15⟩] } = .fault .sourceReadOutsideValid) ∧
    (∃ t, exec (.up16 0) (start romSel3) = .next t) ∧ (start romOne).phase = (start romSel3).phase ∧
    (start romOne).mode = (start romSel3).mode ∧ (start romOne).deltaUp = (start romSel3).deltaUp ∧
    (start romOne).deltaDown = (start romSel3).deltaDown ∧ (start romOne).srcValid = (start romSel3).srcValid ∧
    (start romOne).cursorW = (start romSel3).cursorW ∧
    (start romOne).src = (start romSel3).src ∧ (start romOne).inputRing = (start romSel3).inputRing :=
  ⟨eq_of_same (by decide +kernel), exists_next (by decide +kernel), rfl, rfl, rfl, rfl, rfl, rfl, rfl, rfl⟩

theorem witness_Carry : (0xF0000000#32).toNat % 2 ^ 28 = (start romSel3).phase.toNat % 2 ^ 28 ∧
    (∃ t, exec (.up16 0) (start romSel3) = .next t) ∧
    exec (.up16 0) { start romSel3 with srcValid := [⟨0, 15⟩] } = .fault .sourceReadOutsideValid :=
  ⟨by decide, exists_next (by decide +kernel), eq_of_same (by decide +kernel)⟩

theorem witness_ProcessCompletes : Inv (atTwo .down romSel3) ∧ WithinDefault (atTwo .down romSel3).envelope ∧
    WindowValid (atTwo .down romSel3) 0xFFFFFFFF 128 ∧
    IsProcess16 0xFFFFFFFF (.down16 0xFFFFFFFF) :=
  ⟨inv_start .down _ [], within_default, window_valid rfl rfl _ _, .inr (.inl rfl)⟩

/-- Ratio 2.0 for the way down, and the least ratio of the envelope for the way up. -/
theorem witness_Up2DownConsumes : (atTwo .up2down romSel3).deltaUp.toNat ≤ 7 * 2 ^ 25 ∧
    1 ≤ (atTwo .up2down romSel3).deltaDown.toNat ∧ (atTwo .up2down romSel3).deltaDown.toNat ≤ 7 * 2 ^ 25 ∧
    ∃ p : U32, p = ~~~((atTwo .up2down romSel3).phase + 16#32 * (atTwo .up2down romSel3).deltaUp) ∧
      WindowValid (atTwo .up2down romSel3) 0
        (upConsumption (atTwo .up2down romSel3).phase (atTwo .up2down romSel3).deltaUp) ∧
      WindowValid (atTwo .up2down romSel3) 0 (downConsumption p (atTwo .up2down romSel3).deltaDown) :=
  ⟨by decide, by decide, by decide, _, rfl, window_valid rfl rfl _ _, window_valid rfl rfl _ _⟩

/-- Ratio 1/7: the deltas `0x00492492` and `0x0DFFFFF5`. -/
def atLeast : State :=
  { start romSel3 with
    ratio := 0x3E124925#32, downscale := 0x40DFFFFF#32, deltaUp := 0x00492492#32, deltaDown := 0x0DFFFFF5#32
    mode := .down2up }

theorem witness_Down2UpConsumes : atLeast.deltaUp.toNat ≤ 7 * 2 ^ 25 ∧ 1 ≤ atLeast.deltaDown.toNat ∧
    atLeast.deltaDown.toNat ≤ 7 * 2 ^ 25 ∧
    ∃ p : U32, p = ~~~(atLeast.phase + BitVec.ofNat 32 (downConsumption atLeast.phase atLeast.deltaDown) * atLeast.deltaDown) ∧
      WindowValid atLeast 0 (downConsumption atLeast.phase atLeast.deltaDown) ∧
      WindowValid atLeast 0 (upConsumption p atLeast.deltaUp) :=
  ⟨by decide, by decide, by decide, _, rfl, window_valid rfl rfl _ _, window_valid rfl rfl _ _⟩

theorem witness_Advance : (0x0E000000#32).toNat ≤ 7 * 2 ^ 25 ∧ slotsAdvanced 0x01FFFFFF#32 (0x01FFFFFF#32 + 0x0E000000#32) = 7 := by
  decide

theorem witness_Rn32 : 0 < 7 := by decide

theorem witness_Operators : isFinite 0x7F7FFFFF#32 = true ∧ isFinite 0x80000001#32 = true := by decide

/-- An operand for each clause of the special values. -/
theorem witness_NaNsAndInfinities : isNaN 0x7F800001#32 = true ∧ isInf 0x7F800000#32 = true ∧ isInf 0xFF800000#32 = true ∧
    signBit 0x7F800000#32 ≠ signBit 0xFF800000#32 ∧ isFinite 0x00000001#32 = true ∧ isZero 0x80000000#32 = true ∧
    isZero 0x00000001#32 = false ∧ isNaN 0x00000001#32 = false := by decide

theorem witness_SignedZeros : isNaN 0x80000001#32 = false ∧ 0x80000001#32 ≠ 0x80000000#32 ∧ isNaN 0x7F800000#32 = false ∧
    isFinite 0xFF7FFFFF#32 = true := by decide

theorem witness_Fractions : 2 ^ 17 ≤ 2 ^ 17 := by decide

theorem value_one : sampleValue 0x3F800000#32 = 1 := by
  rw [value_of (n := false) (e := 127) (f := 0) (by decide) (by decide) (by decide) (by decide)]
  norm_num

theorem value_three_halves : sampleValue 0x3FC00000#32 = 3 / 2 := by
  rw [value_of (n := false) (e := 127) (f := 4194304) (by decide) (by decide) (by decide) (by decide)]
  norm_num

/-- 1.0 and 0.5, whose sum, difference and product are representable. -/
theorem witness_OperatorLaws : isNaN (addS 0 0x3F800000#32 0x7F800000#32) = false ∧
    isNaN (mulS 0 0x3F800000#32 0x7F800000#32) = false ∧ isFinite 0x3F800000#32 = true ∧ isFinite 0x3F000000#32 = true ∧
    isFinite 0x3FC00000#32 = true ∧ |sampleValue 0x3F000000#32| ≤ 1 ∧
    sampleValue 0x3FC00000#32 = sampleValue 0x3F800000#32 + sampleValue 0x3F000000#32 ∧
    sampleValue 0x3F000000#32 = sampleValue 0x3F800000#32 - sampleValue 0x3F000000#32 ∧
    sampleValue 0x3F000000#32 = sampleValue 0x3F800000#32 * sampleValue 0x3F000000#32 := by
  rw [value_half, value_one, value_three_halves]
  refine ⟨by decide, by decide, by decide, by decide, by decide, ?_, ?_, ?_, ?_⟩ <;> norm_num

/-- Both zeros either way round, and the two infinities; a sign of each kind. -/
theorem witness_Monotone : AtMost 0x80000000#32 0x00000000#32 ∧ AtMost 0x00000000#32 0x80000000#32 ∧
    AtMost 0xFF800000#32 0x7F800000#32 ∧ AtMost 0xBF800000#32 0x80000000#32 ∧ signBit 0x00000000#32 = false ∧
    signBit 0x80000000#32 = true := by
  refine ⟨.inr (.inr ?_), .inr (.inr ?_), .inr (.inr ?_), .inr (.inr ?_), by decide, by decide⟩ <;> decide +kernel

/-- A silent machine: an all-zero source, +0.0 in both arrays, a ROM and a `downscale` without a negative sign. -/
theorem witness_Zeros : (∃ (t : State) (l : List Access), exec (.up16 0) { start romSel3 with src := [] } = .next t ∧
      t.accesses = ({ start romSel3 with src := [] } : State).accesses ++ l) ∧
    isFinite (start romSel3).downscale = true ∧ signBit (start romSel3).downscale = false ∧
    (∀ r : RingIx, slotGet (start romSel3).inputRing r = 0x00000000#32) ∧
    (∀ r : RingIx, slotGet (start romSel3).outputAccum r = 0x00000000#32) ∧
    (∀ a : Nat, ({ start romSel3 with src := [] } : State).src.read a = 0x00000000#32) ∧
    ∀ (row : Fin 257) (k : Fin 8), signBit (romAt (start romSel3).rom row k) = false := by
  obtain ⟨t, ht⟩ : ∃ t, exec (.up16 0) { start romSel3 with src := [] } = .next t := exists_next (by decide +kernel)
  refine ⟨⟨t, t.accesses, ht, rfl⟩, by decide, by decide, by decide, by decide, fun _ => rfl, ?_⟩
  intro row k
  have h : ∀ j : Fin 8, signBit (#v[0#32, 0#32, 0#32, 0x3F800000#32, 0#32, 0#32, 0#32, 0#32] : Vector Sample 8)[j.val] = false := by
    decide
  simpa [romAt, start, romSel3] using h k

end Sys2Proof.Tests
end

namespace Sys2Proof.Machine

/-! ### What each row of the opcode table runs -/

@[simp] theorem exec_reset (s : State) : exec .reset s = .next (resetRegisters s) := rfl
@[simp] theorem exec_setRatio (q : Sample) (s : State) : exec (.setRatio q) s = applyRatio q s := rfl
@[simp] theorem exec_transpose (x : Sample) (s : State) : exec (.transpose x) s = execTranspose x s := rfl
@[simp] theorem exec_up16 (c : Nat) (s : State) : exec (.up16 c) s = answer (runUp c .dst s) := rfl
@[simp] theorem exec_down16 (c : Nat) (s : State) : exec (.down16 c) s = answer (runDown c .dst s) := rfl
@[simp] theorem exec_up2down16 (c : Nat) (s : State) : exec (.up2down16 c) s = answer (runUp2down c s) := rfl
@[simp] theorem exec_down2up16 (c : Nat) (s : State) : exec (.down2up16 c) s = answer (runDown2up c s) := rfl
@[simp] theorem exec_reserved (cmd : BitVec 3) (s : State) : exec (.reserved cmd) s = .refused .reservedCommand := rfl

/-! ### What each input of the host runs -/

theorem step_idle {s : State} (h : s.inputs = []) : step s = .next s := by
  rw [step, h]

theorem step_command {s : State} {cmd : BitVec 3} {arg : Nat} {rest : List Input} (h : s.inputs = .command cmd arg :: rest) :
    step s = exec (decodeCommand s.cursorW (dispatchWord cmd s.mode) arg) (acceptCommand rest s) := by
  rw [step, h]

theorem step_writeSource {s : State} {c : Nat} {v : Sample} {rest : List Input} (h : s.inputs = .writeSource c v :: rest) :
    step s = .next (hostWriteSource c v rest s) := by
  rw [step, h]

theorem step_setValid {s : State} {ws : List Window} {rest : List Input} (h : s.inputs = .setValid ws :: rest) :
    step s = .next (hostSetValid ws rest s) := by
  rw [step, h]

/-! ### The host's side of the state, which no command writes -/

/-- The ROM, the parameters of the machine, `SRC`, `SRC_VALID` and the host's inputs are in `t` as they were in `s`
(rules R6, R51, R65, R66, R128). -/
structure HostSideKept (s t : State) : Prop where
  rom : t.rom = s.rom
  envelope : t.envelope = s.envelope
  cursorW : t.cursorW = s.cursorW
  src : t.src = s.src
  srcValid : t.srcValid = s.srcValid
  inputs : t.inputs = s.inputs

namespace HostSideKept

variable {s t u : State}

theorem trans (h : HostSideKept s t) (k : HostSideKept t u) : HostSideKept s u :=
  ⟨k.rom.trans h.rom, k.envelope.trans h.envelope, k.cursorW.trans h.cursorW, k.src.trans h.src,
    k.srcValid.trans h.srcValid, k.inputs.trans h.inputs⟩

theorem of_resetRegisters (s : State) : HostSideKept s (resetRegisters s) := ⟨rfl, rfl, rfl, rfl, rfl, rfl⟩

theorem of_respond (c : Nat) (s : State) : HostSideKept s (respond c s) := ⟨rfl, rfl, rfl, rfl, rfl, rfl⟩

theorem of_blend (s : State) : HostSideKept s (blend s) := by constructor <;> simp

/-- From the old engine to the new one of `UP2DOWN16` (rules R164, R166, R167). -/
theorem of_landDown (s : State) : HostSideKept s (clearOutputAccum (setMode .down (complementPhase s))) :=
  ⟨rfl, rfl, rfl, rfl, rfl, rfl⟩

/-- From the old engine to the new one of `DOWN2UP16` (rules R165, R166, R167). -/
theorem of_landUp (s : State) : HostSideKept s (clearInputRing (setMode .up (complementPhase s))) :=
  ⟨rfl, rfl, rfl, rfl, rfl, rfl⟩

theorem of_applyRatio {q : Sample} (h : applyRatio q s = .next t) : HostSideKept s t := by
  obtain ⟨-, rfl⟩ := applyRatio_eq_next.1 h
  exact ⟨rfl, rfl, rfl, rfl, rfl, rfl⟩

theorem of_execTranspose {x : Sample} (h : execTranspose x s = .next t) : HostSideKept s t := by
  cases hx : isFinite x with
  | true => rw [execTranspose_of_finite hx, execSetRatio] at h; exact of_applyRatio h
  | false => rw [execTranspose_of_not_finite hx] at h; cases h

theorem of_runUp {c c' : Nat} {b : Buffer} (h : runUp c b s = .ok (c', t)) : HostSideKept s t := by
  obtain ⟨p, -, -, rfl⟩ := runUp_eq_ok.1 h
  cases b <;> exact ⟨rfl, rfl, rfl, rfl, rfl, rfl⟩

theorem of_runDown {c c' : Nat} {b : Buffer} (h : runDown c b s = .ok (c', t)) : HostSideKept s t := by
  obtain ⟨-, p, -, -, rfl⟩ := runDown_eq_ok.1 h
  cases b <;> exact ⟨rfl, rfl, rfl, rfl, rfl, rfl⟩

theorem of_runUp2down {c c' : Nat} (h : runUp2down c s = .ok (c', t)) : HostSideKept s t := by
  obtain ⟨_, u, v, hu, hv, rfl⟩ := runUp2down_eq_ok.1 h
  exact (of_runUp hu).trans ((of_landDown u).trans ((of_runDown hv).trans (of_blend v)))

theorem of_runDown2up {c c' : Nat} (h : runDown2up c s = .ok (c', t)) : HostSideKept s t := by
  obtain ⟨_, u, v, hu, hv, rfl⟩ := runDown2up_eq_ok.1 h
  exact (of_runDown hu).trans ((of_landUp u).trans ((of_runUp hv).trans (of_blend v)))

/-- A block operation keeps the host's side when the passes it runs do. -/
theorem of_answer {r : Except Fault (Nat × State)} (h : answer r = .next t)
    (hr : ∀ c u, r = .ok (c, u) → HostSideKept s u) : HostSideKept s t := by
  obtain ⟨c, u, rfl, rfl⟩ := answer_eq_next.1 h
  exact (hr c u rfl).trans (of_respond c u)

/-- Every row of the opcode table that completes keeps the host's side. -/
theorem of_exec {i : Instr} (h : exec i s = .next t) : HostSideKept s t := by
  cases i with
  | reset => rw [exec_reset] at h; cases h; exact of_resetRegisters s
  | setRatio q => rw [exec_setRatio] at h; exact of_applyRatio h
  | transpose x => rw [exec_transpose] at h; exact of_execTranspose h
  | up16 c => rw [exec_up16] at h; exact of_answer h fun _ _ => of_runUp
  | down16 c => rw [exec_down16] at h; exact of_answer h fun _ _ => of_runDown
  | up2down16 c => rw [exec_up2down16] at h; exact of_answer h fun _ _ => of_runUp2down
  | down2up16 c => rw [exec_down2up16] at h; exact of_answer h fun _ _ => of_runDown2up
  | reserved cmd => rw [exec_reserved] at h; cases h

end HostSideKept

/-- A completed command takes itself off the port and keeps the rest of the host's side (rules R51, R66). -/
theorem step_command_keeps_hostSide {s t : State} {cmd : BitVec 3} {arg : Nat} {rest : List Input}
    (hi : s.inputs = .command cmd arg :: rest) (h : step s = .next t) : HostSideKept (acceptCommand rest s) t := by
  rw [step_command hi] at h
  exact .of_exec h

/-- Settles O9: by the host's next input; a command by the frame of the row it runs, whichever that is. -/
theorem commandsWriteNoHostMemory : Obligations.CommandsWriteNoHostMemory := by
  unfold Obligations.CommandsWriteNoHostMemory
  intro s t h
  cases hi : s.inputs with
  | nil =>
    rw [step_idle hi] at h
    cases h
    exact ⟨rfl, rfl, rfl, by simp⟩
  | cons i rest =>
    cases i with
    | command cmd arg =>
      obtain ⟨hrom, henv, hw, hsrc, hvalid, hin⟩ := step_command_keeps_hostSide hi h
      refine ⟨hrom, henv, hw, ?_⟩
      rintro _ _ _ ⟨⟩
      exact ⟨hsrc, hvalid, hin⟩
    | writeSource c v =>
      rw [step_writeSource hi] at h
      cases h
      exact ⟨rfl, rfl, rfl, by simp⟩
    | setValid ws =>
      rw [step_setValid hi] at h
      cases h
      exact ⟨rfl, rfl, rfl, by simp⟩

/-! ### The loop of `DOWN16` does not run out of samples -/

/-- How many additions of `d` without a rotation there can at most be from phase `p` on: one more than the distance, in
phase units, to the end of the period that the additions walk towards (up for a `d` whose low 28 bits are below `2^27`, down
for the others, which are negative modulo `2^28`). -/
def phaseRoom (d p : U32) : Nat :=
  if d.toNat % 2 ^ 28 < 2 ^ 27 then 2 ^ 25 - p.toNat % 2 ^ 25 else p.toNat % 2 ^ 25 + 1

theorem phaseRoom_pos (d p : U32) : 0 < phaseRoom d p := by
  unfold phaseRoom
  split <;> omega

theorem phaseRoom_le (d p : U32) : phaseRoom d p ≤ 2 ^ 25 := by
  unfold phaseRoom
  split <;> omega

/-- An addition that does not rotate the ring stays in the period, so it uses up room (rules R158, R193). -/
theorem phaseRoom_add_lt {d p : U32} (hd : canRotate d = true) (h : ¬ rotated p (p + d) = true) :
    phaseRoom d (p + d) < phaseRoom d p := by
  have hd := (canRotate_iff d).1 hd
  have hring : (p + d).toNat / 2 ^ 25 % 8 = p.toNat / 2 ^ 25 % 8 := by
    rw [← ringOf_toNat, ← ringOf_toNat, BitVec.toNat_inj]
    simpa [rotated] using h
  rw [BitVec.toNat_add] at hring
  unfold phaseRoom
  rw [BitVec.toNat_add]
  split <;> omega

/-- How many source samples the loop can still take at most: `2^25` for each output after the next, and the room of the
phase for the next (log entry 21). -/
def loopRoom (d : U32) (p : DownPass) : Nat := (15 - p.emitted) * 2 ^ 25 + phaseRoom d p.phase

theorem downStep_loopRoom_lt {s : State} {b : Buffer} {p q : DownPass} (hd : canRotate s.deltaDown = true)
    (h : downStep s b p = .ok q) (hq : q.emitted < 16) : loopRoom s.deltaDown q < loopRoom s.deltaDown p := by
  obtain ⟨-, hphase, -, -, acc, -, hr⟩ := downStep_spec h
  unfold loopRoom
  rw [hphase]
  split at hr
  · obtain ⟨-, -, he, -⟩ := hr
    have := phaseRoom_le s.deltaDown (p.phase + s.deltaDown)
    have := phaseRoom_pos s.deltaDown p.phase
    omega
  · next hrot =>
    obtain ⟨-, -, he, -⟩ := hr
    have := phaseRoom_add_lt hd hrot
    omega

/-- With the room as its budget the loop is stuck on a source read only, at a cursor it has counted up to. -/
theorem downLoop_error {s : State} {b : Buffer} {f : Fault} (hd : canRotate s.deltaDown = true) :
    ∀ {fuel : Nat} {p : DownPass}, (p.emitted < 16 → loopRoom s.deltaDown p ≤ fuel) → downLoop s b fuel p = .error f →
      f = .sourceReadOutsideValid ∧
        ∃ j, cursorValid s.cursorW s.srcValid (wrapCursor s.cursorW (p.cursor + j)) = false := by
  intro fuel
  induction fuel with
  | zero =>
    intro p hroom h
    have hp : ¬ p.emitted < 16 := fun hp => by
      have := hroom hp
      have := phaseRoom_pos s.deltaDown p.phase
      unfold loopRoom at *
      omega
    rw [downLoop_of_done hp] at h
    cases h
  | succ fuel ih =>
    intro p hroom h
    by_cases hp : p.emitted < 16
    · rw [downLoop_of_more hp, bind_eq_error] at h
      rcases h with h | ⟨q, hq, h⟩
      · obtain ⟨hf, hv⟩ := downStep_error h
        exact ⟨hf, 0, hv⟩
      · have hqroom : q.emitted < 16 → loopRoom s.deltaDown q ≤ fuel := fun hq' => by
          have := downStep_loopRoom_lt hd hq hq'
          have := hroom hp
          omega
        obtain ⟨hf, j, hv⟩ := ih hqroom h
        obtain ⟨-, -, hcursor, -⟩ := downStep_spec hq
        exact ⟨hf, 1 + j, by rwa [hcursor, Nat.add_assoc] at hv⟩
    · rw [downLoop_of_done hp] at h
      cases h

theorem loopRoom_downStart_le (s : State) (c : Nat) (b : Buffer) : loopRoom s.deltaDown (downStart s c b) ≤ downFuel := by
  have := phaseRoom_le s.deltaDown s.phase
  simp only [loopRoom, downFuel, downStart_emitted, downStart_phase]
  omega

/-! ### Why a pass is stuck -/

/-- A down pass whose delta can rotate the ring is stuck on a source read only (rules R60, R158). -/
theorem runDown_error_of_canRotate {s : State} {c : Nat} {b : Buffer} {f : Fault} (hd : canRotate s.deltaDown = true)
    (h : runDown c b s = .error f) :
    f = .sourceReadOutsideValid ∧ ∃ j, cursorValid s.cursorW s.srcValid (wrapCursor s.cursorW (c + j)) = false := by
  rcases runDown_error h with ⟨-, hd'⟩ | ⟨-, hloop⟩
  · simp [hd] at hd'
  · exact downLoop_error hd (fun _ => loopRoom_downStart_le s c b) hloop

/-- A down pass whose delta cannot rotate the ring has no end (rule R158). -/
theorem runDown_of_not_canRotate {s : State} (c : Nat) (b : Buffer) (hd : s.deltaDown.toNat % 2 ^ 28 = 0) :
    runDown c b s = .error .downNeverRotates := by
  have h : ¬ canRotate s.deltaDown = true := fun h => (canRotate_iff _).1 h hd
  rw [runDown, if_neg h]

theorem runDown_error_reason {s : State} {c : Nat} {b : Buffer} {f : Fault} (h : runDown c b s = .error f) :
    f = .sourceReadOutsideValid ∨ (f = .downNeverRotates ∧ s.deltaDown.toNat % 2 ^ 28 = 0) := by
  by_cases hd : s.deltaDown.toNat % 2 ^ 28 = 0
  · rw [runDown_of_not_canRotate c b hd] at h
    cases h
    exact .inr ⟨rfl, hd⟩
  · exact .inl (runDown_error_of_canRotate ((canRotate_iff _).2 hd) h).1

/-- `UP2DOWN16(c)` is stuck exactly as its up pass is, or, where that completes, as its down pass is (rule R164). -/
theorem runUp2down_eq_error {s : State} {c : Nat} {f : Fault} :
    runUp2down c s = .error f ↔ runUp c .dst s = .error f ∨ ∃ c₁ u, runUp c .dst s = .ok (c₁, u) ∧
      runDown c .tmp (clearOutputAccum (setMode .down (complementPhase u))) = .error f := by
  unfold runUp2down
  simp [bind_eq_error]

/-- `DOWN2UP16(c)` is stuck exactly as its down pass is, or, where that completes, as its up pass is (rule R165). -/
theorem runDown2up_eq_error {s : State} {c : Nat} {f : Fault} :
    runDown2up c s = .error f ↔ runDown c .dst s = .error f ∨ ∃ c₁ u, runDown c .dst s = .ok (c₁, u) ∧
      runUp c .tmp (clearInputRing (setMode .up (complementPhase u))) = .error f := by
  unfold runDown2up
  simp [bind_eq_error]

/-- The down pass of `UP2DOWN16` runs with the delta the operation was entered with. -/
theorem landDown_deltaDown_of_runUp {s u : State} {c c₁ : Nat} (h : runUp c .dst s = .ok (c₁, u)) :
    (clearOutputAccum (setMode .down (complementPhase u))).deltaDown = s.deltaDown := by
  obtain ⟨p, -, -, rfl⟩ := runUp_eq_ok.1 h
  simp

theorem runUp2down_error_reason {s : State} {c : Nat} {f : Fault} (h : runUp2down c s = .error f) :
    f = .sourceReadOutsideValid ∨ (f = .downNeverRotates ∧ s.deltaDown.toNat % 2 ^ 28 = 0) := by
  rcases runUp2down_eq_error.1 h with h | ⟨c₁, u, hu, h⟩
  · exact .inl (runUp_error h)
  · have := runDown_error_reason h
    rwa [landDown_deltaDown_of_runUp hu] at this

theorem runDown2up_error_reason {s : State} {c : Nat} {f : Fault} (h : runDown2up c s = .error f) :
    f = .sourceReadOutsideValid ∨ (f = .downNeverRotates ∧ s.deltaDown.toNat % 2 ^ 28 = 0) := by
  rcases runDown2up_eq_error.1 h with h | ⟨c₁, u, -, h⟩
  · exact runDown_error_reason h
  · exact .inl (runUp_error h)

/-- With a delta that cannot rotate the ring `UP2DOWN16` has no end exactly when its up pass has one (rules R158, R164). -/
theorem runUp2down_neverRotates_iff {s : State} {c : Nat} (hd : s.deltaDown.toNat % 2 ^ 28 = 0) :
    runUp2down c s = .error .downNeverRotates ↔ ∃ c₁ u, runUp c .dst s = .ok (c₁, u) := by
  rw [runUp2down_eq_error]
  constructor
  · rintro (h | ⟨c₁, u, hu, -⟩)
    · cases runUp_error h
    · exact ⟨c₁, u, hu⟩
  · rintro ⟨c₁, u, hu⟩
    exact .inr ⟨c₁, u, hu, runDown_of_not_canRotate c .tmp (by rwa [landDown_deltaDown_of_runUp hu])⟩

/-- A block operation is never refused (rule R220). -/
theorem exec_process16_ne_refused {c : Nat} {i : Instr} (hi : IsProcess16 c i) (s : State) (r : Refusal) :
    exec i s ≠ .refused r := by
  rcases hi with rfl | rfl | rfl | rfl <;> simp [answer_ne_refused]

/-- Why a block operation is stuck (rules R60, R158). -/
theorem exec_process16_fault_reason {c : Nat} {i : Instr} (hi : IsProcess16 c i) {s : State} {f : Fault}
    (h : exec i s = .fault f) :
    f = .sourceReadOutsideValid ∨ (f = .downNeverRotates ∧ s.deltaDown.toNat % 2 ^ 28 = 0 ∧ i ≠ .up16 c) := by
  rcases hi with rfl | rfl | rfl | rfl
  · rw [exec_up16, answer_eq_fault] at h
    exact .inl (runUp_error h)
  · rw [exec_down16, answer_eq_fault] at h
    simpa using runDown_error_reason h
  · rw [exec_up2down16, answer_eq_fault] at h
    simpa using runUp2down_error_reason h
  · rw [exec_down2up16, answer_eq_fault] at h
    simpa using runDown2up_error_reason h

/-- Settles O35: the reasons of each pass, where the loop of `DOWN16` never spends its budget when its delta can rotate the
ring, because every addition rotates it or uses up room in the period. -/
theorem blocksAreStuckForTwoReasonsOnly : Obligations.BlocksAreStuckForTwoReasonsOnly := by
  unfold Obligations.BlocksAreStuckForTwoReasonsOnly
  intro s c
  refine ⟨fun i hi => ⟨exec_process16_ne_refused hi s, fun f => exec_process16_fault_reason hi⟩, fun hd => ⟨?_, ?_, ?_⟩⟩
  · rw [exec_down16, answer_eq_fault]
    exact runDown_of_not_canRotate c .dst hd
  · rw [exec_down2up16, answer_eq_fault, runDown2up_eq_error]
    exact .inl (runDown_of_not_canRotate c .dst hd)
  · simp [answer_eq_fault, answer_eq_next, runUp2down_neverRotates_iff hd]

end Sys2Proof.Machine

namespace Sys2Proof.Machine

/-! ### The ratio registers, which no block operation writes -/

/-- The four registers of `SET_RATIO` are in `t` as they were in `s` (rule R36). -/
structure RatioRegistersKept (s t : State) : Prop where
  ratio : t.ratio = s.ratio
  downscale : t.downscale = s.downscale
  deltaUp : t.deltaUp = s.deltaUp
  deltaDown : t.deltaDown = s.deltaDown

namespace RatioRegistersKept

variable {s t u : State}

theorem trans (h : RatioRegistersKept s t) (k : RatioRegistersKept t u) : RatioRegistersKept s u :=
  ⟨k.ratio.trans h.ratio, k.downscale.trans h.downscale, k.deltaUp.trans h.deltaUp, k.deltaDown.trans h.deltaDown⟩

theorem of_respond (c : Nat) (s : State) : RatioRegistersKept s (respond c s) := ⟨rfl, rfl, rfl, rfl⟩

theorem of_blend (s : State) : RatioRegistersKept s (blend s) := by constructor <;> simp

/-- From the old engine to the new one of `UP2DOWN16` (rules R164, R166, R167). -/
theorem of_landDown (s : State) : RatioRegistersKept s (clearOutputAccum (setMode .down (complementPhase s))) :=
  ⟨rfl, rfl, rfl, rfl⟩

/-- From the old engine to the new one of `DOWN2UP16` (rules R165, R166, R167). -/
theorem of_landUp (s : State) : RatioRegistersKept s (clearInputRing (setMode .up (complementPhase s))) :=
  ⟨rfl, rfl, rfl, rfl⟩

theorem of_runUp {c c' : Nat} {b : Buffer} (h : runUp c b s = .ok (c', t)) : RatioRegistersKept s t := by
  obtain ⟨p, -, -, rfl⟩ := runUp_eq_ok.1 h
  cases b <;> exact ⟨rfl, rfl, rfl, rfl⟩

theorem of_runDown {c c' : Nat} {b : Buffer} (h : runDown c b s = .ok (c', t)) : RatioRegistersKept s t := by
  obtain ⟨-, p, -, -, rfl⟩ := runDown_eq_ok.1 h
  cases b <;> exact ⟨rfl, rfl, rfl, rfl⟩

theorem of_runUp2down {c c' : Nat} (h : runUp2down c s = .ok (c', t)) : RatioRegistersKept s t := by
  obtain ⟨_, u, v, hu, hv, rfl⟩ := runUp2down_eq_ok.1 h
  exact (of_runUp hu).trans ((of_landDown u).trans ((of_runDown hv).trans (of_blend v)))

theorem of_runDown2up {c c' : Nat} (h : runDown2up c s = .ok (c', t)) : RatioRegistersKept s t := by
  obtain ⟨_, u, v, hu, hv, rfl⟩ := runDown2up_eq_ok.1 h
  exact (of_runDown hu).trans ((of_landUp u).trans ((of_runUp hv).trans (of_blend v)))

/-- A block operation keeps the ratio registers when the passes it runs do. -/
theorem of_answer {r : Except Fault (Nat × State)} (h : answer r = .next t)
    (hr : ∀ c u, r = .ok (c, u) → RatioRegistersKept s u) : RatioRegistersKept s t := by
  obtain ⟨c, u, rfl, rfl⟩ := answer_eq_next.1 h
  exact (hr c u rfl).trans (of_respond c u)

/-- Every block operation that completes keeps the ratio registers (rule R36). -/
theorem of_process16 {c : Nat} {i : Instr} (hi : IsProcess16 c i) (h : exec i s = .next t) : RatioRegistersKept s t := by
  rcases hi with rfl | rfl | rfl | rfl
  · rw [exec_up16] at h; exact of_answer h fun _ _ => of_runUp
  · rw [exec_down16] at h; exact of_answer h fun _ _ => of_runDown
  · rw [exec_up2down16] at h; exact of_answer h fun _ _ => of_runUp2down
  · rw [exec_down2up16] at h; exact of_answer h fun _ _ => of_runDown2up

end RatioRegistersKept

/-! ### What else the engines and the transitions leave, and where a transition lands -/

/-- A completed `UP16` writes neither `mode`, nor the pending sums, nor `TMP` (rules R36, R140). -/
theorem execUp16_keeps {s t : State} {c : Nat} (h : exec (.up16 c) s = .next t) :
    t.mode = s.mode ∧ t.outputAccum = s.outputAccum ∧ t.tmp = s.tmp := by
  rw [exec_up16] at h
  obtain ⟨c', u, hu, rfl⟩ := answer_eq_next.1 h
  obtain ⟨p, -, -, rfl⟩ := runUp_eq_ok.1 hu
  simp

/-- A completed `DOWN16` writes neither `mode`, nor the recent samples, nor `TMP` (rules R36, R150). -/
theorem execDown16_keeps {s t : State} {c : Nat} (h : exec (.down16 c) s = .next t) :
    t.mode = s.mode ∧ t.inputRing = s.inputRing ∧ t.tmp = s.tmp := by
  rw [exec_down16] at h
  obtain ⟨c', u, hu, rfl⟩ := answer_eq_next.1 h
  obtain ⟨-, p, -, -, rfl⟩ := runDown_eq_ok.1 hu
  simp

/-- `UP2DOWN16` lands in `DOWN`: its down pass and the blend leave the `mode` written between the passes (rule R164). -/
theorem execUp2down16_mode {s t : State} {c : Nat} (h : exec (.up2down16 c) s = .next t) : t.mode = .down := by
  rw [exec_up2down16] at h
  obtain ⟨c', v, hv, rfl⟩ := answer_eq_next.1 h
  obtain ⟨_, u, w, -, hw, rfl⟩ := runUp2down_eq_ok.1 hv
  obtain ⟨-, p, -, -, rfl⟩ := runDown_eq_ok.1 hw
  simp

/-- `DOWN2UP16` lands in `UP`: its up pass and the blend leave the `mode` written between the passes (rule R165). -/
theorem execDown2up16_mode {s t : State} {c : Nat} (h : exec (.down2up16 c) s = .next t) : t.mode = .up := by
  rw [exec_down2up16] at h
  obtain ⟨c', v, hv, rfl⟩ := answer_eq_next.1 h
  obtain ⟨_, u, w, -, hw, rfl⟩ := runDown2up_eq_ok.1 hv
  obtain ⟨p, -, -, rfl⟩ := runUp_eq_ok.1 hw
  simp

/-- Settles O36: the ratio registers and the host's side are kept by every block operation, the rest by the engine's own
finish, which writes `phase`, one array and `DST`. -/
theorem singleEngineFrame : Obligations.SingleEngineFrame := by
  unfold Obligations.SingleEngineFrame
  intro s t c
  constructor
  · intro h
    obtain ⟨hratio, hds, hup, hdown⟩ := RatioRegistersKept.of_process16 (.inl rfl : IsProcess16 c (.up16 c)) h
    obtain ⟨hrom, henv, hw, hsrc, hvalid, hin⟩ := HostSideKept.of_exec h
    obtain ⟨hmode, hacc, htmp⟩ := execUp16_keeps h
    exact ⟨hratio, hds, hup, hdown, hmode, hacc, htmp, hrom, henv, hw, hvalid, hin, fun _ => by rw [hsrc]⟩
  · intro h
    obtain ⟨hratio, hds, hup, hdown⟩ := RatioRegistersKept.of_process16 (.inr (.inl rfl) : IsProcess16 c (.down16 c)) h
    obtain ⟨hrom, henv, hw, hsrc, hvalid, hin⟩ := HostSideKept.of_exec h
    obtain ⟨hmode, hring, htmp⟩ := execDown16_keeps h
    exact ⟨hratio, hds, hup, hdown, hmode, hring, htmp, hrom, henv, hw, hvalid, hin, fun _ => by rw [hsrc]⟩

/-- Settles O37: both frames of the block operations, and the landing of each transition. -/
theorem transitionFrame : Obligations.TransitionFrame := by
  unfold Obligations.TransitionFrame
  intro s t c i hi h
  have hp : IsProcess16 c i := .inr (.inr hi)
  obtain ⟨hratio, hds, hup, hdown⟩ := RatioRegistersKept.of_process16 hp h
  obtain ⟨hrom, henv, hw, hsrc, hvalid, hin⟩ := HostSideKept.of_exec h
  refine ⟨hratio, hds, hup, hdown, hrom, henv, hw, hvalid, hin, fun _ => by rw [hsrc], ?_, ?_⟩
  · rintro rfl
    exact execUp2down16_mode h
  · rintro rfl
    exact execDown2up16_mode h

/-! ### The invariant -/

/-- The conversions of 1.0 are what `RESET` writes (rules R35, R240). -/
theorem conversions_of_one :
    downscaleOf oneSample = oneSample ∧ deltaUpOf oneSample = 0x02000000#32 ∧ deltaDownOf oneSample = 0x02000000#32 := by
  decide +kernel

namespace Inv

variable {s t : State}

/-- What leaves the ratio registers and the host's side leaves the invariant. -/
theorem of_kept (hs : Inv s) (hr : RatioRegistersKept s t) (hh : HostSideKept s t) : Inv t where
  ratio := by rw [hh.envelope, hr.ratio]; exact hs.ratio
  downscale := by rw [hr.downscale, hr.ratio]; exact hs.downscale
  deltaUp := by rw [hr.deltaUp, hr.ratio]; exact hs.deltaUp
  deltaDown := by rw [hr.deltaDown, hr.ratio]; exact hs.deltaDown
  source := by rw [hh.src, hh.cursorW]; exact hs.source

/-- `RESET` establishes the register part, whatever the envelope is (rule R240). -/
theorem of_resetRegisters (hsrc : s.src.wf s.cursorW = true) : Inv (resetRegisters s) := by
  obtain ⟨hds, hup, hdown⟩ := conversions_of_one
  exact ⟨admitted_one s.envelope, hds.symm, hup.symm, hdown.symm, hsrc⟩

/-- `SET_RATIO` and `TRANSPOSE` load an admitted ratio with its conversions, or complete not at all (rules R88, R110). -/
theorem of_applyRatio {q : Sample} (hs : Inv s) (h : applyRatio q s = .next t) : Inv t := by
  obtain ⟨hq, rfl⟩ := applyRatio_eq_next.1 h
  exact ⟨hq, rfl, rfl, rfl, hs.source⟩

theorem of_execTranspose {x : Sample} (hs : Inv s) (h : execTranspose x s = .next t) : Inv t := by
  cases hx : isFinite x with
  | true => rw [execTranspose_of_finite hx, execSetRatio] at h; exact hs.of_applyRatio h
  | false => rw [execTranspose_of_not_finite hx] at h; cases h

theorem of_process16 {c : Nat} {i : Instr} (hi : IsProcess16 c i) (hs : Inv s) (h : exec i s = .next t) : Inv t :=
  hs.of_kept (.of_process16 hi h) (.of_exec h)

/-- Every row of the opcode table that completes keeps the invariant. -/
theorem of_exec {i : Instr} (hs : Inv s) (h : exec i s = .next t) : Inv t := by
  cases i with
  | reset => rw [exec_reset] at h; cases h; exact of_resetRegisters hs.source
  | setRatio q => rw [exec_setRatio] at h; exact hs.of_applyRatio h
  | transpose x => rw [exec_transpose] at h; exact hs.of_execTranspose h
  | up16 c => exact of_process16 (c := c) (.inl rfl) hs h
  | down16 c => exact of_process16 (c := c) (.inr (.inl rfl)) hs h
  | up2down16 c => exact of_process16 (c := c) (.inr (.inr (.inl rfl))) hs h
  | down2up16 c => exact of_process16 (c := c) (.inr (.inr (.inr rfl))) hs h
  | reserved cmd => rw [exec_reserved] at h; cases h

theorem of_acceptCommand (rest : List Input) (hs : Inv s) : Inv (acceptCommand rest s) :=
  ⟨hs.ratio, hs.downscale, hs.deltaUp, hs.deltaDown, hs.source⟩

/-- The host writes `SRC` at a reduced cursor, so the canonical form stays (rules R59, R64). -/
theorem of_hostWriteSource (c : Nat) (v : Sample) (rest : List Input) (hs : Inv s) : Inv (hostWriteSource c v rest s) :=
  ⟨hs.ratio, hs.downscale, hs.deltaUp, hs.deltaDown, memory_write_wf v hs.source (wrapCursor_lt _ _)⟩

theorem of_hostSetValid (ws : List Window) (rest : List Input) (hs : Inv s) : Inv (hostSetValid ws rest s) :=
  ⟨hs.ratio, hs.downscale, hs.deltaUp, hs.deltaDown, hs.source⟩

end Inv

/-- Settles O13: the registers of `State.reset` are those `RESET` writes, and its `SRC` is empty. -/
theorem invariantHoldsAtReset : Obligations.InvariantHoldsAtReset :=
  Inv.of_resetRegisters (s := State.reset) (memory_wf_nil Config.defaultCursorW)

/-- Settles O14: by the host's next input; a command by the row it runs, which writes the ratio registers together with
admitted conversions or leaves them. -/
theorem everyStepKeepsTheInvariant : Obligations.EveryStepKeepsTheInvariant := by
  unfold Obligations.EveryStepKeepsTheInvariant
  intro s t hs h
  cases hi : s.inputs with
  | nil =>
    rw [step_idle hi] at h
    cases h
    exact hs
  | cons i rest =>
    cases i with
    | command cmd arg =>
      rw [step_command hi] at h
      exact (hs.of_acceptCommand rest).of_exec h
    | writeSource c v =>
      rw [step_writeSource hi] at h
      cases h
      exact hs.of_hostWriteSource c v rest
    | setValid ws =>
      rw [step_setValid hi] at h
      cases h
      exact hs.of_hostSetValid ws rest

/-! ### The values of a ratio operand -/

/-- The model reads a sample in units of `2^-149`, the least subnormal, without loss (rule R197). -/
theorem sampleValue_eq_sampleUnits (x : Sample) : sampleValue x = (sampleUnits x : ℚ) / 2 ^ 149 := by
  by_cases he : expField x = 0#8
  · simp only [sampleValue, sampleUnits, magUnits, if_pos he]
    split <;> push_cast <;> ring
  · obtain ⟨k, hk⟩ := Nat.exists_eq_add_one_of_ne_zero (fun h0 => he (BitVec.eq_of_toNat_eq h0))
    simp only [sampleValue, sampleUnits, magUnits, if_neg he, hk, Nat.add_sub_cancel, pow_succ]
    split <;> push_cast <;> ring

theorem sampleValue_of_pos {x : Sample} (h : signBit x = false) : sampleValue x = (magUnits x : ℚ) / 2 ^ 149 := by
  simp [sampleValue_eq_sampleUnits, sampleUnits, h]

/-- The operand check of rule R88 in exact integers. -/
theorem admitted_iff {e : Config.Envelope} {q : Sample} :
    admitted e q = true ↔ isFinite q = true ∧ signBit q = false ∧
      e.loNum * 2 ^ 149 ≤ magUnits q * e.loDen ∧ magUnits q * e.hiDen ≤ e.hiNum * 2 ^ 149 := by
  simp [admitted, and_assoc]

/-- Both bounds of an envelope have positive denominators. -/
theorem envelope_den_pos (e : Config.Envelope) : 0 < e.loDen ∧ 0 < e.hiDen := by
  obtain ⟨h1, h2⟩ := e.holdsOne
  obtain ⟨h3, h4⟩ := e.fits
  omega

/-- Inside any envelope an admitted operand lies strictly between `2^-7` and `2^7` (rules R88, R196; log entry 7). -/
theorem magUnits_of_admitted {e : Config.Envelope} {q : Sample} (h : admitted e q = true) :
    2 ^ 142 < magUnits q ∧ magUnits q < 2 ^ 156 := by
  obtain ⟨-, -, hlo, hhi⟩ := admitted_iff.1 h
  obtain ⟨h1, h2⟩ := e.fits
  constructor
  · by_contra hc
    have := Nat.mul_le_mul_right e.loDen (Nat.le_of_not_lt hc)
    omega
  · by_contra hc
    have := Nat.mul_le_mul_right e.hiDen (Nat.le_of_not_lt hc)
    omega

/-- Within the default envelope an admitted operand lies in `[1/7, 7]` (rule R88). -/
theorem magUnits_of_admitted_withinDefault {e : Config.Envelope} {q : Sample} (h : admitted e q = true)
    (he : WithinDefault e) : 2 ^ 149 ≤ 7 * magUnits q ∧ magUnits q ≤ 7 * 2 ^ 149 := by
  obtain ⟨-, -, hlo, hhi⟩ := admitted_iff.1 h
  obtain ⟨hlo7, hhi7⟩ := he
  obtain ⟨hlo0, hhi0⟩ := envelope_den_pos e
  constructor
  · refine Nat.le_of_mul_le_mul_right ?_ hlo0
    calc 2 ^ 149 * e.loDen ≤ 7 * (e.loNum * 2 ^ 149) := by omega
      _ ≤ 7 * (magUnits q * e.loDen) := Nat.mul_le_mul_left 7 hlo
      _ = 7 * magUnits q * e.loDen := (Nat.mul_assoc ..).symm
  · refine Nat.le_of_mul_le_mul_right ?_ hhi0
    omega

/-- The exact floor of rule R85, in exact integers. -/
theorem floor_up_sampleValue {q : Sample} (h : signBit q = false) :
    ⌊2 ^ 25 * sampleValue q⌋ = ((2 ^ 25 * magUnits q / 2 ^ 149 : Nat) : ℤ) := by
  rw [sampleValue_of_pos h, ← mul_div_assoc]
  exact_mod_cast Rat.floor_natCast_div_natCast (2 ^ 25 * magUnits q) (2 ^ 149)

/-- The exact floor of rule R86, in exact integers. -/
theorem floor_down_sampleValue {q : Sample} (h : signBit q = false) :
    ⌊2 ^ 25 / sampleValue q⌋ = ((2 ^ 25 * 2 ^ 149 / magUnits q : Nat) : ℤ) := by
  rw [sampleValue_of_pos h, div_div_eq_mul_div]
  exact_mod_cast Rat.floor_natCast_div_natCast (2 ^ 25 * 2 ^ 149) (magUnits q)

/-- Inside any envelope neither floor needs more than 32 bits (rule R196; log entry 7). -/
theorem delta_floors_lt {e : Config.Envelope} {q : Sample} (h : admitted e q = true) :
    2 ^ 25 * magUnits q / 2 ^ 149 < 2 ^ 32 ∧ 2 ^ 25 * 2 ^ 149 / magUnits q < 2 ^ 32 := by
  obtain ⟨hlo, hhi⟩ := magUnits_of_admitted h
  exact ⟨by omega, Nat.div_lt_of_lt_mul (by omega)⟩

/-- For an admitted operand `deltaUp` is the floor itself, not the floor modulo `2^32` (rules R85, R196). -/
theorem deltaUpOf_toNat {e : Config.Envelope} {q : Sample} (h : admitted e q = true) :
    (deltaUpOf q).toNat = 2 ^ 25 * magUnits q / 2 ^ 149 := by
  rw [deltaUpOf, BitVec.toNat_ofNat, Nat.mod_eq_of_lt (delta_floors_lt h).1]

/-- For an admitted operand `deltaDown` is the floor itself, not the floor modulo `2^32` (rules R86, R196). -/
theorem deltaDownOf_toNat {e : Config.Envelope} {q : Sample} (h : admitted e q = true) :
    (deltaDownOf q).toNat = 2 ^ 25 * 2 ^ 149 / magUnits q := by
  rw [deltaDownOf, BitVec.toNat_ofNat, Nat.mod_eq_of_lt (delta_floors_lt h).2]

/-- `7·2^25` and the floor of `2^25 / 7` bound `deltaUp` within the default envelope (rule R23). -/
theorem deltaUpOf_bounds {e : Config.Envelope} {q : Sample} (h : admitted e q = true) (he : WithinDefault e) :
    0x00492492 ≤ (deltaUpOf q).toNat ∧ (deltaUpOf q).toNat ≤ 0x0E000000 := by
  obtain ⟨hlo, hhi⟩ := magUnits_of_admitted_withinDefault h he
  rw [deltaUpOf_toNat h]
  omega

/-- `7·2^25` and the floor of `2^25 / 7` bound `deltaDown` within the default envelope (rule R24). -/
theorem deltaDownOf_bounds {e : Config.Envelope} {q : Sample} (h : admitted e q = true) (he : WithinDefault e) :
    0x00492492 ≤ (deltaDownOf q).toNat ∧ (deltaDownOf q).toNat ≤ 0x0E000000 := by
  obtain ⟨hlo, hhi⟩ := magUnits_of_admitted_withinDefault h he
  have hpos : 0 < magUnits q := by omega
  rw [deltaDownOf_toNat h]
  exact ⟨(Nat.le_div_iff_mul_le hpos).2 (by omega), Nat.div_le_of_le_mul (by omega)⟩

/-- Settles O19: an admitted operand lies strictly between `2^-7` and `2^7` in any envelope, and in `[1/7, 7]` within the
default one; both floors are monotone in it. -/
theorem deltasStayInTheirBounds : Obligations.DeltasStayInTheirBounds := by
  unfold Obligations.DeltasStayInTheirBounds
  intro q s t h
  rw [exec_setRatio] at h
  obtain ⟨hq, rfl⟩ := applyRatio_eq_next.1 h
  obtain ⟨-, hsign, -⟩ := admitted_iff.1 hq
  obtain ⟨hup, hdown⟩ := delta_floors_lt hq
  rw [floor_up_sampleValue hsign, floor_down_sampleValue hsign]
  refine ⟨by exact_mod_cast hup, by exact_mod_cast hdown, fun he => ?_⟩
  obtain ⟨hup_lo, hup_hi⟩ := deltaUpOf_bounds hq he
  obtain ⟨hdown_lo, hdown_hi⟩ := deltaDownOf_bounds hq he
  exact ⟨hup_lo, hup_hi, hdown_lo, hdown_hi⟩

end Sys2Proof.Machine

namespace Sys2Proof.Machine

/-! ### The host's write -/

/-- Settles O8: the step is the model's write at the reduced cursor, whose read-back and canonical form are the laws of
`SRC`. -/
theorem hostWriteIsReadBack : Obligations.HostWriteIsReadBack := by
  unfold Obligations.HostWriteIsReadBack
  intro s c v rest hi hwf
  refine ⟨s.src.write (wrapCursor s.cursorW c) v, step_writeSource hi, memory_write_wf v hwf (wrapCursor_lt _ _), ?_, ?_⟩
  · rw [← wrapCursor, memory_read_write _ _ _ hwf, if_pos rfl]
  · intro a ha
    rw [← wrapCursor] at ha
    rw [memory_read_write _ _ _ hwf, if_neg ha]

/-! ### What a pass adds to the access record -/

/-- Filling slot `m` extends the filled slots, numbered in order, by that one. -/
theorem range_zip_setIfInBounds (v : Block) {m : Nat} (y : Sample) (hm : m < 16) :
    (List.range (m + 1)).zip (v.setIfInBounds m y).toList = (List.range m).zip v.toList ++ [(m, y)] := by
  apply List.ext_getElem
  · simp; omega
  · intro i h₁ h₂
    simp only [List.length_zip, List.length_range, Vector.length_toList] at h₁
    have hi16 : i < 16 := by omega
    by_cases hi : i = m
    · subst hi
      simp [hm.le]
    · have hlt : i < m := by omega
      simp [hlt, hi16, Ne.symm hi]

/-- What a pass from cursor `c` into buffer `b` has added to the access record when it has read `k` samples and filled the
first `m` slots of `out`: reads at consecutive cursors, one write of each filled slot in order, none of the other buffer
(rules R61, R188; log entry 16). -/
structure PassRecord (w c k : Nat) (b : Buffer) (m : Nat) (out : Block) (l : List Access) : Prop where
  reads : sourceCursors l = cursorsFrom w c k
  writes : bufferWrites b l = (List.range m).zip out.toList
  others : ∀ b', b' ≠ b → bufferWrites b' l = []

@[simp] theorem bufferWrites_write_same (b : Buffer) (n : Nat) (v : Sample) :
    bufferWrites b [.write b n v] = [(n, v)] := by simp [bufferWrites]

theorem bufferWrites_write_other {b b' : Buffer} (n : Nat) (v : Sample) (h : b' ≠ b) :
    bufferWrites b' [.write b n v] = [] := by simp [bufferWrites, h.symm]

namespace PassRecord

variable {w c k j m : Nat} {b : Buffer} {out : Block} {l l' : List Access}

theorem nil (w c : Nat) (b : Buffer) (out : Block) : PassRecord w c 0 b 0 out [] :=
  ⟨rfl, rfl, fun _ _ => rfl⟩

/-- Accesses that only read go on from the cursor reached. -/
theorem append_reads (h : PassRecord w c k b m out l) (hr : sourceCursors l' = cursorsFrom w (c + k) j)
    (hw : ∀ b', bufferWrites b' l' = []) : PassRecord w c (k + j) b m out (l ++ l') where
  reads := by rw [sourceCursors_append, h.reads, hr, cursorsFrom_add]
  writes := by rw [bufferWrites_append, h.writes, hw, List.append_nil]
  others := fun b' hb => by rw [bufferWrites_append, h.others b' hb, hw, List.append_nil]

/-- The write of the next slot. -/
theorem append_write (h : PassRecord w c k b m out l) (hm : m < 16) (y : Sample) :
    PassRecord w c k b (m + 1) (out.setIfInBounds m y) (l ++ [.write b m y]) where
  reads := by rw [sourceCursors_append, h.reads, sourceCursors_write, List.append_nil]
  writes := by rw [bufferWrites_append, h.writes, bufferWrites_write_same, range_zip_setIfInBounds out y hm]
  others := fun b' hb => by
    rw [bufferWrites_append, h.others b' hb, bufferWrites_write_other m y hb, List.append_nil]

end PassRecord

/-- The record of `n` output samples of `UP16`. -/
theorem upSteps_record {s : State} {c : Nat} {b : Buffer} : ∀ {n : Nat} {p : UpPass}, n ≤ 16 →
    upSteps s b n (upStart s c b) = .ok p →
    ∃ k l, p.cursor = c + k ∧ p.accesses = s.accesses ++ l ∧ PassRecord s.cursorW c k b n p.out l := by
  intro n
  induction n with
  | zero =>
    intro p _ h
    cases h
    exact ⟨0, [], rfl, (List.append_nil _).symm, .nil _ _ _ _⟩
  | succ n ih =>
    intro p hn h
    obtain ⟨q, hq, h⟩ := upSteps_succ_eq_ok.1 h
    obtain ⟨k, l, hk, hl, hrec⟩ := ih (by omega) hq
    obtain ⟨j, -, -, -, -, hj, -, hout, hacc, -⟩ := upStep_spec h
    have hreads := hrec.append_reads (l' := (cursorsFrom s.cursorW q.cursor j).map .sourceRead ++ upRomReads p.phase)
      (j := j) (by simp [hk]) (by simp)
    refine ⟨k + j, _, by omega, ?_, hout ▸ hreads.append_write hn _⟩
    rw [hacc, hl]
    simp

/-- A source sample counts one output more when it rotates the ring, else none (rules R155, R156). -/
theorem downStep_emitted {s : State} {b : Buffer} {p q : DownPass} (h : downStep s b p = .ok q) :
    q.emitted = p.emitted + if rotated p.phase (p.phase + s.deltaDown) = true then 1 else 0 := by
  obtain ⟨-, -, -, -, acc, -, hr⟩ := downStep_spec h
  split at hr
  · next hrot =>
    obtain ⟨-, -, hem, -⟩ := hr
    rw [if_pos hrot, hem]
  · next hrot =>
    obtain ⟨-, -, hem, -⟩ := hr
    rw [if_neg hrot, hem, Nat.add_zero]

/-- The record of `n` source samples of `DOWN16`, while no more than sixteen slots are filled. -/
theorem downSteps_record {s : State} {c : Nat} {b : Buffer} : ∀ {n : Nat} {p : DownPass}, p.emitted ≤ 16 →
    downSteps s b n (downStart s c b) = .ok p →
    ∃ l, p.accesses = s.accesses ++ l ∧ PassRecord s.cursorW c n b p.emitted p.out l := by
  intro n
  induction n with
  | zero =>
    intro p _ h
    cases h
    exact ⟨[], (List.append_nil _).symm, .nil _ _ _ _⟩
  | succ n ih =>
    intro p hp h
    obtain ⟨q, hq, h⟩ := downSteps_succ_eq_ok.1 h
    have hem := downStep_emitted h
    obtain ⟨-, -, hcursor, -⟩ := downSteps_phase hq
    obtain ⟨l, hl, hrec⟩ := ih (by omega) hq
    have hreads := hrec.append_reads (l' := .sourceRead (wrapCursor s.cursorW q.cursor) :: downRomReads q.phase) (j := 1)
      (by simp [cursorsFrom, hcursor]) (by simp)
    obtain ⟨-, -, -, -, acc, -, hr⟩ := downStep_spec h
    split at hr
    · obtain ⟨hout, -, hem', hacc⟩ := hr
      refine ⟨_, ?_, hem' ▸ hout ▸ hreads.append_write (by omega) _⟩
      rw [hacc, hl]
      simp
    · obtain ⟨hout, -, hem', hacc⟩ := hr
      refine ⟨_, ?_, hem' ▸ hout ▸ hreads⟩
      rw [hacc, hl]
      simp

/-- A completed loop of `DOWN16` has filled sixteen slots exactly (rule R151). -/
theorem downLoop_emitted {s : State} {c : Nat} {b : Buffer} {fuel : Nat} {p : DownPass}
    (h : downLoop s b fuel (downStart s c b) = .ok p) : p.emitted = 16 := by
  obtain ⟨m, -, hm, hdone, hmore⟩ := downLoop_eq_ok h
  cases m with
  | zero => cases hm; exact absurd (Nat.zero_lt_succ 15) hdone
  | succ m =>
    obtain ⟨q, hq, hp⟩ := downSteps_succ_eq_ok.1 hm
    obtain ⟨q', hq', hlt⟩ := hmore m (by omega)
    cases hq.symm.trans hq'
    have := downStep_emitted hp
    split at this <;> omega

/-- The record of a completed `UP16(c, B)` (rules R61, R188). -/
theorem runUp_record {s t : State} {c c' : Nat} {b : Buffer} (h : runUp c b s = .ok (c', t)) :
    ∃ k l, c' = c + k ∧ t.accesses = s.accesses ++ l ∧ PassRecord s.cursorW c k b 16 (blockOf b t) l := by
  obtain ⟨p, hp, rfl, rfl⟩ := runUp_eq_ok.1 h
  have := upSteps_record le_rfl hp
  cases b <;> exact this

/-- The record of a completed `DOWN16(c, B)` (rules R61, R188). -/
theorem runDown_record {s t : State} {c c' : Nat} {b : Buffer} (h : runDown c b s = .ok (c', t)) :
    ∃ k l, c' = c + k ∧ t.accesses = s.accesses ++ l ∧ PassRecord s.cursorW c k b 16 (blockOf b t) l := by
  obtain ⟨-, p, hp, rfl, rfl⟩ := runDown_eq_ok.1 h
  have hem := downLoop_emitted hp
  obtain ⟨m, -, hm, -⟩ := downLoop_eq_ok hp
  obtain ⟨-, -, hcursor, -⟩ := downSteps_phase hm
  obtain ⟨l, hl, hrec⟩ := downSteps_record hem.le hm
  refine ⟨m, l, hcursor, ?_, ?_⟩
  · cases b <;> exact hl
  · rw [hem] at hrec
    cases b <;> exact hrec

/-- Settles O42: both engines by the record of their pass into `DST`. -/
theorem engineAccessesInOrder : Obligations.EngineAccessesInOrder := by
  unfold Obligations.EngineAccessesInOrder
  intro s t c i hi h
  have hpass : ∃ c' u, (runUp c .dst s = .ok (c', u) ∨ runDown c .dst s = .ok (c', u)) ∧ t = respond c' u := by
    rcases hi with rfl | rfl
    · obtain ⟨c', u, hu, rfl⟩ := answer_eq_next.1 h
      exact ⟨c', u, .inl hu, rfl⟩
    · obtain ⟨c', u, hu, rfl⟩ := answer_eq_next.1 h
      exact ⟨c', u, .inr hu, rfl⟩
  obtain ⟨c', u, hu, rfl⟩ := hpass
  have hw : u.cursorW = s.cursorW := hu.elim (fun h => (HostSideKept.of_runUp h).cursorW) fun h =>
    (HostSideKept.of_runDown h).cursorW
  obtain ⟨k, l, rfl, hl, hrec⟩ := hu.elim runUp_record runDown_record
  exact ⟨l, k, hl, hrec.reads, by rw [← hw]; rfl, hrec.writes, hrec.others .tmp (by decide)⟩

/-! ### The record of a transition block -/

@[simp] theorem sourceCursors_blendAccesses (d : Nat) (dst tmp : Block) : sourceCursors (blendAccesses d dst tmp) = [] := rfl
@[simp] theorem bufferWrites_tmp_blendAccesses (d : Nat) (dst tmp : Block) :
    bufferWrites .tmp (blendAccesses d dst tmp) = [] := rfl

/-- The blend writes the last eight slots of `DST` in order, with the values they end with (rule R168). -/
theorem bufferWrites_dst_blendAccesses (d : Nat) (dst tmp : Block) :
    bufferWrites .dst (blendAccesses d dst tmp) = ((List.range 16).zip (blendBlock d dst tmp).toList).drop 8 := by
  have hblend : bufferWrites .dst (blendAccesses d dst tmp) =
      (List.finRange 8).map fun j => (8 + j.val, blendSample d dst tmp j) := rfl
  rw [hblend]
  apply List.ext_getElem
  · simp
  · intro i h₁ h₂
    have hi : i < 8 := by simpa using h₁
    simpa using (blendBlock_fade d dst tmp ⟨i, hi⟩).symm

/-- The record and the response of a pass into `DST`, a pass into `TMP` from the same cursor, and the blend (rules R164,
R165, R168, R169). -/
theorem respond_blend_record {s u v : State} {c m n : Nat} {l₁ l₂ : List Access} (hl₁ : u.accesses = s.accesses ++ l₁)
    (h₁ : PassRecord s.cursorW c m .dst 16 u.dst l₁) (hl₂ : v.accesses = u.accesses ++ l₂)
    (h₂ : PassRecord s.cursorW c n .tmp 16 v.tmp l₂) (hw : v.cursorW = s.cursorW) :
    let t := respond (c + n) (blend v)
    ∃ l, t.accesses = s.accesses ++ l ∧
      sourceCursors l = cursorsFrom s.cursorW c m ++ cursorsFrom s.cursorW c n ∧
      t.response = some (wrapCursor s.cursorW (c + n)) ∧
      bufferWrites .tmp l = (List.range 16).zip t.tmp.toList ∧
      bufferWrites .dst l = (List.range 16).zip u.dst.toList ++ ((List.range 16).zip t.dst.toList).drop 8 := by
  refine ⟨l₁ ++ l₂ ++ blendAccesses v.draws v.dst v.tmp, ?_, ?_, ?_, ?_, ?_⟩
  · simp [hl₁, hl₂]
  · simp [h₁.reads, h₂.reads]
  · simp [hw]
  · simp [h₁.others .tmp (by decide), h₂.writes]
  · simp [h₁.writes, h₂.others .dst (by decide), bufferWrites_dst_blendAccesses]

/-- Settles O43: the records of the two passes, the second from the state the first has left, and of the blend. -/
theorem transitionReadsTheSourceTwice : Obligations.TransitionReadsTheSourceTwice := by
  unfold Obligations.TransitionReadsTheSourceTwice
  intro s t c i hi h
  rcases hi with rfl | rfl
  · obtain ⟨_, _, hrun, rfl⟩ := answer_eq_next.1 h
    obtain ⟨_, u, v, hu, hv, rfl⟩ := runUp2down_eq_ok.1 hrun
    have hland := (HostSideKept.of_runUp hu).trans (.of_landDown u)
    obtain ⟨m, l₁, -, hl₁, h₁⟩ := runUp_record hu
    obtain ⟨n, l₂, rfl, hl₂, h₂⟩ := runDown_record hv
    obtain ⟨l, hl⟩ := respond_blend_record hl₁ h₁ hl₂ (hland.cursorW ▸ h₂) (hland.trans (.of_runDown hv)).cursorW
    exact ⟨l, m, n, u.dst, hl⟩
  · obtain ⟨_, _, hrun, rfl⟩ := answer_eq_next.1 h
    obtain ⟨_, u, v, hu, hv, rfl⟩ := runDown2up_eq_ok.1 hrun
    have hland := (HostSideKept.of_runDown hu).trans (.of_landUp u)
    obtain ⟨m, l₁, -, hl₁, h₁⟩ := runDown_record hu
    obtain ⟨n, l₂, rfl, hl₂, h₂⟩ := runUp_record hv
    obtain ⟨l, hl⟩ := respond_blend_record hl₁ h₁ hl₂ (hland.cursorW ▸ h₂) (hland.trans (.of_runUp hv)).cursorW
    exact ⟨l, m, n, u.dst, hl⟩

end Sys2Proof.Machine

namespace Sys2Proof.Machine

/-! ### Readable stretches -/

theorem windowValid_add {s : State} {c m n : Nat} :
    WindowValid s c (m + n) ↔ WindowValid s c m ∧ WindowValid s (c + m) n := by
  constructor
  · intro h
    refine ⟨fun j hj => h j (by omega), fun j hj => ?_⟩
    rw [Nat.add_assoc]
    exact h (m + j) (by omega)
  · rintro ⟨hm, hn⟩ j hj
    by_cases hjm : j < m
    · exact hm j hjm
    · have := hn (j - m) (by omega)
      rwa [show c + m + (j - m) = c + j by omega] at this

theorem WindowValid.mono {s : State} {c m n : Nat} (h : WindowValid s c n) (hmn : m ≤ n) : WindowValid s c m :=
  fun j hj => h j (by omega)

/-- What keeps the host's side keeps what is readable. -/
theorem windowValid_of_kept {s t : State} (h : HostSideKept s t) (c n : Nat) : WindowValid t c n ↔ WindowValid s c n := by
  unfold WindowValid
  rw [h.cursorW, h.srcValid]

/-! ### Whole periods and the ring -/

theorem periodsPassed_succ_le {p d : U32} {k : Nat} (hd : d.toNat ≤ k * 2 ^ 25) (n : Nat) :
    periodsPassed p d (n + 1) ≤ periodsPassed p d n + k := by
  unfold periodsPassed
  rw [Nat.succ_mul]
  omega

/-- Up to seven periods at a time, one addition advances the ring by the periods it passes (rules R142, R193). -/
theorem periodsPassed_succ_eq {p d : U32} (hd : d.toNat ≤ 7 * 2 ^ 25) (n : Nat) :
    periodsPassed p d (n + 1) =
      periodsPassed p d n + slotsAdvanced (phaseAfter p d n) (phaseAfter p d n + d) := by
  have hle := periodsPassed_mono p d (Nat.le_add_right n 1)
  have hlt := periodsPassed_succ_le (p := p) hd n
  unfold slotsAdvanced
  rw [← phaseAfter_succ, ringOf_phaseAfter, ringOf_phaseAfter]
  simp only [BitVec.toNat_sub, BitVec.toNat_add, BitVec.toNat_ofNat]
  omega

/-! ### When `UP16` completes -/

theorem upStep_completes_iff {s : State} {b : Buffer} {n : Nat} {p : UpPass} :
    (∃ p', upStep s b n p = .ok p') ↔ WindowValid s p.cursor (slotsAdvanced p.phase (p.phase + s.deltaUp)) := by
  constructor
  · rintro ⟨p', h⟩
    obtain ⟨k, -, rfl, hv, -⟩ := upStep_spec h
    exact hv
  · exact upStep_completes b n

/-- After `n` output samples the cursor has counted the periods that `n` additions pass (rules R145, R147). -/
theorem upSteps_cursor {s : State} {c : Nat} {b : Buffer} (hd : s.deltaUp.toNat ≤ 7 * 2 ^ 25) : ∀ {n : Nat} {p : UpPass},
    upSteps s b n (upStart s c b) = .ok p → p.cursor = c + periodsPassed s.phase s.deltaUp n := by
  intro n
  induction n with
  | zero => intro p h; cases h; simp [periodsPassed_zero]
  | succ n ih =>
    intro p h
    obtain ⟨q, hq, h⟩ := upSteps_succ_eq_ok.1 h
    obtain ⟨hphase, -⟩ := upSteps_phase hq
    obtain ⟨k, -, hk, -, -, hcursor, -⟩ := upStep_spec h
    rw [hcursor, ih hq, hk, hphase, periodsPassed_succ_eq hd, upStart_phase, Nat.add_assoc]

theorem upSteps_completes_iff {s : State} {c : Nat} {b : Buffer} (hd : s.deltaUp.toNat ≤ 7 * 2 ^ 25) (n : Nat) :
    (∃ p, upSteps s b n (upStart s c b) = .ok p) ↔ WindowValid s c (periodsPassed s.phase s.deltaUp n) := by
  induction n with
  | zero => simp [upSteps, periodsPassed_zero, WindowValid]
  | succ n ih =>
    have hstep : ∀ q, upSteps s b n (upStart s c b) = .ok q → ((∃ p, upStep s b n q = .ok p) ↔
        WindowValid s (c + periodsPassed s.phase s.deltaUp n)
          (slotsAdvanced (phaseAfter s.phase s.deltaUp n) (phaseAfter s.phase s.deltaUp n + s.deltaUp))) := by
      intro q hq
      rw [upStep_completes_iff, upSteps_cursor hd hq, (upSteps_phase hq).1, upStart_phase]
    rw [periodsPassed_succ_eq hd, windowValid_add, ← ih]
    simp only [upSteps_succ_eq_ok]
    constructor
    · rintro ⟨p, q, hq, h⟩
      exact ⟨⟨q, hq⟩, (hstep q hq).1 ⟨p, h⟩⟩
    · rintro ⟨⟨q, hq⟩, hw⟩
      obtain ⟨p, h⟩ := (hstep q hq).2 hw
      exact ⟨p, q, hq, h⟩

/-- `UP16(c, B)` completes exactly when the cursors of its consumption formula are readable (rules R60, R147). -/
theorem runUp_completes_iff {s : State} {c : Nat} {b : Buffer} (hd : s.deltaUp.toNat ≤ 7 * 2 ^ 25) :
    (∃ x, runUp c b s = .ok x) ↔ WindowValid s c (upConsumption s.phase s.deltaUp) := by
  rw [upConsumption, ← upSteps_completes_iff (b := b) hd]
  simp [runUp_eq_ok]

theorem runUp_cursor {s t : State} {c c' : Nat} {b : Buffer} (hd : s.deltaUp.toNat ≤ 7 * 2 ^ 25)
    (h : runUp c b s = .ok (c', t)) : c' = c + upConsumption s.phase s.deltaUp := by
  obtain ⟨p, hp, rfl, -⟩ := runUp_eq_ok.1 h
  exact upSteps_cursor hd hp

/-- `UP16` advances `phase` by sixteen deltas, whatever the delta is (rule R145). -/
theorem runUp_phase {s t : State} {c c' : Nat} {b : Buffer} (h : runUp c b s = .ok (c', t)) :
    t.phase = s.phase + 16#32 * s.deltaUp := by
  obtain ⟨p, hp, -, rfl⟩ := runUp_eq_ok.1 h
  obtain ⟨hphase, -⟩ := upSteps_phase hp
  cases b <;> exact hphase

/-! ### When `DOWN16` completes -/

/-- How many outputs `n` source samples of `DOWN16` finish: one for each period passed up to `d = 2^25`, one for each sample
above (rules R155 to R157). -/
def emittedAfter (p d : U32) (n : Nat) : Nat := if d.toNat ≤ 2 ^ 25 then periodsPassed p d n else n

theorem emittedAfter_succ {p d : U32} (hd : d.toNat ≤ 7 * 2 ^ 25) (n : Nat) :
    emittedAfter p d (n + 1) =
      emittedAfter p d n + if rotated (phaseAfter p d n) (phaseAfter p d n + d) = true then 1 else 0 := by
  have hadv := periodsPassed_succ_eq (p := p) hd n
  simp only [emittedAfter, rotated_iff]
  by_cases hsmall : d.toNat ≤ 2 ^ 25
  · have := periodsPassed_succ_le (k := 1) (p := p) (by omega) n
    simp only [if_pos hsmall]
    split <;> omega
  · have hpass : periodsPassed p d n < periodsPassed p d (n + 1) := by
      unfold periodsPassed
      rw [Nat.succ_mul]
      omega
    rw [if_neg hsmall, if_neg hsmall, if_pos (by omega)]

theorem downSteps_emitted {s : State} {c : Nat} {b : Buffer} (hd : s.deltaDown.toNat ≤ 7 * 2 ^ 25) :
    ∀ {n : Nat} {p : DownPass}, downSteps s b n (downStart s c b) = .ok p →
      p.emitted = emittedAfter s.phase s.deltaDown n := by
  intro n
  induction n with
  | zero => intro p h; cases h; simp [emittedAfter, periodsPassed_zero]
  | succ n ih =>
    intro p h
    obtain ⟨q, hq, h⟩ := downSteps_succ_eq_ok.1 h
    obtain ⟨hphase, -⟩ := downSteps_phase hq
    rw [downStep_emitted h, ih hq, hphase, downStart_phase, emittedAfter_succ hd]

/-- The consumption formula is the least number of source samples that finish sixteen outputs (rule R157). -/
theorem emittedAfter_lt_iff {p d : U32} (hd : 1 ≤ d.toNat) (n : Nat) :
    emittedAfter p d n < 16 ↔ n < downConsumption p d := by
  unfold emittedAfter downConsumption
  split
  · rw [← Nat.succ_le_iff (m := n), Nat.le_div_iff_mul_le hd, Nat.succ_mul]
    unfold periodsPassed
    omega
  · rfl

theorem downConsumption_le_fuel {p d : U32} (hd : 1 ≤ d.toNat) : downConsumption p d ≤ downFuel := by
  unfold downConsumption downFuel
  split
  · refine Nat.div_le_of_le_mul ?_
    have := Nat.mul_le_mul_right (16 * 2 ^ 25 - 1) hd
    omega
  · omega

/-- A completed loop of `DOWN16` has taken exactly the source samples of the consumption formula (rule R157). -/
theorem downLoop_consumption {s : State} {c : Nat} {b : Buffer} {p : DownPass} (hd : 1 ≤ s.deltaDown.toNat)
    (hd' : s.deltaDown.toNat ≤ 7 * 2 ^ 25) (h : downLoop s b downFuel (downStart s c b) = .ok p) :
    downSteps s b (downConsumption s.phase s.deltaDown) (downStart s c b) = .ok p := by
  obtain ⟨m, -, hm, hdone, hmore⟩ := downLoop_eq_ok h
  rw [downSteps_emitted hd' hm, emittedAfter_lt_iff hd] at hdone
  suffices hle : m ≤ downConsumption s.phase s.deltaDown by
    rwa [show downConsumption s.phase s.deltaDown = m by omega]
  by_contra hlt
  obtain ⟨q, hq, hq16⟩ := hmore _ (Nat.lt_of_not_le hlt)
  rw [downSteps_emitted hd' hq, emittedAfter_lt_iff hd] at hq16
  omega

theorem downLoop_completes {s : State} {c : Nat} (b : Buffer) (hd : 1 ≤ s.deltaDown.toNat)
    (hd' : s.deltaDown.toNat ≤ 7 * 2 ^ 25) (hw : WindowValid s c (downConsumption s.phase s.deltaDown)) :
    ∃ p, downLoop s b downFuel (downStart s c b) = .ok p := by
  have hsteps : ∀ n ≤ downConsumption s.phase s.deltaDown, ∃ q, downSteps s b n (downStart s c b) = .ok q :=
    fun n hn => downSteps_completes n _ (hw.mono hn)
  obtain ⟨p, hp⟩ := hsteps _ le_rfl
  refine ⟨p, downLoop_of_downSteps (downConsumption_le_fuel hd) hp ?_ fun j hj => ?_⟩
  · rw [downSteps_emitted hd' hp, emittedAfter_lt_iff hd]
    omega
  · obtain ⟨q, hq⟩ := hsteps j hj.le
    exact ⟨q, hq, by rwa [downSteps_emitted hd' hq, emittedAfter_lt_iff hd]⟩

theorem canRotate_of_bounds {d : U32} (hd : 1 ≤ d.toNat) (hd' : d.toNat ≤ 7 * 2 ^ 25) : canRotate d = true := by
  rw [canRotate_iff]
  omega

/-- `DOWN16(c, B)` completes exactly when the cursors of its consumption formula are readable (rules R60, R157). -/
theorem runDown_completes_iff {s : State} {c : Nat} {b : Buffer} (hd : 1 ≤ s.deltaDown.toNat)
    (hd' : s.deltaDown.toNat ≤ 7 * 2 ^ 25) :
    (∃ x, runDown c b s = .ok x) ↔ WindowValid s c (downConsumption s.phase s.deltaDown) := by
  constructor
  · rintro ⟨⟨c', t⟩, h⟩
    obtain ⟨-, p, hp, -⟩ := runDown_eq_ok.1 h
    obtain ⟨-, -, -, hv⟩ := downSteps_phase (downLoop_consumption hd hd' hp)
    exact hv
  · intro hw
    obtain ⟨p, hp⟩ := downLoop_completes b hd hd' hw
    exact ⟨_, runDown_eq_ok.2 ⟨canRotate_of_bounds hd hd', p, hp, rfl, rfl⟩⟩

/-- What a completed `DOWN16` returns and adds to `phase` (rule R157). -/
theorem runDown_cursor_phase {s t : State} {c c' : Nat} {b : Buffer} (hd : 1 ≤ s.deltaDown.toNat)
    (hd' : s.deltaDown.toNat ≤ 7 * 2 ^ 25) (h : runDown c b s = .ok (c', t)) :
    c' = c + downConsumption s.phase s.deltaDown ∧
      t.phase = phaseAfter s.phase s.deltaDown (downConsumption s.phase s.deltaDown) := by
  obtain ⟨-, p, hp, rfl, rfl⟩ := runDown_eq_ok.1 h
  obtain ⟨hphase, -, hcursor, -⟩ := downSteps_phase (downLoop_consumption hd hd' hp)
  exact ⟨hcursor, by cases b <;> exact hphase⟩

/-! ### When a transition block completes -/

/-- `UP2DOWN16(c)` completes exactly when the cursors of both its passes are readable, the second counted from the
complemented phase (rules R60, R164, R173). -/
theorem runUp2down_completes_iff {s : State} {c : Nat} {p : U32} (hup : s.deltaUp.toNat ≤ 7 * 2 ^ 25)
    (hd : 1 ≤ s.deltaDown.toNat) (hd' : s.deltaDown.toNat ≤ 7 * 2 ^ 25) (hp : p = ~~~(s.phase + 16#32 * s.deltaUp)) :
    (∃ x, runUp2down c s = .ok x) ↔
      WindowValid s c (upConsumption s.phase s.deltaUp) ∧ WindowValid s c (downConsumption p s.deltaDown) := by
  have hsecond : ∀ c₁ u, runUp c .dst s = .ok (c₁, u) →
      ((∃ x, runDown c .tmp (clearOutputAccum (setMode .down (complementPhase u))) = .ok x) ↔
        WindowValid s c (downConsumption p s.deltaDown)) := by
    intro c₁ u hu
    have hdelta := landDown_deltaDown_of_runUp hu
    have hphase : (clearOutputAccum (setMode .down (complementPhase u))).phase = p := by simp [runUp_phase hu, hp]
    rw [runDown_completes_iff (by rwa [hdelta]) (by rwa [hdelta]), hdelta, hphase]
    exact windowValid_of_kept ((HostSideKept.of_runUp hu).trans (.of_landDown u)) _ _
  rw [← runUp_completes_iff (b := .dst) hup]
  constructor
  · rintro ⟨⟨c', t⟩, h⟩
    obtain ⟨c₁, u, v, hu, hv, -⟩ := runUp2down_eq_ok.1 h
    exact ⟨⟨_, hu⟩, (hsecond c₁ u hu).1 ⟨_, hv⟩⟩
  · rintro ⟨⟨⟨c₁, u⟩, hu⟩, hw⟩
    obtain ⟨⟨c', v⟩, hv⟩ := (hsecond c₁ u hu).2 hw
    exact ⟨_, runUp2down_eq_ok.2 ⟨c₁, u, v, hu, hv, rfl⟩⟩

/-- `DOWN2UP16(c)` likewise (rules R60, R165, R173). -/
theorem runDown2up_completes_iff {s : State} {c : Nat} {p : U32} (hup : s.deltaUp.toNat ≤ 7 * 2 ^ 25)
    (hd : 1 ≤ s.deltaDown.toNat) (hd' : s.deltaDown.toNat ≤ 7 * 2 ^ 25)
    (hp : p = ~~~phaseAfter s.phase s.deltaDown (downConsumption s.phase s.deltaDown)) :
    (∃ x, runDown2up c s = .ok x) ↔
      WindowValid s c (downConsumption s.phase s.deltaDown) ∧ WindowValid s c (upConsumption p s.deltaUp) := by
  have hsecond : ∀ c₁ u, runDown c .dst s = .ok (c₁, u) →
      ((∃ x, runUp c .tmp (clearInputRing (setMode .up (complementPhase u))) = .ok x) ↔
        WindowValid s c (upConsumption p s.deltaUp)) := by
    intro c₁ u hu
    have hdelta := ((RatioRegistersKept.of_runDown hu).trans (.of_landUp u)).deltaUp
    have hphase : (clearInputRing (setMode .up (complementPhase u))).phase = p := by
      simp [(runDown_cursor_phase hd hd' hu).2, hp]
    rw [runUp_completes_iff (by rwa [hdelta]), hdelta, hphase]
    exact windowValid_of_kept ((HostSideKept.of_runDown hu).trans (.of_landUp u)) _ _
  rw [← runDown_completes_iff (b := .dst) hd hd']
  constructor
  · rintro ⟨⟨c', t⟩, h⟩
    obtain ⟨c₁, u, v, hu, hv, -⟩ := runDown2up_eq_ok.1 h
    exact ⟨⟨_, hu⟩, (hsecond c₁ u hu).1 ⟨_, hv⟩⟩
  · rintro ⟨⟨⟨c₁, u⟩, hu⟩, hw⟩
    obtain ⟨⟨c', v⟩, hv⟩ := (hsecond c₁ u hu).2 hw
    exact ⟨_, runDown2up_eq_ok.2 ⟨c₁, u, v, hu, hv, rfl⟩⟩

/-! ### Inside the default envelope -/

theorem upConsumption_le {p d : U32} (hd : d.toNat ≤ 7 * 2 ^ 25) : upConsumption p d ≤ 112 := by
  unfold upConsumption periodsPassed
  omega

theorem downConsumption_le {p d : U32} (hd : 0x00492492 ≤ d.toNat) : downConsumption p d ≤ 128 := by
  unfold downConsumption
  split
  · exact Nat.div_le_of_le_mul (by omega)
  · omega

/-- From `s` to `t` the block has read no source cursor but the `n` from `c` on (rule R61; log entry 16). -/
def ReadsWithin (w c n : Nat) (s t : State) : Prop :=
  ∃ l, t.accesses = s.accesses ++ l ∧ ∀ a ∈ sourceCursors l, ∃ j < n, a = wrapCursor w (c + j)

namespace ReadsWithin

variable {w c n k : Nat} {s t u : State}

theorem trans (h : ReadsWithin w c n s t) (h' : ReadsWithin w c n t u) : ReadsWithin w c n s u := by
  obtain ⟨l, hl, hr⟩ := h
  obtain ⟨l', hl', hr'⟩ := h'
  refine ⟨l ++ l', by rw [hl', hl, List.append_assoc], fun a ha => ?_⟩
  rw [sourceCursors_append, List.mem_append] at ha
  exact ha.elim (hr a) (hr' a)

theorem of_blend (s : State) : ReadsWithin w c n s (blend s) := ⟨_, blend_accesses s, by simp⟩

theorem of_record {b : Buffer} {m : Nat} {out : Block} {l : List Access} (hl : t.accesses = s.accesses ++ l)
    (h : PassRecord w c k b m out l) (hk : k ≤ n) : ReadsWithin w c n s t := by
  refine ⟨l, hl, fun a ha => ?_⟩
  rw [h.reads, cursorsFrom, List.mem_map] at ha
  obtain ⟨j, hj, rfl⟩ := ha
  exact ⟨j, by rw [List.mem_range] at hj; omega, rfl⟩

end ReadsWithin

/-- What the host and the ratio control grant before a block from cursor `c` (rules R34, R185, R243). -/
structure ReadyFor (c : Nat) (s : State) : Prop where
  inv : Inv s
  envelope : WithinDefault s.envelope
  window : WindowValid s c 128

namespace ReadyFor

variable {c : Nat} {s t : State}

theorem of_kept (h : ReadyFor c s) (hr : RatioRegistersKept s t) (hh : HostSideKept s t) : ReadyFor c t :=
  ⟨h.inv.of_kept hr hh, by rw [hh.envelope]; exact h.envelope, (windowValid_of_kept hh c 128).2 h.window⟩

theorem deltaUp_le (h : ReadyFor c s) : s.deltaUp.toNat ≤ 7 * 2 ^ 25 := by
  rw [h.inv.deltaUp]
  exact (deltaUpOf_bounds h.inv.ratio h.envelope).2

theorem deltaDown_bounds (h : ReadyFor c s) : 0x00492492 ≤ s.deltaDown.toNat ∧ s.deltaDown.toNat ≤ 7 * 2 ^ 25 := by
  rw [h.inv.deltaDown]
  exact deltaDownOf_bounds h.inv.ratio h.envelope

/-- An up pass completes inside the 128 cursors and leaves the state ready. -/
theorem runUp_completes (h : ReadyFor c s) (b : Buffer) :
    ∃ c' t, runUp c b s = .ok (c', t) ∧ ReadsWithin s.cursorW c 128 s t ∧ ReadyFor c t := by
  have hk : upConsumption s.phase s.deltaUp ≤ 112 := upConsumption_le h.deltaUp_le
  obtain ⟨⟨c', t⟩, hrun⟩ := (runUp_completes_iff (b := b) h.deltaUp_le).2 (h.window.mono (by omega))
  have hc := runUp_cursor h.deltaUp_le hrun
  obtain ⟨k, l, hk', hl, hrec⟩ := runUp_record hrun
  exact ⟨c', t, hrun, .of_record hl hrec (by omega), h.of_kept (.of_runUp hrun) (.of_runUp hrun)⟩

/-- A down pass completes inside the 128 cursors and leaves the state ready. -/
theorem runDown_completes (h : ReadyFor c s) (b : Buffer) :
    ∃ c' t, runDown c b s = .ok (c', t) ∧ ReadsWithin s.cursorW c 128 s t ∧ ReadyFor c t := by
  obtain ⟨hlo, hhi⟩ := h.deltaDown_bounds
  have hk : downConsumption s.phase s.deltaDown ≤ 128 := downConsumption_le hlo
  obtain ⟨⟨c', t⟩, hrun⟩ := (runDown_completes_iff (b := b) (by omega) hhi).2 (h.window.mono hk)
  obtain ⟨hc, -⟩ := runDown_cursor_phase (by omega) hhi hrun
  obtain ⟨k, l, hk', hl, hrec⟩ := runDown_record hrun
  exact ⟨c', t, hrun, .of_record hl hrec (by omega), h.of_kept (.of_runDown hrun) (.of_runDown hrun)⟩

theorem runUp2down_completes (h : ReadyFor c s) : ∃ c' t, runUp2down c s = .ok (c', t) ∧ ReadsWithin s.cursorW c 128 s t := by
  obtain ⟨c₁, u, hu, hread, hready⟩ := h.runUp_completes .dst
  obtain ⟨c', v, hv, hread', -⟩ := (hready.of_kept (.of_landDown u) (.of_landDown u)).runDown_completes .tmp
  rw [((HostSideKept.of_runUp hu).trans (.of_landDown u)).cursorW] at hread'
  exact ⟨c', blend v, runUp2down_eq_ok.2 ⟨c₁, u, v, hu, hv, rfl⟩, hread.trans (hread'.trans (.of_blend v))⟩

theorem runDown2up_completes (h : ReadyFor c s) : ∃ c' t, runDown2up c s = .ok (c', t) ∧ ReadsWithin s.cursorW c 128 s t := by
  obtain ⟨c₁, u, hu, hread, hready⟩ := h.runDown_completes .dst
  obtain ⟨c', v, hv, hread', -⟩ := (hready.of_kept (.of_landUp u) (.of_landUp u)).runUp_completes .tmp
  rw [((HostSideKept.of_runDown hu).trans (.of_landUp u)).cursorW] at hread'
  exact ⟨c', blend v, runDown2up_eq_ok.2 ⟨c₁, u, v, hu, hv, rfl⟩, hread.trans (hread'.trans (.of_blend v))⟩

/-- Every block operation completes inside the 128 cursors. -/
theorem exec_process16_completes {i : Instr} (h : ReadyFor c s) (hi : IsProcess16 c i) :
    ∃ t, exec i s = .next t ∧ ReadsWithin s.cursorW c 128 s t := by
  have hrun : ∃ r c' t, exec i s = answer r ∧ r = .ok (c', t) ∧ ReadsWithin s.cursorW c 128 s t := by
    rcases hi with rfl | rfl | rfl | rfl
    · obtain ⟨c', t, hrun, hread, -⟩ := h.runUp_completes .dst
      exact ⟨_, c', t, exec_up16 c s, hrun, hread⟩
    · obtain ⟨c', t, hrun, hread, -⟩ := h.runDown_completes .dst
      exact ⟨_, c', t, exec_down16 c s, hrun, hread⟩
    · obtain ⟨c', t, hrun, hread⟩ := h.runUp2down_completes
      exact ⟨_, c', t, exec_up2down16 c s, hrun, hread⟩
    · obtain ⟨c', t, hrun, hread⟩ := h.runDown2up_completes
      exact ⟨_, c', t, exec_down2up16 c s, hrun, hread⟩
  obtain ⟨_, c', t, hexec, rfl, hread⟩ := hrun
  exact ⟨respond c' t, hexec, hread⟩

end ReadyFor

/-- Settles O45: within the default envelope a pass consumes at most 128 source samples, and it keeps what the next pass of a
transition needs. -/
theorem processCompletesInTheEnvelope : Obligations.ProcessCompletesInTheEnvelope := by
  unfold Obligations.ProcessCompletesInTheEnvelope
  intro s c i hs he hw hi
  obtain ⟨t, ht, l, hl, hread⟩ := ReadyFor.exec_process16_completes ⟨hs, he, hw⟩ hi
  exact ⟨t, l, ht, hl, hread⟩

end Sys2Proof.Machine

namespace Sys2Proof.Machine

/-! ### Two passes that end alike -/

/-- Two passes end alike when both are stuck for the same reason, or both complete with results that `R` relates. -/
inductive EndAlike {α β : Type} (R : α → β → Prop) : Except Fault α → Except Fault β → Prop
  | ok {a : α} {b : β} (h : R a b) : EndAlike R (.ok a) (.ok b)
  | error (f : Fault) : EndAlike R (.error f) (.error f)

namespace EndAlike

variable {α β γ δ : Type} {R : α → β → Prop} {Q : γ → δ → Prop} {x : Except Fault α} {y : Except Fault β}

theorem bind {f : α → Except Fault γ} {g : β → Except Fault δ} (h : EndAlike R x y)
    (hfg : ∀ a b, R a b → EndAlike Q (f a) (g b)) : EndAlike Q (x >>= f) (y >>= g) := by
  cases h with
  | ok h => exact hfg _ _ h
  | error f => exact .error f

theorem error_iff (h : EndAlike R x y) (f : Fault) : x = .error f ↔ y = .error f := by
  cases h <;> simp

/-- Passes that end alike are related by whatever their completed results are. -/
theorem strengthen {R' : α → β → Prop} (h : EndAlike R x y) (hR : ∀ a b, x = .ok a → y = .ok b → R a b → R' a b) :
    EndAlike R' x y := by
  cases h with
  | ok h => exact .ok (hR _ _ rfl rfl h)
  | error f => exact .error f

/-- Where one reason only can stop either pass, they end alike when they complete together. -/
theorem of_completes {f : Fault} (hx : ∀ g, x = .error g → g = f) (hy : ∀ g, y = .error g → g = f)
    (hxy : (∃ a, x = .ok a) ↔ ∃ b, y = .ok b) (hR : ∀ a b, x = .ok a → y = .ok b → R a b) : EndAlike R x y := by
  cases x with
  | ok a =>
    obtain ⟨b, rfl⟩ := hxy.1 ⟨a, rfl⟩
    exact .ok (hR a b rfl rfl)
  | error g =>
    cases y with
    | ok b => obtain ⟨a, ha⟩ := hxy.2 ⟨b, rfl⟩; cases ha
    | error g' => rw [hx g rfl, hy g' rfl]; exact .error f

theorem eq {y : Except Fault α} (h : EndAlike (· = ·) x y) : x = y := by
  cases h with
  | ok h => rw [h]
  | error f => rfl

end EndAlike

/-! ### What steers the engines -/

/-- The settings that the tests of a pass look at are the same (rules R131, R194). -/
structure SameSteering (s s' : State) : Prop where
  deltaUp : s'.deltaUp = s.deltaUp
  deltaDown : s'.deltaDown = s.deltaDown
  cursorW : s'.cursorW = s.cursorW
  srcValid : s'.srcValid = s.srcValid

theorem SameSteering.windowValid {s s' : State} (h : SameSteering s s') (c n : Nat) :
    WindowValid s' c n ↔ WindowValid s c n := by
  unfold WindowValid
  rw [h.cursorW, h.srcValid]

/-- Two up passes are at the same place. -/
structure UpInStep (p q : UpPass) : Prop where
  phase : q.phase = p.phase
  cursor : q.cursor = p.cursor

/-- Two down passes are at the same place. -/
structure DownInStep (p q : DownPass) : Prop where
  phase : q.phase = p.phase
  cursor : q.cursor = p.cursor
  emitted : q.emitted = p.emitted

section InStep

variable {s s' : State} {b b' : Buffer}

theorem upStep_inStep (hs : SameSteering s s') (n : Nat) {p q : UpPass} (h : UpInStep p q) :
    EndAlike UpInStep (upStep s b n p) (upStep s' b' n q) := by
  refine .of_completes (f := .sourceReadOutsideValid) (fun _ => upStep_error) (fun _ => upStep_error) ?_ ?_
  · rw [upStep_completes_iff, upStep_completes_iff, hs.windowValid, h.phase, h.cursor, hs.deltaUp]
  · intro p' q' hp hq
    obtain ⟨k, -, hk, -, hphase, hcursor, -⟩ := upStep_spec hp
    obtain ⟨k', -, hk', -, hphase', hcursor', -⟩ := upStep_spec hq
    exact ⟨by rw [hphase', hphase, h.phase, hs.deltaUp],
      by rw [hcursor', hcursor, hk, hk', h.phase, h.cursor, hs.deltaUp]⟩

theorem upSteps_inStep (hs : SameSteering s s') : ∀ (n : Nat) {p q : UpPass}, UpInStep p q →
    EndAlike UpInStep (upSteps s b n p) (upSteps s' b' n q)
  | 0, _, _, h => .ok h
  | n + 1, _, _, h => (upSteps_inStep hs n h).bind fun _ _ => upStep_inStep hs n

theorem downStep_completes_iff {p : DownPass} : (∃ p', downStep s b p = .ok p') ↔ WindowValid s p.cursor 1 := by
  constructor
  · rintro ⟨p', h⟩ j hj
    obtain rfl : j = 0 := by omega
    exact (downStep_spec h).1
  · intro h
    exact downStep_completes b (h 0 Nat.one_pos)

theorem downStep_inStep (hs : SameSteering s s') {p q : DownPass} (h : DownInStep p q) :
    EndAlike DownInStep (downStep s b p) (downStep s' b' q) := by
  refine .of_completes (f := .sourceReadOutsideValid) (fun _ hp => (downStep_error hp).1)
    (fun _ hq => (downStep_error hq).1) ?_ ?_
  · rw [downStep_completes_iff, downStep_completes_iff, hs.windowValid, h.cursor]
  · intro p' q' hp hq
    obtain ⟨-, hphase, hcursor, -⟩ := downStep_spec hp
    obtain ⟨-, hphase', hcursor', -⟩ := downStep_spec hq
    exact ⟨by rw [hphase', hphase, h.phase, hs.deltaDown], by rw [hcursor', hcursor, h.cursor],
      by rw [downStep_emitted hq, downStep_emitted hp, h.phase, h.emitted, hs.deltaDown]⟩

/-- The loops of two down passes end alike when their steps do and keep a relation under which their tests agree. -/
theorem downLoop_endAlike {R : DownPass → DownPass → Prop} (hem : ∀ p q, R p q → q.emitted = p.emitted)
    (hstep : ∀ p q, R p q → EndAlike R (downStep s b p) (downStep s' b' q)) : ∀ (fuel : Nat) {p q : DownPass}, R p q →
    EndAlike R (downLoop s b fuel p) (downLoop s' b' fuel q) := by
  intro fuel
  induction fuel with
  | zero =>
    intro p q h
    simp only [downLoop, hem p q h]
    split
    · exact .error _
    · exact .ok h
  | succ fuel ih =>
    intro p q h
    by_cases hp : p.emitted < 16
    · rw [downLoop_of_more hp, downLoop_of_more (by rwa [hem p q h])]
      exact (hstep p q h).bind fun _ _ => ih
    · rw [downLoop_of_done hp, downLoop_of_done (by rwa [hem p q h])]
      exact .ok h

/-- An up pass into either buffer ends alike from states that steer it alike. -/
theorem runUp_inStep (hs : SameSteering s s') (hphase : s'.phase = s.phase) (c : Nat) :
    EndAlike (fun x y => y.1 = x.1 ∧ y.2.phase = x.2.phase) (runUp c b s) (runUp c b' s') :=
  (upSteps_inStep (b := b) (b' := b') hs 16 (p := upStart s c b) (q := upStart s' c b') ⟨hphase, rfl⟩).bind
    fun p q h => .ok ⟨h.cursor, by cases b <;> cases b' <;> exact h.phase⟩

/-- A down pass into either buffer ends alike from states that steer it alike. -/
theorem runDown_inStep (hs : SameSteering s s') (hphase : s'.phase = s.phase) (c : Nat) :
    EndAlike (fun x y => y.1 = x.1 ∧ y.2.phase = x.2.phase) (runDown c b s) (runDown c b' s') := by
  unfold runDown
  rw [hs.deltaDown]
  split
  · exact (downLoop_endAlike (b := b) (b' := b') (fun _ _ h => h.emitted) (fun _ _ => downStep_inStep hs) downFuel
      (p := downStart s c b) (q := downStart s' c b') ⟨hphase, rfl, rfl⟩).bind
      fun p q h => .ok ⟨h.cursor, by cases b <;> cases b' <;> exact h.phase⟩
  · exact .error _

theorem runUp_error_congr {c : Nat} {f : Fault} (hs : SameSteering s s') (hphase : s'.phase = s.phase) :
    runUp c b s = .error f ↔ runUp c b' s' = .error f :=
  (runUp_inStep hs hphase c).error_iff f

theorem runDown_error_congr {c : Nat} {f : Fault} (hs : SameSteering s s') (hphase : s'.phase = s.phase) :
    runDown c b s = .error f ↔ runDown c b' s' = .error f :=
  (runDown_inStep hs hphase c).error_iff f

end InStep

/-! ### When a block is stuck on a source read -/

/-- Where one reason only can stop a pass, it is stuck for that reason exactly when it does not complete. -/
theorem eq_error_iff_not_completes {α : Type} {r : Except Fault α} {f : Fault} (h : ∀ g, r = .error g → g = f) :
    r = .error f ↔ ¬ ∃ a, r = .ok a := by
  cases r with
  | ok a => simp
  | error g => simp [h g rfl]

section Stuck

variable {s : State} {c : Nat}

theorem runUp_stuck_iff {b : Buffer} (hd : s.deltaUp.toNat ≤ 7 * 2 ^ 25) :
    runUp c b s = .error .sourceReadOutsideValid ↔ ¬ WindowValid s c (upConsumption s.phase s.deltaUp) := by
  rw [← runUp_completes_iff (b := b) hd]
  exact eq_error_iff_not_completes fun _ => runUp_error

theorem runDown_stuck_iff {b : Buffer} (hd : 1 ≤ s.deltaDown.toNat) (hd' : s.deltaDown.toNat ≤ 7 * 2 ^ 25) :
    runDown c b s = .error .sourceReadOutsideValid ↔ ¬ WindowValid s c (downConsumption s.phase s.deltaDown) := by
  rw [← runDown_completes_iff (b := b) hd hd']
  exact eq_error_iff_not_completes fun _ h => (runDown_error_of_canRotate (canRotate_of_bounds hd hd') h).1

theorem runUp2down_stuck_iff {p : U32} (hup : s.deltaUp.toNat ≤ 7 * 2 ^ 25) (hd : 1 ≤ s.deltaDown.toNat)
    (hd' : s.deltaDown.toNat ≤ 7 * 2 ^ 25) (hp : p = ~~~(s.phase + 16#32 * s.deltaUp)) :
    runUp2down c s = .error .sourceReadOutsideValid ↔
      ¬ (WindowValid s c (upConsumption s.phase s.deltaUp) ∧ WindowValid s c (downConsumption p s.deltaDown)) := by
  rw [← runUp2down_completes_iff hup hd hd' hp]
  refine eq_error_iff_not_completes fun _ h => (runUp2down_error_reason h).resolve_right ?_
  rintro ⟨-, hzero⟩
  omega

theorem runDown2up_stuck_iff {p : U32} (hup : s.deltaUp.toNat ≤ 7 * 2 ^ 25) (hd : 1 ≤ s.deltaDown.toNat)
    (hd' : s.deltaDown.toNat ≤ 7 * 2 ^ 25)
    (hp : p = ~~~phaseAfter s.phase s.deltaDown (downConsumption s.phase s.deltaDown)) :
    runDown2up c s = .error .sourceReadOutsideValid ↔
      ¬ (WindowValid s c (downConsumption s.phase s.deltaDown) ∧ WindowValid s c (upConsumption p s.deltaUp)) := by
  rw [← runDown2up_completes_iff hup hd hd' hp]
  refine eq_error_iff_not_completes fun _ h => (runDown2up_error_reason h).resolve_right ?_
  rintro ⟨-, hzero⟩
  omega

/-- The second pass of `UP2DOWN16` is stuck as the same pass into `DST` is (rule R164). -/
theorem exec_up2down16_eq_fault {f : Fault} :
    exec (.up2down16 c) s = .fault f ↔ exec (.up16 c) s = .fault f ∨ ∃ u, exec (.up16 c) s = .next u ∧
      exec (.down16 c) { u with phase := ~~~u.phase, mode := .down, outputAccum := zeroSlots } = .fault f := by
  have hsecond : ∀ c₁ u,
      runDown c .tmp (clearOutputAccum (setMode .down (complementPhase u))) = .error f ↔
        runDown c .dst { respond c₁ u with phase := ~~~u.phase, mode := .down, outputAccum := zeroSlots } = .error f :=
    fun c₁ u => runDown_error_congr ⟨rfl, rfl, rfl, rfl⟩ rfl
  simp only [exec_up2down16, exec_up16, exec_down16, answer_eq_fault, answer_eq_next, runUp2down_eq_error]
  refine or_congr_right ⟨?_, ?_⟩
  · rintro ⟨c₁, u, hu, h⟩
    exact ⟨_, ⟨c₁, u, hu, rfl⟩, (hsecond c₁ u).1 h⟩
  · rintro ⟨_, ⟨c₁, u, hu, rfl⟩, h⟩
    exact ⟨c₁, u, hu, (hsecond c₁ u).2 h⟩

/-- The second pass of `DOWN2UP16` is stuck as the same pass into `DST` is (rule R165). -/
theorem exec_down2up16_eq_fault {f : Fault} :
    exec (.down2up16 c) s = .fault f ↔ exec (.down16 c) s = .fault f ∨ ∃ u, exec (.down16 c) s = .next u ∧
      exec (.up16 c) { u with phase := ~~~u.phase, mode := .up, inputRing := zeroSlots } = .fault f := by
  have hsecond : ∀ c₁ u,
      runUp c .tmp (clearInputRing (setMode .up (complementPhase u))) = .error f ↔
        runUp c .dst { respond c₁ u with phase := ~~~u.phase, mode := .up, inputRing := zeroSlots } = .error f :=
    fun c₁ u => runUp_error_congr ⟨rfl, rfl, rfl, rfl⟩ rfl
  simp only [exec_down2up16, exec_up16, exec_down16, answer_eq_fault, answer_eq_next, runDown2up_eq_error]
  refine or_congr_right ⟨?_, ?_⟩
  · rintro ⟨c₁, u, hu, h⟩
    exact ⟨_, ⟨c₁, u, hu, rfl⟩, (hsecond c₁ u).1 h⟩
  · rintro ⟨_, ⟨c₁, u, hu, rfl⟩, h⟩
    exact ⟨c₁, u, hu, (hsecond c₁ u).2 h⟩

end Stuck

/-- Settles O34: in range each operation completes exactly when the stretches it consumes are readable, and the source read
is its only reason to be stuck; for every delta a transition is stuck as its passes are, whose buffers do not steer them. -/
theorem invalidSourceReadIsStuck : Obligations.InvalidSourceReadIsStuck := by
  unfold Obligations.InvalidSourceReadIsStuck
  intro s c
  refine ⟨fun hup => ?_, fun hd hd' => ?_, fun p hup hd hd' hp => ?_, fun p hup hd hd' hp => ?_, fun f =>
    ⟨exec_up2down16_eq_fault, exec_down2up16_eq_fault⟩⟩
  · rw [exec_up16, answer_eq_fault, runUp_stuck_iff hup]
  · rw [exec_down16, answer_eq_fault, runDown_stuck_iff hd hd']
  · rw [exec_up2down16, answer_eq_fault, runUp2down_stuck_iff hup hd hd' hp]
  · rw [exec_down2up16, answer_eq_fault, runDown2up_stuck_iff hup hd hd' hp]

/-! ### What a pass finds in its buffer does not matter -/

/-- All that an engine reads is the same: `DST`, `TMP`, `mode` and the response may differ (rules R140, R150). -/
structure SameForEngines (s s' : State) : Prop where
  deltaUp : s'.deltaUp = s.deltaUp
  deltaDown : s'.deltaDown = s.deltaDown
  downscale : s'.downscale = s.downscale
  phase : s'.phase = s.phase
  inputRing : s'.inputRing = s.inputRing
  outputAccum : s'.outputAccum = s.outputAccum
  cursorW : s'.cursorW = s.cursorW
  rom : s'.rom = s.rom
  src : s'.src = s.src
  srcValid : s'.srcValid = s.srcValid
  draws : s'.draws = s.draws
  accesses : s'.accesses = s.accesses

theorem SameForEngines.steering {s s' : State} (h : SameForEngines s s') : SameSteering s s' :=
  ⟨h.deltaUp, h.deltaDown, h.cursorW, h.srcValid⟩

/-- Two buffers hold the same in their first `n` slots. -/
def SameBelow (n : Nat) (v w : Block) : Prop := ∀ (i : Nat) (h : i < 16), i < n → w[i] = v[i]

theorem SameBelow.setIfInBounds {n : Nat} {v w : Block} (h : SameBelow n v w) (y : Sample) :
    SameBelow (n + 1) (v.setIfInBounds n y) (w.setIfInBounds n y) := by
  intro i hi hn
  by_cases hin : n = i
  · subst hin
    simp
  · simp only [Vector.getElem_setIfInBounds, if_neg hin]
    exact h i hi (by omega)

theorem SameBelow.eq {v w : Block} (h : SameBelow 16 v w) : w = v :=
  Vector.ext fun i hi => h i hi hi

/-- Two up passes differ at most in the slots from `n` on of the buffer. -/
structure UpSameBelow (n : Nat) (p q : UpPass) : Prop where
  phase : q.phase = p.phase
  ring : q.ring = p.ring
  cursor : q.cursor = p.cursor
  draws : q.draws = p.draws
  accesses : q.accesses = p.accesses
  out : SameBelow n p.out q.out

/-- Two down passes differ at most in the slots of the buffer that are not filled yet. -/
structure DownSameBelow (p q : DownPass) : Prop where
  phase : q.phase = p.phase
  accum : q.accum = p.accum
  cursor : q.cursor = p.cursor
  emitted : q.emitted = p.emitted
  draws : q.draws = p.draws
  accesses : q.accesses = p.accesses
  out : SameBelow p.emitted p.out q.out

section Overwrite

variable {s s' : State} {b : Buffer}

theorem upStep_sameBelow (hs : SameForEngines s s') (n : Nat) {p q : UpPass} (h : UpSameBelow n p q) :
    EndAlike (UpSameBelow (n + 1)) (upStep s b n p) (upStep s' b n q) := by
  refine (upStep_inStep hs.steering n ⟨h.phase, h.cursor⟩).strengthen fun p' q' hp hq _ => ?_
  obtain ⟨k, -, rfl, -, hphase, hcursor, hdraws, hout, hacc, hring⟩ := upStep_spec hp
  obtain ⟨k', -, rfl, -, hphase', hcursor', hdraws', hout', hacc', hring'⟩ := upStep_spec hq
  rw [h.phase, hs.deltaUp] at hphase' hcursor' hacc' hring'
  have hp' : q'.phase = p'.phase := hphase'.trans hphase.symm
  have hr : q'.ring = p'.ring := by
    refine slots_ext fun i => ?_
    obtain ⟨j, hj, rfl⟩ := ring_exists_offset (ringOf p.phase) i
    rw [hring j hj, hring' j hj, h.ring, h.cursor, hs.src, hs.cursorW]
  rw [h.draws, hs.rom, hp', hr] at hout' hacc'
  exact ⟨hp', hr, by rw [hcursor', hcursor, h.cursor], by rw [hdraws', hdraws, h.draws],
    by rw [hacc', hacc, h.accesses, h.cursor, hs.cursorW], by rw [hout', hout]; exact h.out.setIfInBounds _⟩

theorem upSteps_sameBelow (hs : SameForEngines s s') : ∀ (n : Nat) {p q : UpPass}, UpSameBelow 0 p q →
    EndAlike (UpSameBelow n) (upSteps s b n p) (upSteps s' b n q)
  | 0, _, _, h => .ok h
  | n + 1, _, _, h => (upSteps_sameBelow hs n h).bind fun _ _ => upStep_sameBelow hs n

theorem UpSameBelow.eq {p q : UpPass} (h : UpSameBelow 16 p q) : p = q := by
  obtain ⟨hphase, hring, hcursor, hdraws, hacc, hout⟩ := h
  have hout := hout.eq
  cases p
  cases q
  simp_all

/-- The sixteen output samples of an up pass overwrite its buffer, so what it held before does not matter. -/
theorem upSteps_eq_of_sameForEngines (hs : SameForEngines s s') (c : Nat) :
    upSteps s' b 16 (upStart s' c b) = upSteps s b 16 (upStart s c b) := by
  have hstart : UpSameBelow 0 (upStart s c b) (upStart s' c b) :=
    ⟨hs.phase, hs.inputRing, rfl, hs.draws, hs.accesses, fun _ _ h => absurd h (Nat.not_lt_zero _)⟩
  exact ((upSteps_sameBelow hs 16 hstart).strengthen fun _ _ _ _ h => h.eq).eq.symm

theorem downStep_sameBelow (hs : SameForEngines s s') {p q : DownPass} (h : DownSameBelow p q) :
    EndAlike DownSameBelow (downStep s b p) (downStep s' b q) := by
  refine (downStep_inStep hs.steering ⟨h.phase, h.cursor, h.emitted⟩).strengthen fun p' q' hp hq _ => ?_
  obtain ⟨-, hphase, hcursor, hdraws, acc, hsum, hr⟩ := downStep_spec hp
  obtain ⟨-, hphase', hcursor', hdraws', acc', hsum', hr'⟩ := downStep_spec hq
  have hsame : acc' = acc := by
    rw [hsum', hsum, h.draws, h.phase, h.cursor, h.accum, hs.rom, hs.downscale, hs.src, hs.cursorW]
  rw [h.phase, h.cursor, h.emitted, h.accesses, hs.deltaDown, hs.cursorW, hsame] at hr'
  have hp' : q'.phase = p'.phase := by rw [hphase', hphase, h.phase, hs.deltaDown]
  have hc' : q'.cursor = p'.cursor := by rw [hcursor', hcursor, h.cursor]
  have hd' : q'.draws = p'.draws := by rw [hdraws', hdraws, h.draws]
  split at hr
  · next hrot =>
    rw [if_pos hrot] at hr'
    obtain ⟨hout, haccum, hem, hacc⟩ := hr
    obtain ⟨hout', haccum', hem', hacc'⟩ := hr'
    exact ⟨hp', haccum'.trans haccum.symm, hc', hem'.trans hem.symm, hd', hacc'.trans hacc.symm,
      by rw [hout', hout, hem]; exact h.out.setIfInBounds _⟩
  · next hrot =>
    rw [if_neg hrot] at hr'
    obtain ⟨hout, haccum, hem, hacc⟩ := hr
    obtain ⟨hout', haccum', hem', hacc'⟩ := hr'
    exact ⟨hp', haccum'.trans haccum.symm, hc', hem'.trans hem.symm, hd', hacc'.trans hacc.symm,
      by rw [hout', hout, hem]; exact h.out⟩

theorem DownSameBelow.eq {p q : DownPass} (h : DownSameBelow p q) (hp : p.emitted = 16) : p = q := by
  obtain ⟨hphase, haccum, hcursor, hem, hdraws, hacc, hout⟩ := h
  rw [hp] at hout
  have hout := hout.eq
  cases p
  cases q
  simp_all

/-- The sixteen outputs of a down pass overwrite its buffer, so what it held before does not matter. -/
theorem downLoop_eq_of_sameForEngines (hs : SameForEngines s s') (c : Nat) :
    downLoop s' b downFuel (downStart s' c b) = downLoop s b downFuel (downStart s c b) := by
  have hstart : DownSameBelow (downStart s c b) (downStart s' c b) :=
    ⟨hs.phase, hs.outputAccum, rfl, rfl, hs.draws, hs.accesses, fun _ _ h => absurd h (Nat.not_lt_zero _)⟩
  have hloop := downLoop_endAlike (b := b) (b' := b) (fun _ _ h => h.emitted) (fun _ _ => downStep_sameBelow hs)
    downFuel hstart
  exact (hloop.strengthen fun _ _ hp _ h => h.eq (downLoop_emitted hp)).eq.symm

end Overwrite

section Tmp

/-- Replacing `TMP` is nothing to an engine. -/
theorem sameForEngines_tmp (s : State) (w : Block) : SameForEngines s { s with tmp := w } :=
  ⟨rfl, rfl, rfl, rfl, rfl, rfl, rfl, rfl, rfl, rfl, rfl, rfl⟩

variable (s : State) (c : Nat) (w : Block)

/-- An up pass into `DST` leaves `TMP` alone (rule R54). -/
theorem runUp_dst_of_tmp :
    runUp c .dst { s with tmp := w } = (runUp c .dst s).map fun x => (x.1, { x.2 with tmp := w }) := by
  unfold runUp
  rw [upSteps_eq_of_sameForEngines (sameForEngines_tmp s w)]
  cases upSteps s .dst 16 (upStart s c .dst) <;> rfl

theorem runDown_dst_of_tmp :
    runDown c .dst { s with tmp := w } = (runDown c .dst s).map fun x => (x.1, { x.2 with tmp := w }) := by
  unfold runDown
  rw [downLoop_eq_of_sameForEngines (sameForEngines_tmp s w)]
  split
  · cases downLoop s .dst downFuel (downStart s c .dst) <;> rfl
  · rfl

/-- An up pass into `TMP` overwrites it in full (rules R54, R172). -/
theorem runUp_tmp_of_tmp : runUp c .tmp { s with tmp := w } = runUp c .tmp s := by
  unfold runUp
  rw [upSteps_eq_of_sameForEngines (sameForEngines_tmp s w)]
  rfl

theorem runDown_tmp_of_tmp : runDown c .tmp { s with tmp := w } = runDown c .tmp s := by
  unfold runDown
  rw [downLoop_eq_of_sameForEngines (sameForEngines_tmp s w)]
  rfl

theorem runUp2down_of_tmp : runUp2down c { s with tmp := w } = runUp2down c s := by
  unfold runUp2down
  rw [runUp_dst_of_tmp]
  cases runUp c .dst s with
  | error f => rfl
  | ok x =>
    have hland : clearOutputAccum (setMode .down (complementPhase { x.2 with tmp := w })) =
        { clearOutputAccum (setMode .down (complementPhase x.2)) with tmp := w } := rfl
    simp only [Except.map, bind, Except.bind, hland, runDown_tmp_of_tmp]

theorem runDown2up_of_tmp : runDown2up c { s with tmp := w } = runDown2up c s := by
  unfold runDown2up
  rw [runDown_dst_of_tmp]
  cases runDown c .dst s with
  | error f => rfl
  | ok x =>
    have hland : clearInputRing (setMode .up (complementPhase { x.2 with tmp := w })) =
        { clearInputRing (setMode .up (complementPhase x.2)) with tmp := w } := rfl
    simp only [Except.map, bind, Except.bind, hland, runUp_tmp_of_tmp]

/-- A pass that only carries `TMP` along gives an answer that only carries it along. -/
theorem answer_map_tmp {r : Except Fault (Nat × State)} {t : State} (h : answer r = .next t) :
    answer (r.map fun x => (x.1, { x.2 with tmp := w })) = .next { t with tmp := w } := by
  obtain ⟨c', u, rfl, rfl⟩ := answer_eq_next.1 h
  rfl

end Tmp

/-- Settles O39: a pass overwrites the buffer it writes, and a pass into `DST` carries `TMP` along. -/
theorem oldTmpContentsDoNotMatter : Obligations.OldTmpContentsDoNotMatter := by
  unfold Obligations.OldTmpContentsDoNotMatter
  intro s c w
  constructor
  · rintro i (rfl | rfl)
    · rw [exec_up2down16, exec_up2down16, runUp2down_of_tmp]
    · rw [exec_down2up16, exec_down2up16, runDown2up_of_tmp]
  · rintro i t (rfl | rfl) h
    · rw [exec_up16, runUp_dst_of_tmp]
      exact answer_map_tmp w h
    · rw [exec_down16, runDown_dst_of_tmp]
      exact answer_map_tmp w h

end Sys2Proof.Machine

namespace Sys2Proof

/-! ### The rows of the dispatch word -/

section Rows

variable (w arg : Nat)

theorem decodeCommand_reset (mm : BitVec 2) : decodeCommand w (0b000#3 ++ mm) arg = .reset := by
  have h : fitsRow 0b11100#5 0b00000#5 (0b000#3 ++ mm) = true := by revert mm; decide
  rw [decodeCommand, if_pos h]

theorem decodeCommand_setRatio (mm : BitVec 2) : decodeCommand w (0b001#3 ++ mm) arg = .setRatio (argSample arg) := by
  have h : fitsRow 0b11100#5 0b00000#5 (0b001#3 ++ mm) = false ∧
      fitsRow 0b11100#5 0b00100#5 (0b001#3 ++ mm) = true := by revert mm; decide
  obtain ⟨h0, h1⟩ := h
  simp only [decodeCommand, h0, h1, Bool.false_eq_true, if_false, if_true]

theorem decodeCommand_transpose (mm : BitVec 2) : decodeCommand w (0b010#3 ++ mm) arg = .transpose (argSample arg) := by
  have h : fitsRow 0b11100#5 0b00000#5 (0b010#3 ++ mm) = false ∧
      fitsRow 0b11100#5 0b00100#5 (0b010#3 ++ mm) = false ∧
      fitsRow 0b11100#5 0b01000#5 (0b010#3 ++ mm) = true := by revert mm; decide
  obtain ⟨h0, h1, h2⟩ := h
  simp only [decodeCommand, h0, h1, h2, Bool.false_eq_true, if_false, if_true]

theorem decodeCommand_up16 : decodeCommand w 0b01100#5 arg = .up16 (argCursor w arg) := rfl
theorem decodeCommand_down16 : decodeCommand w 0b01101#5 arg = .down16 (argCursor w arg) := rfl
theorem decodeCommand_up2down16 : decodeCommand w 0b01110#5 arg = .up2down16 (argCursor w arg) := rfl
theorem decodeCommand_down2up16 : decodeCommand w 0b01111#5 arg = .down2up16 (argCursor w arg) := rfl

/-- The reserved codes are those with the high bit (rule R92). -/
theorem decodeCommand_reserved (cc mm : BitVec 2) :
    decodeCommand w (0b1#1 ++ cc ++ mm) arg = .reserved (0b1#1 ++ cc) := by
  have h : ∀ row ∈ [(0b11100#5, 0b00000#5), (0b11100#5, 0b00100#5), (0b11100#5, 0b01000#5), (0b11111#5, 0b01100#5),
      (0b11111#5, 0b01101#5), (0b11111#5, 0b01110#5), (0b11111#5, 0b01111#5)],
      fitsRow row.1 row.2 (0b1#1 ++ cc ++ mm) = false := by revert cc mm; decide +kernel
  have hcmd : (0b1#1 ++ cc ++ mm).extractLsb' 2 3 = 0b1#1 ++ cc := by revert cc mm; decide +kernel
  simp only [List.forall_mem_cons] at h
  obtain ⟨h0, h1, h2, h3, h4, h5, h6, -⟩ := h
  simp only [decodeCommand, h0, h1, h2, h3, h4, h5, h6, hcmd, Bool.false_eq_true, if_false]

end Rows

/-- Every dispatch word belongs to one of the eight rows (rule R91). -/
theorem dispatchWord_cases (d : BitVec 5) :
    (∃ mm : BitVec 2, d = 0b000#3 ++ mm) ∨ (∃ mm : BitVec 2, d = 0b001#3 ++ mm) ∨ (∃ mm : BitVec 2, d = 0b010#3 ++ mm) ∨
    d = 0b01100#5 ∨ d = 0b01101#5 ∨ d = 0b01110#5 ∨ d = 0b01111#5 ∨ ∃ cc mm : BitVec 2, d = 0b1#1 ++ cc ++ mm := by
  revert d
  decide

/-- Whatever a dispatch word and an argument name is well formed (rule R92). -/
theorem wellFormed_decodeCommand (w : Nat) (d : BitVec 5) (arg : Nat) : WellFormed w (decodeCommand w d arg) = true := by
  have hc : argCursor w arg < 2 ^ w := Machine.wrapCursor_lt w arg
  rcases dispatchWord_cases d with ⟨mm, rfl⟩ | ⟨mm, rfl⟩ | ⟨mm, rfl⟩ | rfl | rfl | rfl | rfl | ⟨cc, mm, rfl⟩
  · rw [decodeCommand_reset]; rfl
  · rw [decodeCommand_setRatio]; rfl
  · rw [decodeCommand_transpose]; rfl
  · exact decide_eq_true hc
  · exact decide_eq_true hc
  · exact decide_eq_true hc
  · exact decide_eq_true hc
  · rw [decodeCommand_reserved, WellFormed]; revert cc; decide

/-- Only the `AW` low bits of an argument reach a row (rules R90, R92). -/
theorem decodeCommand_mod {w n : Nat} (h : argW w ≤ n) (d : BitVec 5) (arg : Nat) :
    decodeCommand w d (arg % 2 ^ n) = decodeCommand w d arg := by
  obtain ⟨h32, hw⟩ : 32 ≤ n ∧ w ≤ n := by unfold argW at h; omega
  have hs : argSample (arg % 2 ^ n) = argSample arg := by
    apply BitVec.eq_of_toNat_eq
    rw [argSample, argSample, BitVec.toNat_ofNat, BitVec.toNat_ofNat, Nat.mod_mod_of_dvd _ (Nat.pow_dvd_pow 2 h32)]
  have hc : argCursor w (arg % 2 ^ n) = argCursor w arg := Nat.mod_mod_of_dvd _ (Nat.pow_dvd_pow 2 hw)
  simp only [decodeCommand, hs, hc]

/-! ### The bytes of a command (log entry 17) -/

/-- The decoder on the bytes of an argument, with any first byte before and any bytes after them. -/
theorem decode_cons_argBytes (w arg : Nat) (b : Byte) (rest : List Byte) :
    decode w (b :: (argBytes w arg ++ rest)) =
      if b.extractLsb' 5 3 = 0#3 ∧ arg % 2 ^ (8 * argLength w) < 2 ^ argW w then
        .instr (decodeCommand w (b.setWidth 5) arg) rest
      else .reject .strayBits := by
  have hlen : (argBytes w arg).length = argLength w := length_numberBytes _ _
  have hval : bytesValue (argBytes w arg) = arg % 2 ^ (8 * argLength w) := bytesValue_numberBytes _ _
  have htake : (argBytes w arg ++ rest).take (argLength w) = argBytes w arg := List.take_left' hlen
  have hdrop : (argBytes w arg ++ rest).drop (argLength w) = rest := List.drop_left' hlen
  have hmore : ¬ (argBytes w arg ++ rest).length < argLength w := by rw [List.length_append, hlen]; omega
  simp only [decode, if_neg hmore, htake, hdrop, hval, decodeCommand_mod (argW_le w)]

/-- A dispatch word fills the low five bits of its byte and leaves the others zero. -/
theorem dispatchByte (d : BitVec 5) : (d.setWidth 8).extractLsb' 5 3 = 0#3 ∧ (d.setWidth 8).setWidth 5 = d := by
  revert d
  decide

/-- The argument of a well-formed instruction fits the `AW` bits of the port (rule R90). -/
theorem encodeArg_lt {w : Nat} {i : Instr} (h : WellFormed w i = true) : encodeArg i < 2 ^ argW w := by
  have hsample : ∀ q : Sample, q.toNat < 2 ^ argW w := fun q =>
    q.isLt.trans_le (Nat.pow_le_pow_right Nat.two_pos (Nat.le_max_left 32 w))
  have hcursor : ∀ c : Nat, decide (c < 2 ^ w) = true → c < 2 ^ argW w := fun c hc =>
    (of_decide_eq_true hc).trans_le (Nat.pow_le_pow_right Nat.two_pos (Nat.le_max_right 32 w))
  cases i with
  | reset => exact Nat.two_pow_pos _
  | setRatio q => exact hsample q
  | transpose x => exact hsample x
  | up16 c => exact hcursor c h
  | down16 c => exact hcursor c h
  | up2down16 c => exact hcursor c h
  | down2up16 c => exact hcursor c h
  | reserved cmd => exact Nat.two_pow_pos _

/-- The dispatch word and the argument of a well-formed instruction name it (rules R90, R91). -/
theorem decodeCommand_encode {w : Nat} {i : Instr} (h : WellFormed w i = true) :
    decodeCommand w (encodeDispatch i) (encodeArg i) = i := by
  have hrow : Laws.EncodeRow.Statement i := by
    cases i with
    | reset => exact Laws.EncodeRow.reset
    | setRatio q => exact Laws.EncodeRow.setRatio q
    | transpose x => exact Laws.EncodeRow.transpose x
    | up16 c => exact Laws.EncodeRow.up16 c
    | down16 c => exact Laws.EncodeRow.down16 c
    | up2down16 c => exact Laws.EncodeRow.up2down16 c
    | down2up16 c => exact Laws.EncodeRow.down2up16 c
    | reserved cmd => exact Laws.EncodeRow.reserved cmd
  exact (hrow w h).2

/-- Settles O3: the bytes hold the dispatch word and the whole argument, and these name the instruction. -/
theorem decodeOfEncodeIsTheInstruction : Obligations.DecodeOfEncodeIsTheInstruction := by
  unfold Obligations.DecodeOfEncodeIsTheInstruction
  intro w i rest h
  obtain ⟨hhigh, hlow⟩ := dispatchByte (encodeDispatch i)
  have harg := encodeArg_lt h
  have hfits : encodeArg i % 2 ^ (8 * argLength w) < 2 ^ argW w := (Nat.mod_le _ _).trans_lt harg
  rw [encode, List.cons_append, decode_cons_argBytes, if_pos ⟨hhigh, hfits⟩, hlow, decodeCommand_encode h]

end Sys2Proof

namespace Sys2Proof

open Machine

/-- Settles O1: the step accepts the command and dispatches on the word; the words go row by row. -/
theorem dispatchWordsNameTheirRows : Obligations.DispatchWordsNameTheirRows := by
  unfold Obligations.DispatchWordsNameTheirRows
  refine ⟨fun _ _ => rfl, fun _ _ _ _ hi => step_command hi, fun w arg mm cc => ?_⟩
  exact ⟨decodeCommand_reset w arg mm, decodeCommand_setRatio w arg mm, decodeCommand_transpose w arg mm,
    decodeCommand_up16 w arg, decodeCommand_down16 w arg, decodeCommand_up2down16 w arg, decodeCommand_down2up16 w arg,
    decodeCommand_reserved w arg cc mm⟩

@[simp] theorem modeBits_modeOfBits (b : BitVec 2) : modeBits (modeOfBits b) = b := by
  revert b
  decide

@[simp] theorem modeOfBits_modeBits (m : Mode) : modeOfBits (modeBits m) = m := by
  cases m <;> rfl

/-- Settles O2: the table, and that its two readings undo each other. -/
theorem modeEncodingIsTheTable : Obligations.ModeEncodingIsTheTable := by
  unfold Obligations.ModeEncodingIsTheTable
  exact ⟨rfl, rfl, rfl, rfl, modeBits_modeOfBits, modeOfBits_modeBits⟩

/-! ### The bits of a dispatch word -/

theorem dispatchWord_code (cmd : BitVec 3) (mm : BitVec 2) : (cmd ++ mm).extractLsb' 2 3 = cmd := by
  revert cmd mm
  decide +kernel

/-- A dispatch word is its command code and its mode bits (rule R91). -/
theorem eq_dispatchWord_of_code {d : BitVec 5} {cmd : BitVec 3} (h : d.extractLsb' 2 3 = cmd) :
    ∃ m : Mode, d = dispatchWord cmd m := by
  have hd : d = d.extractLsb' 2 3 ++ d.extractLsb' 0 2 := by clear h; revert d; decide +kernel
  exact ⟨modeOfBits (d.extractLsb' 0 2), by rw [dispatchWord, modeBits_modeOfBits, ← h]; exact hd⟩

theorem eq_append_of_reserved {d : BitVec 5} (h : d.extractLsb' 4 1 = 1#1) : ∃ cc mm : BitVec 2, d = 0b1#1 ++ cc ++ mm := by
  revert d
  decide +kernel

/-- A reserved code is none of the three that take an argument (rule R92). -/
theorem reserved_code (cc : BitVec 2) : 4 ≤ (0b1#1 ++ cc).toNat ∧
    0b1#1 ++ cc ≠ 0b001#3 ∧ 0b1#1 ++ cc ≠ 0b010#3 ∧ 0b1#1 ++ cc ≠ 0b011#3 := by
  revert cc
  decide

/-- Clearing the mode bits of a dispatch word. -/
theorem dispatchWord_clear_mode (cmd : BitVec 3) (mm : BitVec 2) : cmd ++ 0b00#2 = (cmd ++ mm) &&& 0b11100#5 := by
  revert cmd mm
  decide +kernel

/-! ### The rows of `PROCESS16` -/

/-- `PROCESS16` is a block operation in every mode (rules R91, R180). -/
theorem decodeCommand_process16 (w arg : Nat) (m : Mode) :
    IsProcess16 (argCursor w arg) (decodeCommand w (dispatchWord 0b011#3 m) arg) := by
  cases m with
  | up => exact .inl rfl
  | down => exact .inr (.inl rfl)
  | up2down => exact .inr (.inr (.inl rfl))
  | down2up => exact .inr (.inr (.inr rfl))

theorem encodeArg_of_process16 {c : Nat} {i : Instr} (h : IsProcess16 c i) : encodeArg i = c := by
  rcases h with rfl | rfl | rfl | rfl <;> rfl

/-! ### Encoding what a command decodes to -/

/-- A row that looks at `mode` gives its dispatch word back, any other gives it back without the mode bits. -/
theorem encodeDispatch_decodeCommand (w : Nat) (d : BitVec 5) (arg : Nat) :
    encodeDispatch (decodeCommand w d arg) = d ∨
      (d.extractLsb' 2 3 ≠ 0b011#3 ∧ encodeDispatch (decodeCommand w d arg) = d &&& 0b11100#5) := by
  rcases dispatchWord_cases d with ⟨mm, rfl⟩ | ⟨mm, rfl⟩ | ⟨mm, rfl⟩ | rfl | rfl | rfl | rfl | ⟨cc, mm, rfl⟩
  · rw [decodeCommand_reset, dispatchWord_code]
    exact .inr ⟨by decide, dispatchWord_clear_mode 0b000#3 mm⟩
  · rw [decodeCommand_setRatio, dispatchWord_code]
    exact .inr ⟨by decide, dispatchWord_clear_mode 0b001#3 mm⟩
  · rw [decodeCommand_transpose, dispatchWord_code]
    exact .inr ⟨by decide, dispatchWord_clear_mode 0b010#3 mm⟩
  · exact .inl rfl
  · exact .inl rfl
  · exact .inl rfl
  · exact .inl rfl
  · obtain ⟨-, -, -, hcode⟩ := reserved_code cc
    rw [decodeCommand_reserved, dispatchWord_code]
    exact .inr ⟨hcode, dispatchWord_clear_mode _ mm⟩

/-- Settles O4: the dispatch word row by row; the argument by the command code, of which each reads its own bits. -/
theorem encodeOfDecodeKeepsTheDecodedBits : Obligations.EncodeOfDecodeKeepsTheDecodedBits := by
  unfold Obligations.EncodeOfDecodeKeepsTheDecodedBits
  intro w d arg
  have hsample : (argSample arg).toNat = arg % 2 ^ 32 := BitVec.toNat_ofNat _ _
  refine ⟨wellFormed_decodeCommand w d arg, encodeDispatch_decodeCommand w d arg, ?_, ?_, ?_⟩
  · rintro (h | h)
    · obtain ⟨m, rfl⟩ := eq_dispatchWord_of_code h
      rw [dispatchWord, decodeCommand_setRatio]
      exact hsample
    · obtain ⟨m, rfl⟩ := eq_dispatchWord_of_code h
      rw [dispatchWord, decodeCommand_transpose]
      exact hsample
  · intro h
    obtain ⟨m, rfl⟩ := eq_dispatchWord_of_code h
    exact encodeArg_of_process16 (decodeCommand_process16 w arg m)
  · rintro (h | h)
    · obtain ⟨m, rfl⟩ := eq_dispatchWord_of_code h
      rw [dispatchWord, decodeCommand_reset]
      rfl
    · obtain ⟨cc, mm, rfl⟩ := eq_append_of_reserved h
      rw [decodeCommand_reserved]
      rfl

/-- Settles O5: the decoder tests the length, then the bits that belong to no field; what passes is a command, and every
command is well formed. -/
theorem decodeRejectsByName : Obligations.DecodeRejectsByName := by
  unfold Obligations.DecodeRejectsByName
  intro w l
  constructor
  · intro hlen
    cases l with
    | nil => rfl
    | cons b rest =>
      have hshort : rest.length < argLength w := by rw [List.length_cons] at hlen; unfold argLength argW; omega
      rw [decode, if_pos hshort]
  · rintro b rest rfl hlen
    have hlong : ¬ rest.length < argLength w := by rw [List.length_cons] at hlen; unfold argLength argW; omega
    rw [decode, if_neg hlong]
    refine ⟨fun hstray => if_neg ?_, fun hhigh hfits => ⟨_, wellFormed_decodeCommand w _ _, if_pos ⟨hhigh, hfits⟩⟩⟩
    rintro ⟨hhigh, hfits⟩
    exact hstray.elim (absurd hhigh) (Nat.not_le_of_lt hfits)

/-- Settles O6: bytes that are accepted decode to what the command on the port dispatches to. -/
theorem stepRunsTheDecodedInstruction : Obligations.StepRunsTheDecodedInstruction := by
  unfold Obligations.StepRunsTheDecodedInstruction
  intro s cmd arg rest i hi _ hdecode
  obtain ⟨-, hlow⟩ := dispatchByte (cmd ++ modeBits s.mode)
  rw [← List.append_nil (argBytes _ _), decode_cons_argBytes, hlow] at hdecode
  split at hdecode
  · cases hdecode
    exact step_command hi
  · cases hdecode

end Sys2Proof

namespace Sys2Proof.Machine

/-! ### The refusals -/

/-- The four commands and the reserved codes (rules R90, R92). -/
theorem command_cases (cmd : BitVec 3) :
    cmd = 0b000#3 ∨ cmd = 0b001#3 ∨ cmd = 0b010#3 ∨ cmd = 0b011#3 ∨ ∃ cc : BitVec 2, cmd = 0b1#1 ++ cc := by
  revert cmd
  decide

theorem four_le_toNat_iff (cmd : BitVec 3) : 4 ≤ cmd.toNat ↔ ∃ cc : BitVec 2, cmd = 0b1#1 ++ cc := by
  revert cmd
  decide

theorem execTranspose_eq_refused {x : Sample} {s : State} {r : Refusal} :
    execTranspose x s = .refused r ↔
      (isFinite x = false ∨ admitted s.envelope (Config.exp2_12.value x) = false) ∧ r = .ratioOutsideEnvelope := by
  cases hx : isFinite x with
  | true => rw [execTranspose_of_finite hx, execSetRatio, applyRatio_eq_refused]; simp
  | false => rw [execTranspose_of_not_finite hx]; simp [eq_comm (a := r)]

/-- Settles O11: by the command code of the host's next input; nothing but a command is refused, and a block operation
never. -/
theorem refusalsAreTheClosedList : Obligations.RefusalsAreTheClosedList := by
  unfold Obligations.RefusalsAreTheClosedList
  intro s r
  cases hi : s.inputs with
  | nil => simp [step_idle hi]
  | cons i rest =>
    cases i with
    | writeSource c v => simp [step_writeSource hi]
    | setValid ws => simp [step_setValid hi]
    | command cmd arg =>
      rw [step_command hi, dispatchWord]
      rcases command_cases cmd with rfl | rfl | rfl | rfl | ⟨cc, rfl⟩
      · simp [decodeCommand_reset]
      · simp [decodeCommand_setRatio, applyRatio_eq_refused]
      · simp [decodeCommand_transpose, execTranspose_eq_refused]
      · have hne := exec_process16_ne_refused (decodeCommand_process16 s.cursorW arg s.mode) (acceptCommand rest s) r
        rw [dispatchWord] at hne
        simp [hne]
      · simp [decodeCommand_reserved, reserved_code cc, eq_comm (a := r)]

/-- Settles O12: a reserved code dispatches to the reserved row, whatever `mode` is. -/
theorem reservedCommandsAreRefused : Obligations.ReservedCommandsAreRefused := by
  unfold Obligations.ReservedCommandsAreRefused
  intro s cmd arg rest
  refine ⟨exec_reserved cmd s, fun hi hcmd => ?_⟩
  obtain ⟨cc, rfl⟩ := (four_le_toNat_iff cmd).1 hcmd
  rw [step_command hi, dispatchWord, decodeCommand_reserved, exec_reserved]

/-! ### The fields of the phase -/

theorem fracOf_toNat (p : U32) : (fracOf p).toNat = p.toNat % 2 ^ 17 := by
  simp [fracOf, BitVec.extractLsb'_toNat]

theorem tabOf_toNat (p : U32) : (tabOf p).toNat = p.toNat / 2 ^ 17 % 2 ^ 8 := by
  simp [tabOf, BitVec.extractLsb'_toNat, Nat.shiftRight_eq_div_pow]

theorem carryOf_toNat (p : U32) : (carryOf p).toNat = p.toNat / 2 ^ 28 := by
  have := p.isLt
  simp only [carryOf, BitVec.extractLsb'_toNat, Nat.shiftRight_eq_div_pow]
  omega

/-- Settles O51: each field is a quotient and remainder of the phase by powers of two. -/
theorem phaseFieldsCoverThePhase : Obligations.PhaseFieldsCoverThePhase := by
  unfold Obligations.PhaseFieldsCoverThePhase
  intro p
  refine ⟨?_, fracOf_toNat p, tabOf_toNat p, ringOf_toNat p, carryOf_toNat p, rfl, ?_, rfl⟩
  · rw [fracOf_toNat, tabOf_toNat, ringOf_toNat, carryOf_toNat]
    omega
  · exact Nat.le_of_lt_succ (tabOf p).isLt

end Sys2Proof.Machine

namespace Sys2Proof.Machine

/-! ### `CARRY`, which no field that a rule reads holds -/

/-- Two phases that differ at most in `CARRY` (rules R82, R83). -/
def SameButCarry (p q : U32) : Prop := q.toNat % 2 ^ 28 = p.toNat % 2 ^ 28

namespace SameButCarry

variable {p q : U32}

theorem add (h : SameButCarry p q) (d : U32) : SameButCarry (p + d) (q + d) := by
  unfold SameButCarry at *
  rw [BitVec.toNat_add, BitVec.toNat_add]
  omega

theorem complement (h : SameButCarry p q) : SameButCarry (~~~p) (~~~q) := by
  unfold SameButCarry at *
  have := p.isLt
  have := q.isLt
  rw [BitVec.toNat_not, BitVec.toNat_not]
  omega

theorem fracOf_eq (h : SameButCarry p q) : fracOf q = fracOf p := by
  unfold SameButCarry at h
  apply BitVec.eq_of_toNat_eq
  rw [fracOf_toNat, fracOf_toNat]
  omega

theorem tabOf_eq (h : SameButCarry p q) : tabOf q = tabOf p := by
  unfold SameButCarry at h
  apply BitVec.eq_of_toNat_eq
  rw [tabOf_toNat, tabOf_toNat]
  omega

theorem ringOf_eq (h : SameButCarry p q) : ringOf q = ringOf p := by
  unfold SameButCarry at h
  apply BitVec.eq_of_toNat_eq
  rw [ringOf_toNat, ringOf_toNat]
  omega

theorem rowIndex_eq (h : SameButCarry p q) : rowIndex q = rowIndex p := by
  apply Fin.ext
  simp only [rowIndex, h.tabOf_eq]

theorem nextRowIndex_eq (h : SameButCarry p q) : nextRowIndex q = nextRowIndex p := by
  apply Fin.ext
  simp only [nextRowIndex, h.tabOf_eq]

theorem slotsAdvanced_eq (h : SameButCarry p q) (d : U32) : slotsAdvanced q (q + d) = slotsAdvanced p (p + d) := by
  unfold slotsAdvanced
  rw [h.ringOf_eq, (h.add d).ringOf_eq]

theorem rotated_eq (h : SameButCarry p q) (d : U32) : rotated q (q + d) = rotated p (p + d) := by
  unfold rotated
  rw [h.ringOf_eq, (h.add d).ringOf_eq]

theorem upSample_eq (h : SameButCarry p q) (d : Nat) (rom : Config.RomImage) (ring : Slots) :
    upSample d rom q ring = upSample d rom p ring := by
  unfold upSample
  rw [h.fracOf_eq, h.rowIndex_eq, h.nextRowIndex_eq, h.ringOf_eq]

theorem upRomReads_eq (h : SameButCarry p q) : upRomReads q = upRomReads p := by
  unfold upRomReads
  rw [h.rowIndex_eq, h.nextRowIndex_eq]

theorem downRomReads_eq (h : SameButCarry p q) : downRomReads q = downRomReads p := by
  unfold downRomReads
  rw [h.rowIndex_eq, h.nextRowIndex_eq]

theorem accumulateTap_eq (h : SameButCarry p q) (d : Nat) (rom : Config.RomImage) :
    accumulateTap d rom q = accumulateTap d rom p := by
  unfold accumulateTap
  rw [h.rowIndex_eq, h.nextRowIndex_eq, h.ringOf_eq]

theorem downAccumulate_eq (h : SameButCarry p q) (d : Nat) (rom : Config.RomImage) (downscale : Sample) :
    downAccumulate d rom downscale q = downAccumulate d rom downscale p := by
  unfold downAccumulate accumulate
  rw [h.fracOf_eq, h.accumulateTap_eq]

end SameButCarry

/-- Two up passes that differ at most in the `CARRY` of their phases. -/
structure UpSameButCarry (p q : UpPass) : Prop where
  phase : SameButCarry p.phase q.phase
  ring : q.ring = p.ring
  cursor : q.cursor = p.cursor
  out : q.out = p.out
  draws : q.draws = p.draws
  accesses : q.accesses = p.accesses

/-- Two down passes that differ at most in the `CARRY` of their phases. -/
structure DownSameButCarry (p q : DownPass) : Prop where
  phase : SameButCarry p.phase q.phase
  accum : q.accum = p.accum
  cursor : q.cursor = p.cursor
  out : q.out = p.out
  emitted : q.emitted = p.emitted
  draws : q.draws = p.draws
  accesses : q.accesses = p.accesses

/-- Two states that differ at most in the `CARRY` of their phases. -/
def StateSameButCarry (s s' : State) : Prop := ∃ p, SameButCarry s.phase p ∧ s' = { s with phase := p }

section Carry

variable {s : State} {b : Buffer} (x : U32)

theorem upStep_sameButCarry (n : Nat) {p q : UpPass} (h : UpSameButCarry p q) :
    EndAlike UpSameButCarry (upStep s b n p) (upStep { s with phase := x } b n q) := by
  refine .of_completes (f := .sourceReadOutsideValid) (fun _ => upStep_error) (fun _ => upStep_error) ?_ ?_
  · rw [upStep_completes_iff, upStep_completes_iff, h.cursor, h.phase.slotsAdvanced_eq]
    rfl
  · intro p' q' hp hq
    obtain ⟨k, -, rfl, -, hphase, hcursor, hdraws, hout, hacc, hring⟩ := upStep_spec hp
    obtain ⟨k', -, rfl, -, hphase', hcursor', hdraws', hout', hacc', hring'⟩ := upStep_spec hq
    simp only [h.phase.slotsAdvanced_eq, h.phase.ringOf_eq, h.cursor, h.draws, h.out, h.accesses, h.ring] at *
    have hp' : SameButCarry p'.phase q'.phase := by rw [hphase, hphase']; exact h.phase.add _
    have hr : q'.ring = p'.ring := by
      refine slots_ext fun i => ?_
      obtain ⟨j, hj, rfl⟩ := ring_exists_offset (ringOf p.phase) i
      rw [hring j hj, hring' j hj]
    rw [hr, hp'.upSample_eq] at hout' hacc'
    rw [hp'.upRomReads_eq] at hacc'
    exact ⟨hp', hr, hcursor'.trans hcursor.symm, hout'.trans hout.symm, hdraws'.trans hdraws.symm, hacc'.trans hacc.symm⟩

theorem upSteps_sameButCarry : ∀ (n : Nat) {p q : UpPass}, UpSameButCarry p q →
    EndAlike UpSameButCarry (upSteps s b n p) (upSteps { s with phase := x } b n q)
  | 0, _, _, h => .ok h
  | n + 1, _, _, h => (upSteps_sameButCarry n h).bind fun _ _ => upStep_sameButCarry x n

theorem downStep_sameButCarry {p q : DownPass} (h : DownSameButCarry p q) :
    EndAlike DownSameButCarry (downStep s b p) (downStep { s with phase := x } b q) := by
  refine .of_completes (f := .sourceReadOutsideValid) (fun _ hp => (downStep_error hp).1)
    (fun _ hq => (downStep_error hq).1) ?_ ?_
  · rw [downStep_completes_iff, downStep_completes_iff, h.cursor]
    rfl
  · intro p' q' hp hq
    obtain ⟨-, hphase, hcursor, hdraws, acc, hsum, hr⟩ := downStep_spec hp
    obtain ⟨-, hphase', hcursor', hdraws', acc', hsum', hr'⟩ := downStep_spec hq
    simp only [h.phase.rotated_eq, h.phase.ringOf_eq, h.phase.downAccumulate_eq, h.phase.downRomReads_eq, h.accum,
      h.cursor, h.out, h.emitted, h.draws, h.accesses] at *
    have hp' : SameButCarry p'.phase q'.phase := by rw [hphase, hphase']; exact h.phase.add _
    rw [hsum', ← hsum] at hr'
    split at hr
    · next hrot =>
      rw [if_pos hrot] at hr'
      obtain ⟨hout, haccum, hem, hacc⟩ := hr
      obtain ⟨hout', haccum', hem', hacc'⟩ := hr'
      exact ⟨hp', haccum'.trans haccum.symm, hcursor'.trans hcursor.symm, hout'.trans hout.symm, hem'.trans hem.symm,
        hdraws'.trans hdraws.symm, hacc'.trans hacc.symm⟩
    · next hrot =>
      rw [if_neg hrot] at hr'
      obtain ⟨hout, haccum, hem, hacc⟩ := hr
      obtain ⟨hout', haccum', hem', hacc'⟩ := hr'
      exact ⟨hp', haccum'.trans haccum.symm, hcursor'.trans hcursor.symm, hout'.trans hout.symm, hem'.trans hem.symm,
        hdraws'.trans hdraws.symm, hacc'.trans hacc.symm⟩

/-- What two passes that differ at most in `CARRY` write, and the cursor they return. -/
theorem upFinish_sameButCarry {p q : UpPass} (h : UpSameButCarry p q) :
    StateSameButCarry (upFinish b p s) (upFinish b q { s with phase := x }) := by
  obtain ⟨hphase, hring, -, hout, hdraws, hacc⟩ := h
  refine ⟨q.phase, by cases b <;> exact hphase, ?_⟩
  unfold upFinish
  rw [hring, hout, hdraws, hacc]
  cases b <;> rfl

theorem downFinish_sameButCarry {p q : DownPass} (h : DownSameButCarry p q) :
    StateSameButCarry (downFinish b p s) (downFinish b q { s with phase := x }) := by
  obtain ⟨hphase, haccum, -, hout, -, hdraws, hacc⟩ := h
  refine ⟨q.phase, by cases b <;> exact hphase, ?_⟩
  unfold downFinish
  rw [haccum, hout, hdraws, hacc]
  cases b <;> rfl

end Carry

/-- Two passes or blocks that return the same cursor and leave states that differ at most in `CARRY`. -/
def ResultSameButCarry (x y : Nat × State) : Prop := y.1 = x.1 ∧ StateSameButCarry x.2 y.2

section Blocks

variable {s s' : State}

theorem runUp_sameButCarry (h : StateSameButCarry s s') (c : Nat) (b : Buffer) :
    EndAlike ResultSameButCarry (runUp c b s) (runUp c b s') := by
  obtain ⟨x, hx, rfl⟩ := h
  have hstart : UpSameButCarry (upStart s c b) (upStart { s with phase := x } c b) :=
    ⟨hx, rfl, rfl, by cases b <;> rfl, rfl, rfl⟩
  exact (upSteps_sameButCarry x 16 hstart).bind fun _ _ hpq => .ok ⟨hpq.cursor, upFinish_sameButCarry x hpq⟩

theorem runDown_sameButCarry (h : StateSameButCarry s s') (c : Nat) (b : Buffer) :
    EndAlike ResultSameButCarry (runDown c b s) (runDown c b s') := by
  obtain ⟨x, hx, rfl⟩ := h
  have hstart : DownSameButCarry (downStart s c b) (downStart { s with phase := x } c b) :=
    ⟨hx, rfl, rfl, by cases b <;> rfl, rfl, rfl, rfl⟩
  unfold runDown
  split
  · exact (downLoop_endAlike (fun _ _ hpq => hpq.emitted) (fun _ _ => downStep_sameButCarry x) downFuel hstart).bind
      fun _ _ hpq => .ok ⟨hpq.cursor, downFinish_sameButCarry x hpq⟩
  · exact .error _

theorem landDown_sameButCarry (h : StateSameButCarry s s') :
    StateSameButCarry (clearOutputAccum (setMode .down (complementPhase s)))
      (clearOutputAccum (setMode .down (complementPhase s'))) := by
  obtain ⟨x, hx, rfl⟩ := h
  exact ⟨~~~x, hx.complement, rfl⟩

theorem landUp_sameButCarry (h : StateSameButCarry s s') :
    StateSameButCarry (clearInputRing (setMode .up (complementPhase s)))
      (clearInputRing (setMode .up (complementPhase s'))) := by
  obtain ⟨x, hx, rfl⟩ := h
  exact ⟨~~~x, hx.complement, rfl⟩

theorem blend_sameButCarry (h : StateSameButCarry s s') : StateSameButCarry (blend s) (blend s') := by
  obtain ⟨x, hx, rfl⟩ := h
  exact ⟨x, by rwa [blend_phase], by simp only [blend]⟩

theorem runUp2down_sameButCarry (h : StateSameButCarry s s') (c : Nat) :
    EndAlike ResultSameButCarry (runUp2down c s) (runUp2down c s') :=
  (runUp_sameButCarry h c .dst).bind fun _ _ hu =>
    (runDown_sameButCarry (landDown_sameButCarry hu.2) c .tmp).bind fun _ _ hv => .ok ⟨hv.1, blend_sameButCarry hv.2⟩

theorem runDown2up_sameButCarry (h : StateSameButCarry s s') (c : Nat) :
    EndAlike ResultSameButCarry (runDown2up c s) (runDown2up c s') :=
  (runDown_sameButCarry h c .dst).bind fun _ _ hu =>
    (runUp_sameButCarry (landUp_sameButCarry hu.2) c .tmp).bind fun _ _ hv => .ok ⟨hv.1, blend_sameButCarry hv.2⟩

/-- A block operation answers with what its passes end with. -/
theorem exec_process16_sameButCarry {c : Nat} {i : Instr} (hi : IsProcess16 c i) (h : StateSameButCarry s s') :
    ∃ r r', exec i s = answer r ∧ exec i s' = answer r' ∧ EndAlike ResultSameButCarry r r' := by
  rcases hi with rfl | rfl | rfl | rfl
  · exact ⟨_, _, exec_up16 c s, exec_up16 c s', runUp_sameButCarry h c .dst⟩
  · exact ⟨_, _, exec_down16 c s, exec_down16 c s', runDown_sameButCarry h c .dst⟩
  · exact ⟨_, _, exec_up2down16 c s, exec_up2down16 c s', runUp2down_sameButCarry h c⟩
  · exact ⟨_, _, exec_down2up16 c s, exec_down2up16 c s', runDown2up_sameButCarry h c⟩

end Blocks

/-- Settles O41: a simulation of the passes of two states that differ at most in `CARRY`; every field that a rule reads lies
below it, and addition and inversion carry nothing down from it. -/
theorem carryInfluencesNothing : Obligations.CarryInfluencesNothing := by
  unfold Obligations.CarryInfluencesNothing
  intro s c i p hi hp
  obtain ⟨r, r', hr, hr', halike⟩ := exec_process16_sameButCarry hi (s := s) ⟨p, hp, rfl⟩
  rw [hr, hr']
  cases halike with
  | error f => exact ⟨fun _ h => h, fun t h => by cases h⟩
  | @ok a b hab =>
    obtain ⟨c₁, u⟩ := a
    obtain ⟨c₂, v⟩ := b
    obtain ⟨hc, x, hx, hv⟩ := hab
    dsimp only at hc hx hv
    subst hc hv
    refine ⟨fun f h => (by cases h), fun t h => ?_⟩
    cases h
    exact ⟨x, hx, rfl⟩

end Sys2Proof.Machine

namespace Sys2Proof.Machine

/-! ### The ROM addresses of one sample -/

/-- The addresses `UP16` forms for one output sample, from the phase alone (rules R93, R130). -/
theorem romAddresses_upRomReads (p : U32) : romAddresses (upRomReads p) =
    (List.range 8).map (fun k => BitVec.ofNat 9 (p.toNat / 2 ^ 17 % 2 ^ 8) ++ BitVec.ofNat 3 k) ++
    (List.range 8).map (fun k => BitVec.ofNat 9 (p.toNat / 2 ^ 17 % 2 ^ 8 + 1) ++ BitVec.ofNat 3 k) := by
  rw [← tabOf_toNat]
  rfl

/-- The addresses `DOWN16` forms for one source sample, from the phase alone (rules R93, R130). -/
theorem romAddresses_downRomReads (p : U32) : romAddresses (downRomReads p) =
    (List.range 8).flatMap (fun k =>
      [BitVec.ofNat 9 (p.toNat / 2 ^ 17 % 2 ^ 8) ++ BitVec.ofNat 3 k,
       BitVec.ofNat 9 (p.toNat / 2 ^ 17 % 2 ^ 8 + 1) ++ BitVec.ofNat 3 k]) := by
  rw [← tabOf_toNat]
  rfl

@[simp] theorem romAddresses_blendAccesses (d : Nat) (dst tmp : Block) : romAddresses (blendAccesses d dst tmp) = [] := rfl

/-- The row bits of an address are the row, which is at most the sentinel row 256 (rules R93, R126). -/
theorem romAddress_row_le (i : Fin 257) (k : Fin 8) : ((romAddress i k).extractLsb' 3 9).toNat ≤ 256 := by
  have hi := i.isLt
  have hrow : (romAddress i k).extractLsb' 3 9 = BitVec.ofNat 9 i.val := by
    unfold romAddress
    rw [BitVec.extractLsb'_append_eq_left]
  rw [hrow, BitVec.toNat_ofNat]
  omega

/-- `n` addresses, none of them above row 256. -/
structure InTable (n : Nat) (l : List (BitVec 12)) : Prop where
  length : l.length = n
  rows : ∀ a ∈ l, (a.extractLsb' 3 9).toNat ≤ 256

namespace InTable

theorem append {m n : Nat} {l l' : List (BitVec 12)} (h : InTable m l) (h' : InTable n l') : InTable (m + n) (l ++ l') where
  length := by rw [List.length_append, h.length, h'.length]
  rows := fun a ha => (List.mem_append.1 ha).elim (h.rows a) (h'.rows a)

theorem flatMap_range {k : Nat} {f : Nat → List (BitVec 12)} (h : ∀ j, InTable k (f j)) (m : Nat) :
    InTable (k * m) ((List.range m).flatMap f) where
  length := by simp [List.length_flatMap, (h _).length, Nat.mul_comm]
  rows := fun a ha => by
    obtain ⟨j, -, hj⟩ := List.mem_flatMap.1 ha
    exact (h j).rows a hj

theorem of_upRomReads (p : U32) : InTable 16 (romAddresses (upRomReads p)) where
  length := rfl
  rows := fun a ha => by
    simp only [romAddresses, upRomReads, List.mem_filterMap, List.mem_append, List.mem_map] at ha
    obtain ⟨_, ⟨k, -, rfl⟩ | ⟨k, -, rfl⟩, hx⟩ := ha <;> cases hx <;> exact romAddress_row_le _ k

theorem of_downRomReads (p : U32) : InTable 16 (romAddresses (downRomReads p)) where
  length := rfl
  rows := fun a ha => by
    simp only [romAddresses, downRomReads, List.mem_filterMap, List.mem_flatMap, List.mem_cons, List.not_mem_nil,
      or_false] at ha
    obtain ⟨_, ⟨k, -, rfl | rfl⟩, hx⟩ := ha <;> cases hx <;> exact romAddress_row_le _ k

end InTable

/-! ### The ROM addresses of a pass -/

/-- The addresses of `n` output samples of `UP16`, each after its addition (rules R130, R140). -/
def upAddresses (p d : U32) (n : Nat) : List (BitVec 12) :=
  (List.range n).flatMap fun j => romAddresses (upRomReads (phaseAfter p d (j + 1)))

/-- The addresses of `n` source samples of `DOWN16`, each before its addition (rules R130, R150). -/
def downAddresses (p d : U32) (n : Nat) : List (BitVec 12) :=
  (List.range n).flatMap fun j => romAddresses (downRomReads (phaseAfter p d j))

theorem upAddresses_succ (p d : U32) (n : Nat) :
    upAddresses p d (n + 1) = upAddresses p d n ++ romAddresses (upRomReads (phaseAfter p d (n + 1))) := by
  simp [upAddresses, List.range_succ]

theorem downAddresses_succ (p d : U32) (n : Nat) :
    downAddresses p d (n + 1) = downAddresses p d n ++ romAddresses (downRomReads (phaseAfter p d n)) := by
  simp [downAddresses, List.range_succ]

theorem upAddresses_inTable (p d : U32) : InTable 256 (upAddresses p d 16) :=
  .flatMap_range (fun _ => .of_upRomReads _) 16

theorem downAddresses_inTable (p d : U32) (n : Nat) : InTable (16 * n) (downAddresses p d n) :=
  .flatMap_range (fun _ => .of_downRomReads _) n

theorem upSteps_addresses {s : State} {b : Buffer} : ∀ {n : Nat} {p p' : UpPass}, upSteps s b n p = .ok p' →
    ∃ l, p'.accesses = p.accesses ++ l ∧ romAddresses l = upAddresses p.phase s.deltaUp n := by
  intro n
  induction n with
  | zero => intro p p' h; cases h; exact ⟨[], (List.append_nil _).symm, rfl⟩
  | succ n ih =>
    intro p p' h
    obtain ⟨hphase, -⟩ := upSteps_phase h
    obtain ⟨q, hq, h⟩ := upSteps_succ_eq_ok.1 h
    obtain ⟨l, hl, hrom⟩ := ih hq
    obtain ⟨k, -, -, -, -, -, -, -, hacc, -⟩ := upStep_spec h
    refine ⟨_, by rw [hacc, hl, List.append_assoc], ?_⟩
    rw [hphase]
    simp [hrom, upAddresses_succ]

theorem downSteps_addresses {s : State} {b : Buffer} : ∀ {n : Nat} {p p' : DownPass}, downSteps s b n p = .ok p' →
    ∃ l, p'.accesses = p.accesses ++ l ∧ romAddresses l = downAddresses p.phase s.deltaDown n := by
  intro n
  induction n with
  | zero => intro p p' h; cases h; exact ⟨[], (List.append_nil _).symm, rfl⟩
  | succ n ih =>
    intro p p' h
    obtain ⟨q, hq, h⟩ := downSteps_succ_eq_ok.1 h
    obtain ⟨hphase, -⟩ := downSteps_phase hq
    obtain ⟨l, hl, hrom⟩ := ih hq
    obtain ⟨-, -, -, -, acc, -, hr⟩ := downStep_spec h
    rw [hphase] at hr
    split at hr
    · obtain ⟨-, -, -, hacc⟩ := hr
      refine ⟨_, by rw [hacc, hl, List.append_assoc], ?_⟩
      simp [hrom, downAddresses_succ]
    · obtain ⟨-, -, -, hacc⟩ := hr
      refine ⟨_, by rw [hacc, hl, List.append_assoc], ?_⟩
      simp [hrom, downAddresses_succ]

/-- What a completed `UP16(c, B)` reads, of `SRC` and of the ROM (rules R61, R130). -/
theorem runUp_reads {s t : State} {c c' : Nat} {b : Buffer} (h : runUp c b s = .ok (c', t)) :
    ∃ l m, c' = c + m ∧ t.accesses = s.accesses ++ l ∧ sourceCursors l = cursorsFrom s.cursorW c m ∧
      romAddresses l = upAddresses s.phase s.deltaUp 16 := by
  obtain ⟨m, l, hc, hl, hrec⟩ := runUp_record h
  obtain ⟨p, hp, -, rfl⟩ := runUp_eq_ok.1 h
  obtain ⟨l', hl', hrom⟩ := upSteps_addresses hp
  have hl' : (upFinish b p s).accesses = s.accesses ++ l' := by cases b <;> exact hl'
  obtain rfl := List.append_cancel_left (hl.symm.trans hl')
  exact ⟨l, m, hc, hl, hrec.reads, hrom⟩

/-- What a completed `DOWN16(c, B)` reads, of `SRC` and of the ROM, and the phase it leaves (rules R61, R130). -/
theorem runDown_reads {s t : State} {c c' : Nat} {b : Buffer} (h : runDown c b s = .ok (c', t)) :
    ∃ l m, c' = c + m ∧ t.accesses = s.accesses ++ l ∧ sourceCursors l = cursorsFrom s.cursorW c m ∧
      romAddresses l = downAddresses s.phase s.deltaDown m ∧ t.phase = phaseAfter s.phase s.deltaDown m := by
  obtain ⟨k, l, hc, hl, hrec⟩ := runDown_record h
  obtain ⟨-, p, hp, hcp, rfl⟩ := runDown_eq_ok.1 h
  obtain ⟨m, -, hm, -⟩ := downLoop_eq_ok hp
  obtain ⟨hphase, -, hcursor, -⟩ := downSteps_phase hm
  obtain ⟨l', hl', hrom⟩ := downSteps_addresses hm
  have hl' : (downFinish b p s).accesses = s.accesses ++ l' := by cases b <;> exact hl'
  obtain rfl := List.append_cancel_left (hl.symm.trans hl')
  obtain rfl : k = m := by rw [downStart_cursor] at hcursor; omega
  exact ⟨l, k, hc, hl, hrec.reads, hrom, by cases b <;> exact hphase⟩

/-- What a completed `UP2DOWN16(c)` reads and returns: the up pass, then the down pass from the complemented phase (rules
R164, R166). -/
theorem runUp2down_reads {s t : State} {c c' : Nat} (h : runUp2down c s = .ok (c', t)) :
    ∃ l m n, c' = c + n ∧ t.accesses = s.accesses ++ l ∧
      sourceCursors l = cursorsFrom s.cursorW c m ++ cursorsFrom s.cursorW c n ∧
      romAddresses l = upAddresses s.phase s.deltaUp 16 ++
        downAddresses (~~~(s.phase + 16#32 * s.deltaUp)) s.deltaDown n := by
  obtain ⟨_, u, v, hu, hv, rfl⟩ := runUp2down_eq_ok.1 h
  obtain ⟨l₁, m, -, hl₁, hsrc₁, hrom₁⟩ := runUp_reads hu
  obtain ⟨l₂, n, hc, hl₂, hsrc₂, hrom₂, -⟩ := runDown_reads hv
  have hw := (HostSideKept.of_runUp hu).cursorW
  have hdelta := landDown_deltaDown_of_runUp hu
  have hphase := runUp_phase hu
  refine ⟨l₁ ++ l₂ ++ blendAccesses v.draws v.dst v.tmp, m, n, hc, ?_, ?_, ?_⟩
  · simp [hl₂, hl₁]
  · simp [hsrc₁, hsrc₂, hw]
  · rw [hdelta] at hrom₂
    simp [hrom₁, hrom₂, hphase]

/-- What a completed `DOWN2UP16(c)` reads and returns: the down pass, then the up pass from the complemented phase (rules
R165, R166). -/
theorem runDown2up_reads {s t : State} {c c' : Nat} (h : runDown2up c s = .ok (c', t)) :
    ∃ l m n, c' = c + n ∧ t.accesses = s.accesses ++ l ∧
      sourceCursors l = cursorsFrom s.cursorW c m ++ cursorsFrom s.cursorW c n ∧
      romAddresses l = downAddresses s.phase s.deltaDown m ++
        upAddresses (~~~phaseAfter s.phase s.deltaDown m) s.deltaUp 16 := by
  obtain ⟨_, u, v, hu, hv, rfl⟩ := runDown2up_eq_ok.1 h
  obtain ⟨l₁, m, -, hl₁, hsrc₁, hrom₁, hphase⟩ := runDown_reads hu
  obtain ⟨l₂, n, hc, hl₂, hsrc₂, hrom₂⟩ := runUp_reads hv
  have hw := (HostSideKept.of_runDown hu).cursorW
  have hdelta := (RatioRegistersKept.of_runDown hu).deltaUp
  refine ⟨l₁ ++ l₂ ++ blendAccesses v.draws v.dst v.tmp, m, n, hc, ?_, ?_, ?_⟩
  · simp [hl₂, hl₁]
  · simp [hsrc₁, hsrc₂, hw]
  · simp [hrom₁, hrom₂, hphase, hdelta]

/-! ### The commands that access nothing -/

/-- The record, the response and both buffers are in `t` as they were in `s`. -/
def AccessesNothing (s t : State) : Prop :=
  t.accesses = s.accesses ∧ t.response = s.response ∧ t.dst = s.dst ∧ t.tmp = s.tmp

theorem applyRatio_accessesNothing {q : Sample} {s t : State} (h : applyRatio q s = .next t) : AccessesNothing s t := by
  obtain ⟨-, rfl⟩ := applyRatio_eq_next.1 h
  exact ⟨rfl, rfl, rfl, rfl⟩

theorem execTranspose_eq_next {x : Sample} {s t : State} :
    execTranspose x s = .next t ↔ isFinite x = true ∧ applyRatio (Config.exp2_12.value x) s = .next t := by
  cases hx : isFinite x with
  | true => simp [execTranspose_of_finite hx, execSetRatio]
  | false => simp [execTranspose_of_not_finite hx]

/-- Settles O44: each operation by the reads of the passes it runs, whose phases are those of `n` additions. -/
theorem romReadsOfEachOperation : Obligations.RomReadsOfEachOperation := by
  unfold Obligations.RomReadsOfEachOperation
  intro up down upBlock downBlock s t c cursors
  have hup : ∀ p d, upBlock p d = upAddresses p d 16 := fun p d => by
    simp only [upBlock, up, upAddresses, romAddresses_upRomReads, phaseAfter]
  have hdown : ∀ p d m, downBlock p d m = downAddresses p d m := fun p d m => by
    simp only [downBlock, down, downAddresses, romAddresses_downRomReads, phaseAfter]
  have hcursors : ∀ m, cursors m = cursorsFrom s.cursorW c m := fun _ => rfl
  simp only [hup, hdown, hcursors]
  refine ⟨fun h => ?_, fun h => ?_, fun h => ?_, fun h => ?_, ?_⟩
  · obtain ⟨_, u, hu, rfl⟩ := answer_eq_next.1 h
    obtain ⟨l, -, -, hl, -, hrom⟩ := runUp_reads hu
    have htable := hrom ▸ upAddresses_inTable s.phase s.deltaUp
    exact ⟨l, hl, hrom, htable.length, htable.rows⟩
  · obtain ⟨_, u, hu, rfl⟩ := answer_eq_next.1 h
    obtain ⟨l, m, rfl, hl, hsrc, hrom, -⟩ := runDown_reads hu
    have htable := hrom ▸ downAddresses_inTable s.phase s.deltaDown m
    have hw := (HostSideKept.of_runDown hu).cursorW
    exact ⟨l, m, hl, by rw [← hw]; rfl, hsrc, hrom, htable.length, htable.rows⟩
  · obtain ⟨_, u, hu, rfl⟩ := answer_eq_next.1 h
    obtain ⟨l, m, n, rfl, hl, hsrc, hrom⟩ := runUp2down_reads hu
    have htable := hrom ▸ (upAddresses_inTable _ _).append (downAddresses_inTable _ _ n)
    have hw := (HostSideKept.of_runUp2down hu).cursorW
    exact ⟨l, m, n, hl, by rw [← hw]; rfl, hsrc, hrom, htable.length, htable.rows⟩
  · obtain ⟨_, u, hu, rfl⟩ := answer_eq_next.1 h
    obtain ⟨l, m, n, rfl, hl, hsrc, hrom⟩ := runDown2up_reads hu
    have htable := hrom ▸ (downAddresses_inTable _ _ m).append (upAddresses_inTable _ _)
    have hw := (HostSideKept.of_runDown2up hu).cursorW
    exact ⟨l, m, n, hl, by rw [← hw]; rfl, hsrc, hrom, htable.length, htable.rows⟩
  · rintro i (rfl | ⟨q, rfl⟩ | ⟨x, rfl⟩) h
    · cases h
      exact ⟨rfl, rfl, rfl, rfl⟩
    · exact applyRatio_accessesNothing h
    · exact applyRatio_accessesNothing (execTranspose_eq_next.1 h).2

end Sys2Proof.Machine

namespace Sys2Proof.Machine

/-! ### The magnitude of a pattern -/

/-- The magnitude, in units of `2^-149`, of the pattern whose bits 30:0 are `n` (rule R197). -/
def patternUnits (n : Nat) : Nat :=
  if n / 2 ^ 23 = 0 then n else (2 ^ 23 + n % 2 ^ 23) * 2 ^ (n / 2 ^ 23 - 1)

theorem expField_toNat (x : Sample) : (expField x).toNat = x.toNat % 2 ^ 31 / 2 ^ 23 := by
  simp only [expField, BitVec.extractLsb'_toNat, Nat.shiftRight_eq_div_pow]
  omega

theorem fractionField_toNat (x : Sample) : (fractionField x).toNat = x.toNat % 2 ^ 23 := by
  simp [fractionField, BitVec.extractLsb'_toNat]

theorem signBit_eq_true_iff (x : Sample) : signBit x = true ↔ 2 ^ 31 ≤ x.toNat := by
  simp [signBit, BitVec.msb_eq_decide]

theorem signBit_eq_false_iff (x : Sample) : signBit x = false ↔ x.toNat < 2 ^ 31 := by
  simp [signBit, BitVec.msb_eq_decide]

theorem isFinite_iff (x : Sample) : isFinite x = true ↔ x.toNat % 2 ^ 31 < 0x7F800000 := by
  rw [isFinite, bne_iff_ne, Ne, ← BitVec.toNat_inj, expField_toNat]
  simp only [BitVec.toNat_ofNat]
  omega

theorem magUnits_eq_patternUnits (x : Sample) : magUnits x = patternUnits (x.toNat % 2 ^ 31) := by
  have hfrac : x.toNat % 2 ^ 31 % 2 ^ 23 = (fractionField x).toNat := by rw [fractionField_toNat]; omega
  have hexp : expField x = 0#8 ↔ x.toNat % 2 ^ 31 / 2 ^ 23 = 0 := by
    rw [← BitVec.toNat_inj, expField_toNat]; rfl
  unfold magUnits patternUnits
  simp only [hexp, hfrac, expField_toNat]
  split
  · omega
  · rfl

/-- A significand of up to 24 bits in units of the last place of exponent `e`; a carry out of it moves into the exponent. -/
theorem patternUnits_significand {e m : Nat} (hm : m ≤ 2 ^ 24) (he : e = 0 ∨ 2 ^ 23 ≤ m) :
    patternUnits (e * 2 ^ 23 + m) = m * 2 ^ e := by
  unfold patternUnits
  by_cases hsmall : m < 2 ^ 23
  · obtain rfl : e = 0 := by omega
    rw [if_pos (by omega)]
    omega
  · rw [if_neg (by omega)]
    by_cases htop : m = 2 ^ 24
    · subst htop
      rw [show (e * 2 ^ 23 + 2 ^ 24) / 2 ^ 23 - 1 = e + 1 by omega,
        show (e * 2 ^ 23 + 2 ^ 24) % 2 ^ 23 = 0 by omega, pow_succ]
      ring
    · rw [show (e * 2 ^ 23 + m) / 2 ^ 23 - 1 = e by omega,
        show 2 ^ 23 + (e * 2 ^ 23 + m) % 2 ^ 23 = m by omega]

/-- The patterns are in the order of their magnitudes (rule R197). -/
theorem patternUnits_strictMono : StrictMono patternUnits := by
  refine strictMono_nat_of_lt_succ fun n => ?_
  obtain ⟨e, m, hm, he, rfl⟩ : ∃ e m, m < 2 ^ 24 ∧ (e = 0 ∨ 2 ^ 23 ≤ m) ∧ n = e * 2 ^ 23 + m := by
    by_cases hn : n < 2 ^ 23
    · exact ⟨0, n, by omega, .inl rfl, by omega⟩
    · exact ⟨n / 2 ^ 23 - 1, 2 ^ 23 + n % 2 ^ 23, by omega, .inr (by omega), by omega⟩
  rw [Nat.add_assoc, patternUnits_significand hm.le he, patternUnits_significand (by omega) (by omega)]
  exact Nat.mul_lt_mul_of_pos_right (Nat.lt_succ_self m) (Nat.two_pow_pos e)

/-- The greatest finite magnitude, and the one that the first pattern above it would have (rules R197, R205). -/
theorem patternUnits_greatest : patternUnits 0x7F7FFFFF = (2 ^ 24 - 1) * 2 ^ 253 := by decide +kernel
theorem patternUnits_infinity : patternUnits 0x7F800000 = 2 ^ 24 * 2 ^ 253 := by decide +kernel

/-! ### Rounding picks one of two neighbouring patterns -/

/-- Of the neighbouring patterns `p` and `p + 1`, the nearer to `N / den`, the even one of two equally near (rule R205). -/
def nearerPattern (p N den : Nat) : Nat :=
  if (patternUnits p + patternUnits (p + 1)) * den < 2 * N ∨
      (2 * N = (patternUnits p + patternUnits (p + 1)) * den ∧ p % 2 = 1) then p + 1 else p

theorem nearerPattern_cases (p N den : Nat) : nearerPattern p N den = p ∨ nearerPattern p N den = p + 1 := by
  unfold nearerPattern
  split
  · exact .inr rfl
  · exact .inl rfl

/-- The exponent keeps the quotient inside 24 bits, and above 23 bits where it can. -/
theorem ulpExponent_spec (n : Nat) :
    n < 2 ^ 24 * 2 ^ ulpExponent n ∧ (ulpExponent n = 0 ∨ 2 ^ 23 * 2 ^ ulpExponent n ≤ n) := by
  unfold ulpExponent
  split
  · next h => exact ⟨by omega, .inl rfl⟩
  · next h =>
    have hn : n ≠ 0 := by omega
    have hlog : 24 ≤ n.log2 := (Nat.le_log2 hn).2 (by omega)
    have hlo : 2 ^ n.log2 ≤ n := Nat.log2_self_le hn
    have hhi : n < 2 ^ (n.log2 + 1) := Nat.lt_log2_self
    rw [← pow_add, ← pow_add, show 24 + (n.log2 - 23) = n.log2 + 1 by omega, show 23 + (n.log2 - 23) = n.log2 by omega]
    exact ⟨hhi, .inr hlo⟩

/-- The significand of `N / den` rounded in units of the last place is the nearer of two neighbouring patterns. -/
theorem nearerPattern_eq {N den : Nat} (hden : 0 < den) :
    ∃ p, patternUnits p * den ≤ N ∧ N < patternUnits (p + 1) * den ∧
      ulpExponent (N / den) * 2 ^ 23 + divNearestEven N (den * 2 ^ ulpExponent (N / den)) = nearerPattern p N den := by
  obtain ⟨hhi, hlo⟩ := ulpExponent_spec (N / den)
  generalize ulpExponent (N / den) = e at *
  have hq : N / (den * 2 ^ e) < 2 ^ 24 := by
    rw [← Nat.div_div_eq_div_mul]
    exact Nat.div_lt_of_lt_mul (by rwa [Nat.mul_comm])
  have hq' : e = 0 ∨ 2 ^ 23 ≤ N / (den * 2 ^ e) := hlo.imp_right fun h => by
    rw [← Nat.div_div_eq_div_mul]
    exact (Nat.le_div_iff_mul_le (Nat.two_pow_pos e)).2 h
  have hdiv : den * 2 ^ e * (N / (den * 2 ^ e)) + N % (den * 2 ^ e) = N := Nat.div_add_mod _ _
  have hrem : N % (den * 2 ^ e) < den * 2 ^ e := Nat.mod_lt _ (Nat.mul_pos hden (Nat.two_pow_pos e))
  unfold divNearestEven
  generalize N / (den * 2 ^ e) = q at *
  generalize N % (den * 2 ^ e) = r at *
  have hbelow : patternUnits (e * 2 ^ 23 + q) * den = den * 2 ^ e * q := by
    rw [patternUnits_significand hq.le hq']; ring
  have habove : patternUnits (e * 2 ^ 23 + q + 1) * den = den * 2 ^ e * q + den * 2 ^ e := by
    rw [Nat.add_assoc, patternUnits_significand (by omega) (by omega)]; ring
  have hparity : (e * 2 ^ 23 + q) % 2 = q % 2 := by omega
  refine ⟨e * 2 ^ 23 + q, by omega, by omega, ?_⟩
  unfold nearerPattern
  rw [Nat.add_mul, hbelow, habove, hparity]
  generalize den * 2 ^ e * q = L at *
  generalize den * 2 ^ e = u at *
  split <;> split <;> omega

/-- From half a unit above the greatest finite magnitude on, the pattern of the infinity or one above it (rule R205). -/
theorem nearerPattern_infinity_iff {p N den : Nat} (hbelow : patternUnits p * den ≤ N)
    (habove : N < patternUnits (p + 1) * den) :
    0x7F800000 ≤ nearerPattern p N den ↔ (2 ^ 25 - 1) * 2 ^ 252 * den ≤ N := by
  rcases Nat.lt_trichotomy p 0x7F7FFFFF with hlt | rfl | hgt
  · have hmono := Nat.mul_le_mul_right den (patternUnits_strictMono.monotone (Nat.succ_le_of_lt hlt))
    rw [patternUnits_greatest, Nat.succ_eq_add_one] at hmono
    have := nearerPattern_cases p N den
    omega
  · unfold nearerPattern
    rw [patternUnits_infinity, patternUnits_greatest] at *
    split <;> omega
  · have hmono := Nat.mul_le_mul_right den (patternUnits_strictMono.monotone (Nat.succ_le_of_lt hgt))
    rw [Nat.succ_eq_add_one, patternUnits_infinity] at hmono
    have := nearerPattern_cases p N den
    omega

/-- What `roundMagnitude` computes: the nearer of the two patterns around the quotient, or the infinity (rule R205). -/
theorem roundMagnitude_eq (num : Nat) {den : Nat} (hden : 0 < den) :
    ∃ p, patternUnits p * den ≤ num * 2 ^ 149 ∧ num * 2 ^ 149 < patternUnits (p + 1) * den ∧
      roundMagnitude num den = min (nearerPattern p (num * 2 ^ 149) den) 0x7F800000 := by
  obtain ⟨p, hbelow, habove, hp⟩ := nearerPattern_eq (N := num * 2 ^ 149) hden
  exact ⟨p, hbelow, habove, by rw [← hp]; rfl⟩

/-- The pattern picked is at most as far from the quotient as its neighbour, and even where both are equally far. -/
theorem nearerPattern_near {p N den : Nat} (hden : 0 < den) (hbelow : patternUnits p * den ≤ N)
    (habove : N < patternUnits (p + 1) * den) :
    ∃ q, (nearerPattern p N den = p ∧ q = p + 1 ∨ nearerPattern p N den = p + 1 ∧ q = p) ∧
      (|(patternUnits (nearerPattern p N den) : ℚ) - N / den| < |(patternUnits q : ℚ) - N / den| ∨
        (|(patternUnits (nearerPattern p N den) : ℚ) - N / den| = |(patternUnits q : ℚ) - N / den| ∧
          nearerPattern p N den % 2 = 0)) := by
  have hden' : (0 : ℚ) < den := by exact_mod_cast hden
  have hlo : (patternUnits p : ℚ) ≤ N / den := by rw [le_div_iff₀ hden']; exact_mod_cast hbelow
  have hhi : (N : ℚ) / den < patternUnits (p + 1) := by rw [div_lt_iff₀ hden']; exact_mod_cast habove
  have hmid : (patternUnits p + patternUnits (p + 1)) * den < 2 * N ↔
      (patternUnits p : ℚ) + patternUnits (p + 1) < 2 * (N / den) := by
    rw [← mul_div_assoc, lt_div_iff₀ hden']; norm_cast
  have htie : 2 * N = (patternUnits p + patternUnits (p + 1)) * den ↔
      2 * ((N : ℚ) / den) = patternUnits p + patternUnits (p + 1) := by
    rw [← mul_div_assoc, div_eq_iff hden'.ne']; norm_cast
  have hL : |(patternUnits p : ℚ) - N / den| = N / den - patternUnits p := by rw [abs_of_nonpos (by linarith)]; ring
  have hH : |(patternUnits (p + 1) : ℚ) - N / den| = patternUnits (p + 1) - N / den := abs_of_pos (by linarith)
  by_cases hup : (patternUnits p + patternUnits (p + 1)) * den < 2 * N ∨
      (2 * N = (patternUnits p + patternUnits (p + 1)) * den ∧ p % 2 = 1)
  · have hpick : nearerPattern p N den = p + 1 := if_pos hup
    refine ⟨p, .inr ⟨hpick, rfl⟩, ?_⟩
    rw [hpick, hL, hH]
    rcases hup with h | ⟨h, hodd⟩
    · exact .inl (by linarith [hmid.1 h])
    · exact .inr ⟨by linarith [htie.1 h], by omega⟩
  · have hpick : nearerPattern p N den = p := if_neg hup
    refine ⟨p + 1, .inl ⟨hpick, rfl⟩, ?_⟩
    rw [hpick, hL, hH]
    rcases (not_lt.1 fun h => hup (.inl (hmid.2 h))).lt_or_eq with h | h
    · exact .inl (by linarith)
    · exact .inr ⟨by linarith, by_contra fun hodd => hup (.inr ⟨htie.2 h, by omega⟩)⟩

/-- Beyond a neighbour of `x` every other number is farther from `x`. -/
theorem abs_sub_lt_of_beyond {x y u : ℚ} (h : u ≤ y ∧ y ≤ x ∨ x ≤ y ∧ y ≤ u) : |y - x| < |u - x| ∨ u = y := by
  by_cases huy : u = y
  · exact .inr huy
  · left
    rcases h with ⟨hu, hy⟩ | ⟨hy, hu⟩
    · have := lt_of_le_of_ne hu huy
      rw [abs_of_nonpos (by linarith), abs_of_nonpos (by linarith)]
      linarith
    · have := lt_of_le_of_ne hu (Ne.symm huy)
      rw [abs_of_nonneg (by linarith), abs_of_nonneg (by linarith)]
      linarith

/-- No number outside the two neighbours is nearer than the one picked, and one as near leaves it even (rule R205). -/
theorem nearerPattern_nearest {p N den : Nat} (hden : 0 < den) (hbelow : patternUnits p * den ≤ N)
    (habove : N < patternUnits (p + 1) * den) {u : ℚ} (hu : u ≤ patternUnits p ∨ (patternUnits (p + 1) : ℚ) ≤ u) :
    |(patternUnits (nearerPattern p N den) : ℚ) - N / den| < |u - N / den| ∨
    (|(patternUnits (nearerPattern p N den) : ℚ) - N / den| = |u - N / den| ∧
      (u = patternUnits (nearerPattern p N den) ∨ nearerPattern p N den % 2 = 0)) := by
  have hden' : (0 : ℚ) < den := by exact_mod_cast hden
  have hlo : (patternUnits p : ℚ) ≤ N / den := by rw [le_div_iff₀ hden']; exact_mod_cast hbelow
  have hhi : (N : ℚ) / den ≤ patternUnits (p + 1) := by rw [div_le_iff₀ hden']; exact_mod_cast habove.le
  have hside : ∃ w, (w = p ∨ w = p + 1) ∧ (|(patternUnits w : ℚ) - N / den| < |u - N / den| ∨ u = patternUnits w) :=
    hu.elim (fun h => ⟨p, .inl rfl, abs_sub_lt_of_beyond (.inl ⟨h, hlo⟩)⟩)
      fun h => ⟨p + 1, .inr rfl, abs_sub_lt_of_beyond (.inr ⟨hhi, h⟩)⟩
  obtain ⟨w, hw, hside⟩ := hside
  obtain ⟨q, hpick, hnear⟩ := nearerPattern_near hden hbelow habove
  obtain rfl | rfl : w = nearerPattern p N den ∨ w = q := by omega
  · rcases hside with h | rfl
    · exact .inl h
    · exact .inr ⟨rfl, .inl rfl⟩
  · rcases hside with h | rfl
    · exact .inl (hnear.elim (fun h' => h'.trans h) fun h' => h'.1.trans_lt h)
    · exact hnear.imp_right fun h' => ⟨h'.1, .inr h'.2⟩

/-! ### `rn32` rounds correctly -/

theorem roundMagnitude_le (num den : Nat) : roundMagnitude num den ≤ 0x7F800000 := Nat.min_le_right _ _

theorem rn32_toNat (neg : Bool) (num den : Nat) :
    (rn32 neg num den).toNat = (if neg then 2 ^ 31 else 0) + roundMagnitude num den := by
  have := roundMagnitude_le num den
  rw [rn32, BitVec.toNat_ofNat, Nat.mod_eq_of_lt]
  split <;> omega

theorem rn32_toNat_mod (neg : Bool) (num den : Nat) : (rn32 neg num den).toNat % 2 ^ 31 = roundMagnitude num den := by
  have := roundMagnitude_le num den
  rw [rn32_toNat]
  split <;> omega

theorem signBit_rn32 (neg : Bool) (num den : Nat) : signBit (rn32 neg num den) = neg := by
  have := roundMagnitude_le num den
  cases neg with
  | true => rw [signBit_eq_true_iff, rn32_toNat, if_pos rfl]; omega
  | false => rw [signBit_eq_false_iff, rn32_toNat, if_neg (by decide)]; omega

theorem isInf_iff (x : Sample) : isInf x = true ↔ x.toNat % 2 ^ 31 = 0x7F800000 := by
  rw [isInf, Bool.and_eq_true, beq_iff_eq, beq_iff_eq, ← BitVec.toNat_inj, ← BitVec.toNat_inj, expField_toNat,
    fractionField_toNat]
  simp only [BitVec.toNat_ofNat]
  omega

/-- The value of a sample in units of `2^-149`, counted in the direction of a sign. -/
def signedUnits (neg : Bool) (x : Sample) : ℚ :=
  if signBit x = neg then patternUnits (x.toNat % 2 ^ 31) else -patternUnits (x.toNat % 2 ^ 31)

theorem signedUnits_cases (neg : Bool) (x : Sample) :
    signedUnits neg x = patternUnits (x.toNat % 2 ^ 31) ∨ signedUnits neg x = -patternUnits (x.toNat % 2 ^ 31) := by
  unfold signedUnits
  split
  · exact .inl rfl
  · exact .inr rfl

theorem sampleValue_eq_signedUnits (neg : Bool) (x : Sample) :
    sampleValue x = (if neg then -1 else 1) * (signedUnits neg x / 2 ^ 149) := by
  rw [sampleValue_eq_sampleUnits, sampleUnits, magUnits_eq_patternUnits, signedUnits]
  cases neg <;> cases hx : signBit x <;> simp [neg_div]

/-- `roundMagnitude` is the infinity from half a unit above the greatest finite value on (rule R205). -/
theorem roundMagnitude_infinity_iff (num : Nat) {den : Nat} (hden : 0 < den) :
    roundMagnitude num den = 0x7F800000 ↔ (2 : ℚ) ^ 128 - 2 ^ 103 ≤ (num : ℚ) / den := by
  have hden' : (0 : ℚ) < den := by exact_mod_cast hden
  obtain ⟨p, hbelow, habove, hround⟩ := roundMagnitude_eq num hden
  rw [hround, min_eq_right_iff, nearerPattern_infinity_iff hbelow habove, le_div_iff₀ hden', ← Nat.cast_le (α := ℚ)]
  push_cast
  constructor <;> intro h <;> linarith

/-- A finite `roundMagnitude` is nearest among the magnitudes of all patterns and their negatives (rule R205). -/
theorem roundMagnitude_nearest {num den : Nat} (hden : 0 < den) (hfin : roundMagnitude num den ≠ 0x7F800000) {u : ℚ} {k : Nat}
    (hu : u = patternUnits k ∨ u = -patternUnits k) :
    |(patternUnits (roundMagnitude num den) : ℚ) - (num * 2 ^ 149 : Nat) / den| < |u - (num * 2 ^ 149 : Nat) / den| ∨
    (|(patternUnits (roundMagnitude num den) : ℚ) - (num * 2 ^ 149 : Nat) / den| = |u - (num * 2 ^ 149 : Nat) / den| ∧
      (u = patternUnits (roundMagnitude num den) ∨ roundMagnitude num den % 2 = 0)) := by
  obtain ⟨p, hbelow, habove, hround⟩ := roundMagnitude_eq num hden
  have hpick : roundMagnitude num den = nearerPattern p (num * 2 ^ 149) den := by omega
  rw [hpick]
  refine nearerPattern_nearest hden hbelow habove ?_
  rcases hu with rfl | rfl
  · rcases Nat.lt_or_ge p k with h | h
    · exact .inr (by exact_mod_cast patternUnits_strictMono.monotone h)
    · exact .inl (by exact_mod_cast patternUnits_strictMono.monotone h)
  · exact .inl ((neg_nonpos.2 (Nat.cast_nonneg _)).trans (Nat.cast_nonneg _))

/-- The distance of a sample from `±num / den`, in units of `2^-149`. -/
theorem abs_sampleValue_sub (neg : Bool) (num den : Nat) (x : Sample) :
    |sampleValue x - (if neg then -1 else 1) * ((num : ℚ) / den)| =
      |signedUnits neg x - (num * 2 ^ 149 : Nat) / den| / 2 ^ 149 := by
  have h : (signedUnits neg x - ((num * 2 ^ 149 : Nat) : ℚ) / den) / 2 ^ 149 = signedUnits neg x / 2 ^ 149 - num / den := by
    push_cast; ring
  rw [sampleValue_eq_signedUnits neg, ← mul_sub, abs_mul, ← h, abs_div, abs_of_pos (by positivity : (0 : ℚ) < 2 ^ 149)]
  cases neg <;> simp

/-- `rn32` is the binary32 nearest the rational, ties to even, an infinity from `2^128 − 2^103` on (rule R205). -/
theorem isRN32_rn32 (neg : Bool) (num : Nat) {den : Nat} (hden : 0 < den) :
    IsRN32 ((if neg then -1 else 1) * ((num : ℚ) / den)) (rn32 neg num den) := by
  have hquot : (0 : ℚ) ≤ (num : ℚ) / den := by positivity
  have habs : |(if neg then -1 else 1) * ((num : ℚ) / den)| = (num : ℚ) / den := by
    rw [abs_mul, abs_of_nonneg hquot]
    cases neg <;> simp
  refine ⟨fun h => ?_, fun h => ?_, ?_⟩
  · rw [signBit_rn32]
    cases neg with
    | true => rfl
    | false => simp only [Bool.false_eq_true, if_false] at h; linarith
  · rw [signBit_rn32]
    cases neg with
    | true => simp only [if_true] at h; linarith
    | false => rfl
  rw [habs]
  have hinf := roundMagnitude_infinity_iff num hden
  by_cases hfin : roundMagnitude num den = 0x7F800000
  · rw [if_pos (hinf.1 hfin), isInf_iff, rn32_toNat_mod, hfin]
  · rw [if_neg (mt hinf.2 hfin)]
    have := roundMagnitude_le num den
    refine ⟨by rw [isFinite_iff, rn32_toNat_mod]; omega, fun z _ => ?_⟩
    have hself : signedUnits neg (rn32 neg num den) = patternUnits (roundMagnitude num den) := by
      rw [signedUnits, if_pos (signBit_rn32 neg num den), rn32_toNat_mod]
    have hfrac : (fractionField (rn32 neg num den)).toNat % 2 = roundMagnitude num den % 2 := by
      rw [fractionField_toNat, ← rn32_toNat_mod neg]; omega
    rw [abs_sampleValue_sub, abs_sampleValue_sub, hself, hfrac, div_lt_div_iff_of_pos_right (by positivity),
      div_left_inj' (by positivity), sampleValue_eq_signedUnits neg z, sampleValue_eq_signedUnits neg (rn32 neg num den), hself]
    refine (roundMagnitude_nearest hden hfin (signedUnits_cases neg z)).imp_right fun ⟨hdist, h⟩ => ⟨hdist, h.imp_left ?_⟩
    intro heq
    rw [heq]

/-! ### The blend weights -/

/-- Settles O49: the table by evaluation, the rounding by that of `rn32`. -/
theorem blendWeightsAreTheTable : Obligations.BlendWeightsAreTheTable := by
  unfold Obligations.BlendWeightsAreTheTable
  refine ⟨by decide +kernel, fun j => ?_⟩
  have h := isRN32_rn32 false (j.val + 1) (den := Config.xfadeDen) (by decide)
  simpa [Config.xfadeDen, blendWeight] using h

end Sys2Proof.Machine

namespace Sys2Proof.Machine

/-! ### The operand check of `SET_RATIO` -/

/-- The operand check as rule R88 writes it: a finite binary32 between the two bounds as exact rationals. -/
theorem admitted_iff_sampleValue {e : Config.Envelope} {q : Sample} :
    admitted e q = true ↔ isFinite q = true ∧ (e.loNum : ℚ) / e.loDen ≤ sampleValue q ∧
      sampleValue q ≤ (e.hiNum : ℚ) / e.hiDen := by
  obtain ⟨hlo, hhi⟩ := envelope_den_pos e
  obtain ⟨hfit, -⟩ := e.fits
  have hlo' : (0 : ℚ) < e.loDen := by exact_mod_cast hlo
  have hhi' : (0 : ℚ) < e.hiDen := by exact_mod_cast hhi
  rw [admitted_iff, and_congr_right_iff]
  intro _
  cases hsign : signBit q with
  | false =>
    rw [sampleValue_of_pos hsign, div_le_div_iff₀ hlo' (by positivity), div_le_div_iff₀ (by positivity) hhi']
    simp only [true_and]
    norm_cast
  | true =>
    have hneg : sampleValue q ≤ 0 := by
      rw [sampleValue_eq_sampleUnits, sampleUnits, if_pos hsign]
      push_cast
      exact div_nonpos_of_nonpos_of_nonneg (by simp) (by positivity)
    have hpos : (0 : ℚ) < e.loNum / e.loDen := by
      have : (0 : ℚ) < e.loNum := by exact_mod_cast (by omega : 0 < e.loNum)
      positivity
    simp only [Bool.true_eq_false, false_and, false_iff, not_and]
    intro h
    linarith

/-- `0x3E124925` is the pattern of the least binary32 not below `1/7` (rule R88). -/
theorem one_seventh_le_iff (n : Nat) : 2 ^ 149 ≤ 7 * patternUnits n ↔ 0x3E124925 ≤ n := by
  have hbelow : 7 * patternUnits 0x3E124924 < 2 ^ 149 := by decide +kernel
  have hleast : 2 ^ 149 ≤ 7 * patternUnits 0x3E124925 := by decide +kernel
  constructor
  · intro h
    by_contra hn
    have := patternUnits_strictMono.monotone (show n ≤ 0x3E124924 by omega)
    omega
  · intro hn
    have := patternUnits_strictMono.monotone hn
    omega

/-- `0x40E00000` is the pattern of 7 (rule R88). -/
theorem le_seven_iff (n : Nat) : patternUnits n ≤ 7 * 2 ^ 149 ↔ n ≤ 0x40E00000 := by
  have hseven : patternUnits 0x40E00000 = 7 * 2 ^ 149 := by decide +kernel
  rw [← hseven, patternUnits_strictMono.le_iff_le]

/-- Under the default bounds the admitted operands are the patterns between these two (rules R6, R88). -/
theorem admitted_default_iff {e : Config.Envelope} {q : Sample} (hloNum : e.loNum = 1) (hloDen : e.loDen = 7)
    (hhiNum : e.hiNum = 7) (hhiDen : e.hiDen = 1) :
    admitted e q = true ↔ 0x3E124925 ≤ q.toNat ∧ q.toNat ≤ 0x40E00000 := by
  have hlo := one_seventh_le_iff (q.toNat % 2 ^ 31)
  have hhi := le_seven_iff (q.toNat % 2 ^ 31)
  rw [admitted_iff, isFinite_iff, signBit_eq_false_iff, magUnits_eq_patternUnits, hloNum, hloDen, hhiNum, hhiDen,
    Nat.one_mul, Nat.mul_one, Nat.mul_comm _ 7, hlo, hhi]
  omega

/-- `SET_RATIO` completes exactly on the admitted operands. -/
theorem exec_setRatio_completes_iff {q : Sample} {s : State} :
    (∃ t, exec (.setRatio q) s = .next t) ↔ admitted s.envelope q = true := by
  simp [applyRatio_eq_next]

/-- Settles O18: the operand check, as rationals and under the default bounds as patterns. -/
theorem setRatioOperandCheck : Obligations.SetRatioOperandCheck := by
  unfold Obligations.SetRatioOperandCheck
  intro q s
  rw [exec_setRatio_completes_iff]
  refine ⟨admitted_iff_sampleValue, fun h1 h2 h3 h4 => admitted_default_iff h1 h2 h3 h4, fun h => ?_⟩
  rw [exec_setRatio, applyRatio_eq_refused]
  exact ⟨by simpa using h, rfl⟩

/-- The rounded reciprocal of rule R87. -/
theorem isRN32_downscaleOf {e : Config.Envelope} {q : Sample} (h : admitted e q = true) :
    IsRN32 (1 / sampleValue q) (downscaleOf q) := by
  obtain ⟨-, hsign, -⟩ := admitted_iff.1 h
  obtain ⟨hpos, -⟩ := magUnits_of_admitted h
  have hround := isRN32_rn32 false (2 ^ 149) (den := magUnits q) (by omega)
  rw [sampleValue_of_pos hsign, one_div_div, downscaleOf]
  simpa only [Bool.false_eq_true, if_false, one_mul, Nat.cast_pow, Nat.cast_ofNat] using hround

/-- The comparison of a delta with `ONE` on the numbers (rule R111). -/
theorem gt_one_iff (d : U32) : d > Config.one ↔ d.toNat > 2 ^ 25 := BitVec.lt_def

/-- Settles O17: the one next state of the shared operation; its four conversions by the laws of each. -/
theorem setRatioLoadsItsRegisters : Obligations.SetRatioLoadsItsRegisters := by
  unfold Obligations.SetRatioLoadsItsRegisters
  intro q s
  rw [← admitted_iff_sampleValue, exec_setRatio]
  refine ⟨fun w mm arg => decodeCommand_setRatio w arg mm, fun hq => ?_, fun hq => ?_⟩
  · obtain ⟨-, hsign, -⟩ := admitted_iff.1 hq
    refine ⟨downscaleOf q, deltaUpOf q, deltaDownOf q, modeCheck s.mode (deltaUpOf q) (deltaDownOf q),
      applyRatio_eq_next.2 ⟨hq, rfl⟩, isRN32_downscaleOf hq, ?_, ?_, ?_, ?_, ?_, ?_⟩
    · rw [deltaUpOf_toNat hq, floor_up_sampleValue hsign]
    · rw [deltaDownOf_toNat hq, floor_down_sampleValue hsign]
    · intro hm
      simp only [hm, modeCheck, gt_one_iff]
    · intro hm
      simp only [hm, modeCheck, gt_one_iff]
    · intro hm
      rw [hm, modeCheck]
    · intro hm
      rw [hm, modeCheck]
  · rw [applyRatio_eq_refused]
    exact ⟨by simpa using hq, rfl⟩

end Sys2Proof.Machine

namespace Sys2Proof.Machine

/-! ### The mode check of `SET_RATIO` -/

/-- The binary32 next above 1 is `1 + 2^-23` (rule R197). -/
theorem patternUnits_above_one {n : Nat} (h : 2 ^ 149 < patternUnits n) : 2 ^ 149 + 2 ^ 126 ≤ patternUnits n := by
  have hone : patternUnits 0x3F800000 = 2 ^ 149 := by decide +kernel
  have hnext : patternUnits 0x3F800001 = 2 ^ 149 + 2 ^ 126 := by decide +kernel
  rw [← hone, patternUnits_strictMono.lt_iff_lt] at h
  rw [← hnext]
  exact patternUnits_strictMono.monotone h

/-- The binary32 next below 1 is `1 - 2^-24` (rule R197). -/
theorem patternUnits_below_one {n : Nat} (h : patternUnits n < 2 ^ 149) : patternUnits n ≤ 2 ^ 149 - 2 ^ 125 := by
  have hone : patternUnits 0x3F800000 = 2 ^ 149 := by decide +kernel
  have hprev : patternUnits 0x3F7FFFFF = 2 ^ 149 - 2 ^ 125 := by decide +kernel
  rw [← hone, patternUnits_strictMono.lt_iff_lt] at h
  rw [← hprev]
  exact patternUnits_strictMono.monotone (Nat.le_pred_of_lt h)

/-- No admitted operand above 1 is so near to 1 that the floor hides it (rule R112). -/
theorem deltaUpOf_gt_one_iff {e : Config.Envelope} {q : Sample} (h : admitted e q = true) :
    (deltaUpOf q).toNat > 2 ^ 25 ↔ 1 < sampleValue q := by
  obtain ⟨-, hsign, -⟩ := admitted_iff.1 h
  have hvalue : 1 < sampleValue q ↔ 2 ^ 149 < magUnits q := by
    rw [sampleValue_of_pos hsign, one_lt_div (by positivity)]; norm_cast
  rw [deltaUpOf_toNat h, hvalue, magUnits_eq_patternUnits]
  constructor
  · omega
  · intro hgt
    have := patternUnits_above_one hgt
    omega

/-- No admitted operand below 1 is so near to 1 that the floor hides it (rule R112). -/
theorem deltaDownOf_gt_one_iff {e : Config.Envelope} {q : Sample} (h : admitted e q = true) :
    (deltaDownOf q).toNat > 2 ^ 25 ↔ sampleValue q < 1 := by
  obtain ⟨-, hsign, -⟩ := admitted_iff.1 h
  obtain ⟨hpos, -⟩ := magUnits_of_admitted h
  have hvalue : sampleValue q < 1 ↔ magUnits q < 2 ^ 149 := by
    rw [sampleValue_of_pos hsign, div_lt_one (by positivity)]; norm_cast
  rw [deltaDownOf_toNat h, hvalue, gt_iff_lt, ← Nat.add_one_le_iff, Nat.le_div_iff_mul_le (by omega),
    magUnits_eq_patternUnits]
  constructor
  · omega
  · intro hlt
    have := patternUnits_below_one hlt
    omega

/-- Settles O20: the deltas a completed `SET_RATIO` leaves are those of its admitted operand. -/
theorem deltaTestIsTheRatioTest : Obligations.DeltaTestIsTheRatioTest := by
  unfold Obligations.DeltaTestIsTheRatioTest
  intro q s t h
  obtain ⟨hq, rfl⟩ := applyRatio_eq_next.1 h
  exact ⟨deltaUpOf_gt_one_iff hq, deltaDownOf_gt_one_iff hq⟩

/-! ### `mode` after one ratio operand and after two -/

theorem modeCheck_up_of_gt {dUp : U32} (dDown : U32) (h : dUp.toNat > 2 ^ 25) : modeCheck .up dUp dDown = .up2down :=
  if_pos ((gt_one_iff dUp).2 h)

theorem modeCheck_down_of_gt (dUp : U32) {dDown : U32} (h : dDown.toNat > 2 ^ 25) : modeCheck .down dUp dDown = .down2up :=
  if_pos ((gt_one_iff dDown).2 h)

/-- At ratio 1 neither strict test holds (rule R116 (a)). -/
theorem modeCheck_one (m : Mode) : modeCheck m Config.one Config.one = m := by
  cases m <;> rfl

/-- `SET_RATIO 1.0` completes whatever the envelope is, and its two deltas are `ONE` (rules R34, R116 (a)). -/
theorem applyRatio_one (s : State) : ∃ t, applyRatio oneSample s = .next t ∧ t.mode = s.mode := by
  refine ⟨_, applyRatio_eq_next.2 ⟨admitted_one s.envelope, rfl⟩, ?_⟩
  obtain ⟨-, hup, hdown⟩ := conversions_of_one
  rw [setMode_mode, hup, hdown]
  exact modeCheck_one s.mode

/-- A mode check leaves a mode that the same deltas keep (rule R116 (b)). -/
theorem modeCheck_modeCheck (m : Mode) (dUp dDown : U32) :
    modeCheck (modeCheck m dUp dDown) dUp dDown = modeCheck m dUp dDown := by
  cases m with
  | up => by_cases h : dUp > Config.one <;> simp [modeCheck, h]
  | down => by_cases h : dDown > Config.one <;> simp [modeCheck, h]
  | up2down => rfl
  | down2up => rfl

/-- Settles O21: a repeated operand loads the same registers, and its mode check is made a second time on the same
deltas. -/
theorem repeatedRatioIsIdempotent : Obligations.RepeatedRatioIsIdempotent := by
  unfold Obligations.RepeatedRatioIsIdempotent
  refine ⟨applyRatio_one, fun q s t h => ?_⟩
  obtain ⟨hq, rfl⟩ := applyRatio_eq_next.1 h
  refine applyRatio_eq_next.2 ⟨hq, ?_⟩
  rw [setMode_mode, modeCheck_modeCheck]
  rfl

/-- A completed `SET_RATIO` above 1 in `UP` leaves the transition to `DOWN` pending (rules R111, R161). -/
theorem applyRatio_mode_of_up {q : Sample} {s t : State} (h : applyRatio q s = .next t) (hmode : s.mode = .up)
    (hq : 1 < sampleValue q) : t.mode = .up2down := by
  obtain ⟨hadm, rfl⟩ := applyRatio_eq_next.1 h
  rw [setMode_mode, hmode]
  exact modeCheck_up_of_gt _ ((deltaUpOf_gt_one_iff hadm).2 hq)

/-- A completed `SET_RATIO` below 1 in `DOWN` leaves the transition to `UP` pending (rules R111, R161). -/
theorem applyRatio_mode_of_down {q : Sample} {s t : State} (h : applyRatio q s = .next t) (hmode : s.mode = .down)
    (hq : sampleValue q < 1) : t.mode = .down2up := by
  obtain ⟨hadm, rfl⟩ := applyRatio_eq_next.1 h
  rw [setMode_mode, hmode]
  exact modeCheck_down_of_gt _ ((deltaDownOf_gt_one_iff hadm).2 hq)

/-- A pending transition to `DOWN` stays pending at every ratio (rules R111, R161). -/
theorem applyRatio_mode_of_up2down {q : Sample} {s t : State} (h : applyRatio q s = .next t) (hmode : s.mode = .up2down) :
    t.mode = .up2down := by
  obtain ⟨-, rfl⟩ := applyRatio_eq_next.1 h
  rw [setMode_mode, hmode]
  rfl

/-- Settles O22: command by command; the block keeps the deltas, so it lands in `DOWN` with those of a ratio below 1. -/
theorem doubleCrossingLandsInTheOtherMode : Obligations.DoubleCrossingLandsInTheOtherMode := by
  unfold Obligations.DoubleCrossingLandsInTheOtherMode
  intro s t₁ t₂ t₃ t₄ q₁ q₂ q₃ c hup h₁ hq₁ h₂ hq₂ h₃ h₄ hq₃
  have hmode₁ := applyRatio_mode_of_up h₁ hup hq₁
  have hmode₃ := execUp2down16_mode h₃
  have hkept := RatioRegistersKept.of_process16 (.inr (.inr (.inl rfl)) : IsProcess16 c (.up2down16 c)) h₃
  refine ⟨hmode₁, applyRatio_mode_of_up2down h₂ hmode₁, hmode₃, ?_, applyRatio_mode_of_down h₄ hmode₃ hq₃⟩
  rw [hkept.deltaDown]
  exact (deltaTestIsTheRatioTest q₂ t₁ t₂ h₂).2.2 hq₂

end Sys2Proof.Machine

namespace Sys2Proof.Machine

/-! ### `TRANSPOSE` -/

/-- Settles O23: `TRANSPOSE` of a finite operand is `SET_RATIO` of the free function. -/
theorem transposeIsSetRatioOfExp2 : Obligations.TransposeIsSetRatioOfExp2 := by
  unfold Obligations.TransposeIsSetRatioOfExp2
  intro x s
  exact ⟨fun h => execTranspose_of_not_finite h s, fun h => execTranspose_of_finite h s⟩

/-- An admitted ratio completes and is what `ratio` then holds (rules R88, R110). -/
theorem applyRatio_completes {q : Sample} {s : State} (h : admitted s.envelope q = true) :
    ∃ t, applyRatio q s = .next t ∧ t.ratio = q ∧
      t.phase = s.phase ∧ t.inputRing = s.inputRing ∧ t.outputAccum = s.outputAccum :=
  ⟨_, applyRatio_eq_next.2 ⟨h, rfl⟩, rfl, rfl, rfl, rfl⟩

/-- At a point where `EXP2_12` is exact, `TRANSPOSE` is `SET_RATIO` of the power of two (rules R113, R114 (ii)). -/
theorem exec_transpose_of_exact {p : Sample × Sample} (hp : p ∈ Config.exp2ExactPoints) (s : State) :
    exec (.transpose p.1) s = exec (.setRatio p.2) s := by
  have hfinite : Config.exp2ExactPoints.all (fun p => isFinite p.1) = true := by decide
  rw [exec_transpose, execTranspose_of_finite (List.all_eq_true.1 hfinite p hp), Config.exp2_12.exact p hp, execSetRatio,
    exec_setRatio]

/-- Settles O24: the six operands are the exact points of `EXP2_12`. -/
theorem transposeByOctaves : Obligations.TransposeByOctaves := by
  unfold Obligations.TransposeByOctaves
  intro s p hp
  have hset := exec_transpose_of_exact hp s
  refine ⟨hset, fun h => ?_⟩
  have hadm : admitted s.envelope p.2 = true := h.elim id fun hone => hone ▸ admitted_one s.envelope
  obtain ⟨t, ht, hratio, -⟩ := applyRatio_completes hadm
  exact ⟨t, hset.trans ht, hratio⟩

/-! ### The order of the patterns is the order of the values -/

theorem orderKey_eq (x : Sample) :
    Config.orderKey x = if signBit x then 2 ^ 31 - x.toNat % 2 ^ 31 else 2 ^ 31 + x.toNat % 2 ^ 31 := by
  rw [Config.orderKey, BitVec.toNat_setWidth, signBit]

theorem sampleUnits_eq_patternUnits (x : Sample) :
    sampleUnits x = if signBit x then -(patternUnits (x.toNat % 2 ^ 31) : Int) else patternUnits (x.toNat % 2 ^ 31) := by
  rw [sampleUnits, magUnits_eq_patternUnits]

theorem patternUnits_eq_zero_iff (n : Nat) : patternUnits n = 0 ↔ n = 0 :=
  patternUnits_strictMono.injective.eq_iff' rfl

/-- By the two signs: patterns of one sign are in the order of their magnitudes, and both zeros have one place. -/
theorem orderKey_le_iff_sampleUnits (x y : Sample) :
    Config.orderKey x ≤ Config.orderKey y ↔ sampleUnits x ≤ sampleUnits y := by
  rw [orderKey_eq, orderKey_eq, sampleUnits_eq_patternUnits, sampleUnits_eq_patternUnits]
  have hx : x.toNat % 2 ^ 31 < 2 ^ 31 := Nat.mod_lt _ (by decide)
  have hy : y.toNat % 2 ^ 31 < 2 ^ 31 := Nat.mod_lt _ (by decide)
  generalize x.toNat % 2 ^ 31 = m at *
  generalize y.toNat % 2 ^ 31 = n at *
  have hmn := patternUnits_strictMono.le_iff_le (a := m) (b := n)
  have hnm := patternUnits_strictMono.le_iff_le (a := n) (b := m)
  have hm := patternUnits_eq_zero_iff m
  have hn := patternUnits_eq_zero_iff n
  split <;> split <;> omega

theorem orderKey_le_iff_sampleValue (x y : Sample) :
    Config.orderKey x ≤ Config.orderKey y ↔ sampleValue x ≤ sampleValue y := by
  rw [orderKey_le_iff_sampleUnits, sampleValue_eq_sampleUnits, sampleValue_eq_sampleUnits,
    div_le_div_iff_of_pos_right (by positivity), Int.cast_le]

/-- The finite patterns are those between the two infinities in the order. -/
theorem isFinite_iff_orderKey (x : Sample) :
    isFinite x = true ↔ 2 ^ 31 - 0x7F800000 < Config.orderKey x ∧ Config.orderKey x < 2 ^ 31 + 0x7F800000 := by
  rw [isFinite_iff, orderKey_eq]
  split <;> omega

/-- What lies between two admitted operands is admitted (rule R88). -/
theorem admitted_of_between {e : Config.Envelope} {a b q : Sample} (ha : admitted e a = true) (hb : admitted e b = true)
    (haq : Config.orderKey a ≤ Config.orderKey q) (hqb : Config.orderKey q ≤ Config.orderKey b) : admitted e q = true := by
  obtain ⟨hfa, hlo, -⟩ := admitted_iff_sampleValue.1 ha
  obtain ⟨hfb, -, hhi⟩ := admitted_iff_sampleValue.1 hb
  rw [isFinite_iff_orderKey] at hfa hfb
  exact admitted_iff_sampleValue.2 ⟨(isFinite_iff_orderKey q).2 ⟨hfa.1.trans_le haq, hqb.trans_lt hfb.2⟩,
    hlo.trans ((orderKey_le_iff_sampleValue a q).1 haq), ((orderKey_le_iff_sampleValue q b).1 hqb).trans hhi⟩

/-! ### `EXP2_12` within two octaves -/

/-- The patterns of two octaves and of the ratios they give stand for those values (rules R114 (ii), R197). -/
theorem sampleValue_twoOctaves : sampleValue 0xC1C00000#32 = -24 ∧ sampleValue 0x41C00000#32 = 24 ∧
    sampleValue 0x3E800000#32 = 1 / 4 ∧ sampleValue 0x40800000#32 = 4 := by
  have hunits : sampleUnits 0xC1C00000#32 = -24 * 2 ^ 149 ∧ sampleUnits 0x41C00000#32 = 24 * 2 ^ 149 ∧
      sampleUnits 0x3E800000#32 = 2 ^ 147 ∧ sampleUnits 0x40800000#32 = 4 * 2 ^ 149 := by decide +kernel
  obtain ⟨h1, h2, h3, h4⟩ := hunits
  simp only [sampleValue_eq_sampleUnits, h1, h2, h3, h4]
  norm_num

/-- `EXP2_12` maps two octaves either way between 1/4 and 4: it is monotone and exact at both ends (rule R114). -/
theorem exp2_12_between {x : Sample} (hx : isFinite x = true) (hlo : -24 ≤ sampleValue x) (hhi : sampleValue x ≤ 24) :
    Config.orderKey 0x3E800000#32 ≤ Config.orderKey (Config.exp2_12.value x) ∧
      Config.orderKey (Config.exp2_12.value x) ≤ Config.orderKey 0x40800000#32 := by
  obtain ⟨hneg, hpos, -, -⟩ := sampleValue_twoOctaves
  rw [← hneg, ← orderKey_le_iff_sampleValue] at hlo
  rw [← hpos, ← orderKey_le_iff_sampleValue] at hhi
  have hbottom : Config.exp2_12.value 0xC1C00000#32 = 0x3E800000#32 := Config.exp2_12.exact (_, _) (by decide)
  have htop : Config.exp2_12.value 0x41C00000#32 = 0x40800000#32 := Config.exp2_12.exact (_, _) (by decide)
  rw [← hbottom, ← htop]
  exact ⟨Config.exp2_12.monotone _ _ (by decide) hx hlo, Config.exp2_12.monotone _ _ hx (by decide) hhi⟩

/-- Settles O25: the result lies between two admitted ratios, so it is admitted. -/
theorem transposeCompletesWithinTwoOctaves : Obligations.TransposeCompletesWithinTwoOctaves := by
  unfold Obligations.TransposeCompletesWithinTwoOctaves
  intro x s hquarter hfour hx hlo hhi
  obtain ⟨hge, hle⟩ := exp2_12_between hx hlo hhi
  obtain ⟨t, ht, hratio, hframe⟩ := applyRatio_completes (admitted_of_between hquarter hfour hge hle)
  obtain ⟨-, -, hquarterValue, hfourValue⟩ := sampleValue_twoOctaves
  rw [orderKey_le_iff_sampleValue, hquarterValue] at hge
  rw [orderKey_le_iff_sampleValue, hfourValue] at hle
  exact ⟨t, (execTranspose_of_finite hx s).trans ht, hratio, hratio ▸ hge, hratio ▸ hle, hframe⟩

end Sys2Proof.Machine

namespace Sys2Proof.Machine

/-! ### The course of a block -/

/-- Two states from which a block takes the same course: all that a test looks at is the same, and where `A` holds, so are
the samples that reach the ring (rules R131, R194). `A` is the premise on the samples, which is carried along unopened. -/
structure SameCourse (A : Prop) (s s' : State) : Prop extends SameSteering s s' where
  phase : s'.phase = s.phase
  mode : s'.mode = s.mode
  src : A → s'.src = s.src
  inputRing : A → s'.inputRing = s.inputRing

/-- Two up passes are at the same place, and where `A` holds their rings hold the same samples. -/
structure UpSameCourse (A : Prop) (p q : UpPass) : Prop extends UpInStep p q where
  ring : A → q.ring = p.ring

/-- Two passes or blocks that return the same cursor and leave states whose next block takes the same course. -/
def ResultSameCourse (A : Prop) (x y : Nat × State) : Prop := y.1 = x.1 ∧ SameCourse A x.2 y.2

section Course

variable {A : Prop} {s s' : State}

theorem upStep_sameCourse (h : SameCourse A s s') (b : Buffer) (n : Nat) {p q : UpPass} (hpq : UpSameCourse A p q) :
    EndAlike (UpSameCourse A) (upStep s b n p) (upStep s' b n q) := by
  refine (upStep_inStep h.toSameSteering n hpq.toUpInStep).strengthen fun p' q' hp hq hstep => ⟨hstep, fun hA => ?_⟩
  obtain ⟨k, -, rfl, -, -, -, -, -, -, hring⟩ := upStep_spec hp
  obtain ⟨k', -, rfl, -, -, -, -, -, -, hring'⟩ := upStep_spec hq
  rw [hpq.phase, h.deltaUp] at hring'
  refine slots_ext fun i => ?_
  obtain ⟨j, hj, rfl⟩ := ring_exists_offset (ringOf p.phase) i
  rw [hring j hj, hring' j hj, hpq.ring hA, hpq.cursor, h.src hA, h.cursorW]

theorem upSteps_sameCourse (h : SameCourse A s s') (b : Buffer) : ∀ (n : Nat) {p q : UpPass}, UpSameCourse A p q →
    EndAlike (UpSameCourse A) (upSteps s b n p) (upSteps s' b n q)
  | 0, _, _, hpq => .ok hpq
  | n + 1, _, _, hpq => (upSteps_sameCourse h b n hpq).bind fun _ _ => upStep_sameCourse h b n

theorem upFinish_sameCourse (h : SameCourse A s s') (b : Buffer) {p q : UpPass} (hpq : UpSameCourse A p q) :
    SameCourse A (upFinish b p s) (upFinish b q s') := by
  obtain ⟨⟨hup, hdown, hw, hvalid⟩, -, hmode, hsrc, -⟩ := h
  cases b <;> exact ⟨⟨hup, hdown, hw, hvalid⟩, hpq.phase, hmode, hsrc, hpq.ring⟩

theorem downFinish_sameCourse (h : SameCourse A s s') (b : Buffer) {p q : DownPass} (hpq : DownInStep p q) :
    SameCourse A (downFinish b p s) (downFinish b q s') := by
  obtain ⟨⟨hup, hdown, hw, hvalid⟩, -, hmode, hsrc, hring⟩ := h
  cases b <;> exact ⟨⟨hup, hdown, hw, hvalid⟩, hpq.phase, hmode, hsrc, hring⟩

theorem runUp_sameCourse (h : SameCourse A s s') (c : Nat) (b : Buffer) :
    EndAlike (ResultSameCourse A) (runUp c b s) (runUp c b s') :=
  have hstart : UpSameCourse A (upStart s c b) (upStart s' c b) := ⟨⟨h.phase, rfl⟩, h.inputRing⟩
  (upSteps_sameCourse h b 16 hstart).bind fun _ _ hpq => .ok ⟨hpq.cursor, upFinish_sameCourse h b hpq⟩

theorem runDown_sameCourse (h : SameCourse A s s') (c : Nat) (b : Buffer) :
    EndAlike (ResultSameCourse A) (runDown c b s) (runDown c b s') := by
  have hstart : DownInStep (downStart s c b) (downStart s' c b) := ⟨h.phase, rfl, rfl⟩
  unfold runDown
  rw [h.deltaDown]
  split
  · exact (downLoop_endAlike (fun _ _ hpq => hpq.emitted) (fun _ _ => downStep_inStep h.toSameSteering) downFuel
      hstart).bind fun _ _ hpq => .ok ⟨hpq.cursor, downFinish_sameCourse h b hpq⟩
  · exact .error _

theorem landDown_sameCourse (h : SameCourse A s s') :
    SameCourse A (clearOutputAccum (setMode .down (complementPhase s)))
      (clearOutputAccum (setMode .down (complementPhase s'))) :=
  ⟨⟨h.deltaUp, h.deltaDown, h.cursorW, h.srcValid⟩, congrArg (~~~·) h.phase, rfl, h.src, h.inputRing⟩

theorem landUp_sameCourse (h : SameCourse A s s') :
    SameCourse A (clearInputRing (setMode .up (complementPhase s)))
      (clearInputRing (setMode .up (complementPhase s'))) :=
  ⟨⟨h.deltaUp, h.deltaDown, h.cursorW, h.srcValid⟩, congrArg (~~~·) h.phase, rfl, h.src, fun _ => rfl⟩

theorem blend_sameCourse (h : SameCourse A s s') : SameCourse A (blend s) (blend s') := by
  unfold blend
  exact ⟨⟨h.deltaUp, h.deltaDown, h.cursorW, h.srcValid⟩, h.phase, h.mode, h.src, h.inputRing⟩

theorem runUp2down_sameCourse (h : SameCourse A s s') (c : Nat) :
    EndAlike (ResultSameCourse A) (runUp2down c s) (runUp2down c s') :=
  (runUp_sameCourse h c .dst).bind fun _ _ hu =>
    (runDown_sameCourse (landDown_sameCourse hu.2) c .tmp).bind fun _ _ hv => .ok ⟨hv.1, blend_sameCourse hv.2⟩

theorem runDown2up_sameCourse (h : SameCourse A s s') (c : Nat) :
    EndAlike (ResultSameCourse A) (runDown2up c s) (runDown2up c s') :=
  (runDown_sameCourse h c .dst).bind fun _ _ hu =>
    (runUp_sameCourse (landUp_sameCourse hu.2) c .tmp).bind fun _ _ hv => .ok ⟨hv.1, blend_sameCourse hv.2⟩

/-- A block operation answers with what its passes end with. -/
theorem exec_process16_sameCourse {c : Nat} {i : Instr} (hi : IsProcess16 c i) (h : SameCourse A s s') :
    ∃ r r', exec i s = answer r ∧ exec i s' = answer r' ∧ EndAlike (ResultSameCourse A) r r' := by
  rcases hi with rfl | rfl | rfl | rfl
  · exact ⟨_, _, exec_up16 c s, exec_up16 c s', runUp_sameCourse h c .dst⟩
  · exact ⟨_, _, exec_down16 c s, exec_down16 c s', runDown_sameCourse h c .dst⟩
  · exact ⟨_, _, exec_up2down16 c s, exec_up2down16 c s', runUp2down_sameCourse h c⟩
  · exact ⟨_, _, exec_down2up16 c s, exec_down2up16 c s', runDown2up_sameCourse h c⟩

end Course

/-- Settles O40: a simulation of the passes of two states that are steered alike, which carries the ring along under the
premise that `SRC` and the ring agree at entry. -/
theorem samplesAndRomDoNotSteer : Obligations.SamplesAndRomDoNotSteer := by
  unfold Obligations.SamplesAndRomDoNotSteer
  intro s s' c i hi hphase hmode hup hdown hvalid hw
  have hcourse : SameCourse (s'.src = s.src ∧ s'.inputRing = s.inputRing) s s' :=
    ⟨⟨hup, hdown, hw, hvalid⟩, hphase, hmode, And.left, And.right⟩
  obtain ⟨r, r', hr, hr', halike⟩ := exec_process16_sameCourse hi hcourse
  simp only [hr, hr', answer_eq_fault, answer_eq_next]
  refine ⟨fun f => (halike.error_iff f).1, ?_⟩
  rintro _ ⟨c₁, u, rfl, rfl⟩
  cases halike with
  | @ok _ b h =>
    obtain ⟨c₂, u'⟩ := b
    obtain ⟨hc : c₂ = c₁, hu : SameCourse _ u u'⟩ := h
    refine ⟨_, ⟨c₂, u', rfl, rfl⟩, hu.phase, hu.mode, ?_, fun hsrc hring => hu.inputRing ⟨hsrc, hring⟩⟩
    simp only [respond_response, hc, hu.cursorW]

end Sys2Proof.Machine

namespace Sys2Proof.Machine

/-! ### The ring advance -/

/-- The ring advance `r' −8 r` in natural numbers (rules R142, R192). -/
theorem slotsAdvanced_eq_mod (p q : U32) : slotsAdvanced p q = ((ringOf q).toNat + 8 - (ringOf p).toNat) % 8 := by
  have := (ringOf p).isLt
  unfold slotsAdvanced
  rw [BitVec.toNat_sub]
  omega

theorem ringOf_add_slotsAdvanced (p q : U32) : ringOf p + BitVec.ofNat 3 (slotsAdvanced p q) = ringOf q := by
  unfold slotsAdvanced
  rw [BitVec.ofNat_toNat, BitVec.setWidth_eq, BitVec.add_comm, BitVec.sub_add_cancel]

/-! ### An output sample as two row sums over the ring -/

theorem streamSum_congr {w w' : Nat → Sample} (h : ∀ k < 8, w k = w' k) (d : Nat) (rom : Config.RomImage) (row : Fin 257) :
    streamSum d rom row w = streamSum d rom row w' := by
  unfold streamSum
  rw [h 0 (by decide), h 1 (by decide), h 2 (by decide), h 3 (by decide), h 4 (by decide), h 5 (by decide),
    h 6 (by decide), h 7 (by decide)]

/-- The row sum of the engine is that of the slots in the order the taps meet them (rules R143, R199). -/
theorem tapSum_eq_streamSum (d : Nat) (rom : Config.RomImage) (row : Fin 257) (ring : Slots) (base : RingIx) :
    tapSum d rom row ring base = streamSum d rom row fun k => slotGet ring (base + BitVec.ofNat 3 k) := rfl

/-- Steps 3 and 4 of `UP16` over whatever the ring holds from `RING` on (rules R143, R144). -/
theorem upSample_of_ring {phase : U32} {ring : Slots} {w : Nat → Sample}
    (h : ∀ k < 8, slotGet ring (ringOf phase + BitVec.ofNat 3 k) = w k) (d : Nat) (rom : Config.RomImage) :
    upSample d rom phase ring =
      interpolate (d + 30) (fracS (fracOf phase).toNat)
        (streamSum d rom (rowIndex phase) w) (streamSum (d + 15) rom (nextRowIndex phase) w) := by
  unfold upSample
  rw [tapSum_eq_streamSum, tapSum_eq_streamSum, streamSum_congr h, streamSum_congr h]

/-- Settles O28: the three effects of one output sample, as `upStep_spec` gives them. -/
theorem upStepPullsTheRingAdvance : Obligations.UpStepPullsTheRingAdvance := by
  unfold Obligations.UpStepPullsTheRingAdvance
  intro s b n p p' h
  obtain ⟨k, hk7, hk, -, hphase, hcursor, -, hout, -, hring⟩ := upStep_spec h
  refine ⟨hphase, ?_, k, hk7, ?_, hcursor, fun i hi => ?_, fun i hi hki => ?_⟩
  · rw [hout, upSample_of_ring fun _ _ => rfl]
    rfl
  · rw [hk, slotsAdvanced_eq_mod, hphase]
  · rw [hring i (by omega), if_pos hi]
    rfl
  · rw [hring i hi, if_neg (by omega)]

/-! ### Completion and consumption for every delta -/

/-- How many source samples `n` output samples of `UP16` pull, whatever the delta is (rule R142). -/
def ringAdvances (p d : U32) (n : Nat) : Nat :=
  ((List.range n).map fun i => slotsAdvanced (phaseAfter p d i) (phaseAfter p d (i + 1))).sum

theorem ringAdvances_succ (p d : U32) (n : Nat) :
    ringAdvances p d (n + 1) = ringAdvances p d n + slotsAdvanced (phaseAfter p d n) (phaseAfter p d (n + 1)) := by
  unfold ringAdvances
  rw [List.range_succ, List.map_append, List.sum_append]
  simp

theorem AllValid.windowValid {s : State} (h : AllValid s) (c n : Nat) : WindowValid s c n := fun j _ => h (c + j)

theorem upSteps_completes_of_allValid {s : State} (hv : AllValid s) (b : Buffer) (p : UpPass) (n : Nat) :
    ∃ p', upSteps s b n p = .ok p' := by
  induction n with
  | zero => exact ⟨p, rfl⟩
  | succ n ih =>
    obtain ⟨q, hq⟩ := ih
    obtain ⟨p', h⟩ := upStep_completes_iff.2 (hv.windowValid q.cursor _)
    exact ⟨p', upSteps_succ_eq_ok.2 ⟨q, hq, h⟩⟩

theorem upSteps_cursor_ringAdvances {s : State} {b : Buffer} {p : UpPass} : ∀ {n : Nat} {p' : UpPass},
    upSteps s b n p = .ok p' → p'.cursor = p.cursor + ringAdvances p.phase s.deltaUp n := by
  intro n
  induction n with
  | zero => intro p' h; cases h; rfl
  | succ n ih =>
    intro p' h
    obtain ⟨q, hq, h⟩ := upSteps_succ_eq_ok.1 h
    obtain ⟨hphase, -⟩ := upSteps_phase hq
    obtain ⟨k, -, hk, -, -, hcursor, -⟩ := upStep_spec h
    rw [hcursor, ih hq, hk, hphase, ← phaseAfter_succ, ringAdvances_succ, Nat.add_assoc]

/-- Settles O29: no step finds an unreadable cursor, and each counts its ring advance. -/
theorem up16CompletesForEveryDelta : Obligations.Up16CompletesForEveryDelta := by
  unfold Obligations.Up16CompletesForEveryDelta
  intro s c hv
  obtain ⟨p, hp⟩ := upSteps_completes_of_allValid hv .dst (upStart s c .dst) 16
  have hrun : runUp c .dst s = .ok (p.cursor, upFinish .dst p s) := runUp_eq_ok.2 ⟨p, hp, rfl, rfl⟩
  refine ⟨_, answer_eq_next.2 ⟨_, _, hrun, rfl⟩, (respond_phase _ _).trans (runUp_phase hrun), ?_⟩
  rw [respond_response, upSteps_cursor_ringAdvances hp]
  simp only [ringAdvances, slotsAdvanced_eq_mod]
  rfl

/-- Settles O26: for `d ≤ 7·2^25` the cursor has counted, after each output sample, the periods passed, and the window holds
all the cursors that the sixteen samples count. -/
theorem up16CompletesAndConsumes : Obligations.Up16CompletesAndConsumes := by
  unfold Obligations.Up16CompletesAndConsumes
  intro s c hd (hw : WindowValid s c (upConsumption s.phase s.deltaUp))
  refine ⟨fun n hn => ?_, ?_⟩
  · obtain ⟨p, hp⟩ := (upSteps_completes_iff hd n).2 (hw.mono (periodsPassed_mono _ _ hn))
    exact ⟨p, hp, upSteps_cursor hd hp⟩
  · obtain ⟨⟨c', u⟩, hrun⟩ := (runUp_completes_iff (b := .dst) hd).2 hw
    refine ⟨_, answer_eq_next.2 ⟨c', u, hrun, rfl⟩, ?_, (respond_phase c' u).trans (runUp_phase hrun)⟩
    rw [respond_response, runUp_cursor hd hrun, (HostSideKept.of_runUp hrun).cursorW]
    rfl

/-! ### The ring as a window of the stream -/

/-- One output sample moves the window of the ring along by its advance: the samples kept are followed by those just
pulled (rule R142). -/
theorem upStep_window {s : State} {b : Buffer} {n : Nat} {q p : UpPass} (h : upStep s b n q = .ok p) {j : Nat} (hj : j < 8) :
    slotGet p.ring (ringOf p.phase + BitVec.ofNat 3 j) =
      if slotsAdvanced q.phase p.phase + j < 8 then
        slotGet q.ring (ringOf q.phase + BitVec.ofNat 3 (slotsAdvanced q.phase p.phase + j))
      else s.src.read (wrapCursor s.cursorW (q.cursor + (slotsAdvanced q.phase p.phase + j - 8))) := by
  obtain ⟨k, hk7, hk, -, hphase, -, -, -, -, hring⟩ := upStep_spec h
  rw [← hphase] at hk
  rw [← ringOf_add_slotsAdvanced q.phase p.phase, ← hk, ring_add_add, hring _ (Nat.mod_lt _ (by decide))]
  split
  · next hlt =>
    have hold : ¬ k + j < 8 := fun hin => by rw [Nat.mod_eq_of_lt hin] at hlt; omega
    rw [if_neg hold, show (k + j) % 8 = k + j - 8 by omega]
  · next hge =>
    have hold : k + j < 8 := by omega
    rw [if_pos hold, Nat.mod_eq_of_lt hold]

section Filter

variable {s : State} {c : Nat} {b : Buffer}

theorem upStream_in_ring {j : Nat} (hj : j < 8) :
    upStream s c j = slotGet s.inputRing (ringOf s.phase + BitVec.ofNat 3 j) := if_pos hj

theorem upStream_from_source {j : Nat} (hj : 8 ≤ j) (m : Nat) :
    upStream s c (m + j) = s.src.read (wrapCursor s.cursorW (c + m + (j - 8))) := by
  rw [upStream, if_neg (by omega), Nat.add_sub_assoc hj, Nat.add_assoc]

/-- After `n` output samples the ring holds, oldest first, the eight samples of the stream that end with the last one pulled
(rules R142, R143). -/
theorem upSteps_ring (hd : s.deltaUp.toNat ≤ 7 * 2 ^ 25) : ∀ {n : Nat} {p : UpPass}, upSteps s b n (upStart s c b) = .ok p →
    ∀ k < 8, slotGet p.ring (ringOf p.phase + BitVec.ofNat 3 k) = upStream s c (periodsPassed s.phase s.deltaUp n + k) := by
  intro n
  induction n with
  | zero =>
    intro p h k hk
    cases h
    rw [periodsPassed_zero, Nat.zero_add, upStream_in_ring hk]
    rfl
  | succ n ih =>
    intro p h k hk
    obtain ⟨hpphase, -⟩ := upSteps_phase h
    obtain ⟨q, hq, h⟩ := upSteps_succ_eq_ok.1 h
    obtain ⟨hqphase, -⟩ := upSteps_phase hq
    have hpassed : periodsPassed s.phase s.deltaUp (n + 1) =
        periodsPassed s.phase s.deltaUp n + slotsAdvanced q.phase p.phase := by
      rw [periodsPassed_succ_eq hd, hpphase, hqphase, ← phaseAfter_succ]
      rfl
    rw [upStep_window h hk, hpassed, Nat.add_assoc]
    split
    · next hin => exact ih hq _ hin
    · next hout => rw [upSteps_cursor hd hq, upStream_from_source (Nat.le_of_not_lt hout)]

/-- Output sample `n` is written as the filter of the stream gives it (rules R141 to R144). -/
theorem upStep_out (hd : s.deltaUp.toNat ≤ 7 * 2 ^ 25) {n : Nat} {q p : UpPass} (hq : upSteps s b n (upStart s c b) = .ok q)
    (h : upStep s b n q = .ok p) : p.out = q.out.setIfInBounds n (upOutput s c n) := by
  have hp : upSteps s b (n + 1) (upStart s c b) = .ok p := upSteps_succ_eq_ok.2 ⟨q, hq, h⟩
  obtain ⟨hphase, -⟩ := upSteps_phase hp
  obtain ⟨-, hdraws⟩ := upSteps_phase hq
  obtain ⟨k, -, -, -, -, -, -, hout, -⟩ := upStep_spec h
  rw [hout, upSample_of_ring (upSteps_ring hd hp), hphase, hdraws]
  rfl

theorem upSteps_out (hd : s.deltaUp.toNat ≤ 7 * 2 ^ 25) : ∀ {n : Nat} {p : UpPass}, upSteps s b n (upStart s c b) = .ok p →
    ∀ (i : Nat) (hi : i < 16), i < n → p.out[i] = upOutput s c i := by
  intro n
  induction n with
  | zero => intro p _ i _ hin; exact absurd hin i.not_lt_zero
  | succ n ih =>
    intro p h i hi hin
    obtain ⟨q, hq, h⟩ := upSteps_succ_eq_ok.1 h
    simp only [upStep_out hd hq h, Vector.getElem_setIfInBounds]
    split
    · next heq => rw [heq]
    · next hne => exact ih hq i hi (by omega)

end Filter

/-- Settles O27: the ring is a window of the stream after every output sample, so each is the filter of that window. -/
theorem up16IsTheSlidingFilter : Obligations.Up16IsTheSlidingFilter := by
  unfold Obligations.Up16IsTheSlidingFilter
  intro s t c hd h
  obtain ⟨c', u, hrun, rfl⟩ := answer_eq_next.1 h
  obtain ⟨p, hp, -, rfl⟩ := runUp_eq_ok.1 hrun
  exact ⟨fun n hn => upSteps_out hd hp n hn hn, upSteps_ring hd hp⟩

end Sys2Proof.Machine

namespace Sys2Proof.Machine

/-! ### When `DOWN16` completes and what it consumes -/

/-- Settles O30: both cases of `m` are the consumption formula, which says exactly when the pass completes and what it then
returns. -/
theorem down16CompletesAndConsumes : Obligations.Down16CompletesAndConsumes := by
  unfold Obligations.Down16CompletesAndConsumes
  intro s c m hm hw
  obtain ⟨hd, hd', rfl⟩ : 1 ≤ s.deltaDown.toNat ∧ s.deltaDown.toNat ≤ 7 * 2 ^ 25 ∧
      m = downConsumption s.phase s.deltaDown := by
    unfold downConsumption
    rcases hm with ⟨hd, hd', rfl⟩ | ⟨hd, hd', rfl⟩
    · exact ⟨hd, by omega, (if_pos hd').symm⟩
    · exact ⟨by omega, hd', (if_neg (by omega)).symm⟩
  obtain ⟨⟨c', u⟩, hrun⟩ := (runDown_completes_iff (b := .dst) hd hd').2 hw
  obtain ⟨hcursor, hphase⟩ := runDown_cursor_phase hd hd' hrun
  refine ⟨downConsumption_le, _, answer_eq_next.2 ⟨c', u, hrun, rfl⟩, ?_, (respond_phase c' u).trans hphase⟩
  rw [respond_response, hcursor, (HostSideKept.of_runDown hrun).cursorW]
  rfl

/-- With every cursor readable a down pass whose delta can rotate the ring completes (rule R158). -/
theorem runDown_completes_of_allValid {s : State} (hv : AllValid s) (c : Nat) (b : Buffer)
    (hd : canRotate s.deltaDown = true) : ∃ x, runDown c b s = .ok x := by
  cases h : runDown c b s with
  | ok x => exact ⟨x, rfl⟩
  | error f =>
    obtain ⟨-, j, hj⟩ := runDown_error_of_canRotate hd h
    rw [hv (c + j)] at hj
    cases hj

/-- Settles O33: a delta that can rotate the ring leaves only a source read to be stuck on, and every cursor is readable; one
that cannot is stuck at once. -/
theorem down16EndsUnlessStationary : Obligations.Down16EndsUnlessStationary := by
  unfold Obligations.Down16EndsUnlessStationary
  intro s c hv
  have hstuck (hd : s.deltaDown.toNat % 2 ^ 28 = 0) : exec (.down16 c) s = .fault .downNeverRotates :=
    answer_eq_fault.2 (runDown_of_not_canRotate c .dst hd)
  refine ⟨⟨fun ⟨t, ht⟩ hd => ?_, fun hd => ?_⟩, hstuck⟩
  · rw [hstuck hd] at ht
    cases ht
  · obtain ⟨⟨c', u⟩, hrun⟩ := runDown_completes_of_allValid hv c .dst ((canRotate_iff _).2 hd)
    exact ⟨_, answer_eq_next.2 ⟨c', u, hrun, rfl⟩⟩

/-! ### One source sample of `DOWN16`, slot by slot -/

/-- What one source sample of `DOWN16` makes of the slot that tap `k` meets, before a rotation clears it: the sample scaled,
split by the fraction, and added through both rows (rules R152, R153). -/
def downTapSum (s : State) (p : DownPass) (k : Fin 8) : Sample :=
  let xs := mulS p.draws (s.src.read (wrapCursor s.cursorW p.cursor)) s.downscale
  tapResult (p.draws + 3) s.rom p.phase (mulS (p.draws + 1) xs (fracS (2 ^ 17 - (fracOf p.phase).toNat)))
    (mulS (p.draws + 2) xs (fracS (fracOf p.phase).toNat)) p.accum k

theorem downAccumulate_get (s : State) (p : DownPass) (k : Fin 8) :
    slotGet (downAccumulate p.draws s.rom s.downscale p.phase (s.src.read (wrapCursor s.cursorW p.cursor)) p.accum)
      (tapSlot (ringOf p.phase) k) = downTapSum s p k :=
  accumulate_get ..

theorem tapSlot_zero (r : RingIx) : tapSlot r 0 = r := BitVec.add_zero r

/-- After a source sample every slot holds its sum, but a rotation clears the one that `RING` named (rules R153, R155). -/
theorem downStep_slot {s : State} {b : Buffer} {p p' : DownPass} (h : downStep s b p = .ok p') (k : Fin 8) :
    slotGet p'.accum (tapSlot (ringOf p.phase) k) =
      if rotated p.phase p'.phase = true ∧ k = 0 then zeroSample else downTapSum s p k := by
  obtain ⟨-, hphase, -, -, acc, rfl, hr⟩ := downStep_spec h
  rw [hphase]
  split at hr
  · next hrot =>
    obtain ⟨-, haccum, -⟩ := hr
    by_cases hk : k = 0
    · rw [haccum, hk, tapSlot_zero, slotGet_slotSet_same, if_pos ⟨hrot, rfl⟩]
    · have hslot : tapSlot (ringOf p.phase) k ≠ ringOf p.phase := fun e =>
        hk ((tapSlot_inj _).1 (e.trans (tapSlot_zero _).symm))
      rw [haccum, slotGet_slotSet_other _ _ hslot, downAccumulate_get, if_neg fun hc => hk hc.2]
  · next hrot =>
    obtain ⟨-, haccum, -⟩ := hr
    rw [haccum, downAccumulate_get, if_neg fun hc => hrot hc.1]

/-- A rotation of any size emits the sum of the slot that `RING` named, and nothing else is emitted (rules R155, R156). -/
theorem downStep_out {s : State} {b : Buffer} {p p' : DownPass} (h : downStep s b p = .ok p') :
    p'.out = if rotated p.phase p'.phase = true then p.out.setIfInBounds p.emitted (downTapSum s p 0) else p.out := by
  obtain ⟨-, hphase, -, -, acc, rfl, hr⟩ := downStep_spec h
  rw [hphase]
  split at hr
  · next hrot =>
    obtain ⟨hout, -⟩ := hr
    rw [if_pos hrot, hout, ← downAccumulate_get, tapSlot_zero]
  · next hrot =>
    obtain ⟨hout, -⟩ := hr
    rw [if_neg hrot, hout]

/-- Settles O32: the slots and the output of one source sample, with and without a rotation. -/
theorem downStepAccumulatesAndEmitsOnce : Obligations.DownStepAccumulatesAndEmitsOnce := by
  unfold Obligations.DownStepAccumulatesAndEmitsOnce
  intro s b p p' h
  obtain ⟨-, hphase, hcursor, -⟩ := downStep_spec h
  have hslot₀ := downStep_slot h 0
  have hemitted := downStep_emitted h
  rw [← hphase] at hemitted
  rw [tapSlot_zero] at hslot₀
  refine ⟨hphase, hcursor, fun k hk => ?_, fun hring => ?_, fun hring => ?_⟩
  · exact (downStep_slot h k).trans (if_neg fun hc => hk hc.2)
  · have hrot : ¬ rotated p.phase p'.phase = true := by simp [rotated, hring]
    exact ⟨hslot₀.trans (if_neg fun hc => hrot hc.1), by rw [hemitted, if_neg hrot, Nat.add_zero],
      (downStep_out h).trans (if_neg hrot)⟩
  · have hrot : rotated p.phase p'.phase = true := by simp [rotated, hring]
    exact ⟨hslot₀.trans (if_pos ⟨hrot, rfl⟩), by rw [hemitted, if_pos hrot], (downStep_out h).trans (if_pos hrot)⟩

/-! ### The pending sums -/

/-- A source sample adds nothing to an output that is finished or that no tap has reached (rules R153, R155). -/
theorem downPending_succ_of_no_tap {s : State} {c n i : Nat}
    (h : n < periodsPassed s.phase s.deltaDown i ∨ periodsPassed s.phase s.deltaDown i + 8 ≤ n) :
    downPending s c n (i + 1) = downPending s c n i := dif_neg (by omega)

/-- An output that no tap has reached is still `ZERO` (rule R155). -/
theorem downPending_of_ahead {s : State} {c n : Nat} (hn : 8 ≤ n) : ∀ {i : Nat},
    periodsPassed s.phase s.deltaDown i + 8 ≤ n → downPending s c n i = zeroSample := by
  intro i
  induction i with
  | zero => intro _; exact if_neg (by omega)
  | succ i ih =>
    intro h
    have hle : periodsPassed s.phase s.deltaDown i + 8 ≤ n := by
      have := periodsPassed_mono s.phase s.deltaDown (Nat.le_add_right i 1)
      omega
    rw [downPending_succ_of_no_tap (.inr hle), ih hle]

/-! ### `DOWN16` as the transposed filter -/

theorem emittedAfter_of_small {p d : U32} (hd : d.toNat ≤ 2 ^ 25) (n : Nat) : emittedAfter p d n = periodsPassed p d n :=
  if_pos hd

/-- Up to `d = 2^25` an addition passes one period when it rotates the ring, else none (rules R155, R193). -/
theorem periodsPassed_succ_of_small {p d : U32} (hd : d.toNat ≤ 2 ^ 25) (n : Nat) :
    periodsPassed p d (n + 1) =
      periodsPassed p d n + if rotated (phaseAfter p d n) (phaseAfter p d (n + 1)) = true then 1 else 0 := by
  rw [← emittedAfter_of_small hd, ← emittedAfter_of_small hd, emittedAfter_succ (by omega), phaseAfter_succ]

/-- Up to `d = 2^25` the consumption formula passes exactly the sixteen periods of a block (rule R157). -/
theorem periodsPassed_downConsumption {p d : U32} (hd : 1 ≤ d.toNat) (hd' : d.toNat ≤ 2 ^ 25) :
    periodsPassed p d (downConsumption p d) = 16 := by
  have hiff := emittedAfter_lt_iff (p := p) hd
  simp only [emittedAfter_of_small hd'] at hiff
  have hfirst := (hiff 0).1 (by rw [periodsPassed_zero]; decide)
  have hbefore := (hiff (downConsumption p d - 1)).2 (by omega)
  have hdone := (hiff (downConsumption p d)).not.2 (Nat.lt_irrefl _)
  have hstep := periodsPassed_succ_le (k := 1) (p := p) (by omega) (downConsumption p d - 1)
  rw [Nat.sub_add_cancel hfirst] at hstep
  omega

/-- Eight slots on is the same slot (rule R192). -/
theorem ofNat_add_eight (n : Nat) : BitVec.ofNat 3 (n + 8) = BitVec.ofNat 3 n :=
  BitVec.eq_of_toNat_eq (by simp)

section Filter

variable {s : State} {c : Nat} {b : Buffer}

/-- Counted from the index at entry, `RING` names the slot of the first unfinished output (rules R153, R155). -/
theorem downSteps_tapSlot {m : Nat} {p : DownPass} (h : downSteps s b m (downStart s c b) = .ok p) (k : Fin 8) :
    tapSlot (ringOf p.phase) k = ringOf s.phase + BitVec.ofNat 3 (periodsPassed s.phase s.deltaDown m + k.val) := by
  obtain ⟨hphase, -⟩ := downSteps_phase h
  rw [hphase, downStart_phase, tapSlot, ringOf_phaseAfter, BitVec.add_assoc, BitVec.ofNat_add]

/-- Before source sample number `m` the slots hold the pending sums of the first eight unfinished outputs. -/
def HoldsPending (s : State) (c m : Nat) (acc : Slots) : Prop :=
  ∀ n, periodsPassed s.phase s.deltaDown m ≤ n → n < periodsPassed s.phase s.deltaDown m + 8 →
    slotGet acc (ringOf s.phase + BitVec.ofNat 3 n) = downPending s c n m

/-- Where the slots hold the pending sums, tap `k` makes the next pending sum of its output (rules R152, R153). -/
theorem downTapSum_eq_downPending {m : Nat} {q : DownPass} (hq : downSteps s b m (downStart s c b) = .ok q)
    (hacc : HoldsPending s c m q.accum) (k : Fin 8) :
    downTapSum s q k = downPending s c (periodsPassed s.phase s.deltaDown m + k.val) (m + 1) := by
  obtain ⟨hphase, hdraws, hcursor, -⟩ := downSteps_phase hq
  have htap : periodsPassed s.phase s.deltaDown m + k.val - periodsPassed s.phase s.deltaDown m = k.val := by omega
  rw [downPending, downContribution, dif_pos ⟨by omega, by omega⟩, downTapSum, tapResult, downSteps_tapSlot hq,
    hacc _ (by omega) (by omega), hphase, hdraws, hcursor]
  simp only [htap, downStart_phase, downStart_draws, downStart_cursor]

/-- A source sample finishes an output when it rotates the ring, else none (rule R155). -/
theorem downStep_passed (hd : s.deltaDown.toNat ≤ 2 ^ 25) {m : Nat} {q p : DownPass}
    (hq : downSteps s b m (downStart s c b) = .ok q) (h : downStep s b q = .ok p) :
    periodsPassed s.phase s.deltaDown (m + 1) =
      periodsPassed s.phase s.deltaDown m + if rotated q.phase p.phase = true then 1 else 0 := by
  obtain ⟨hqphase, -⟩ := downSteps_phase hq
  obtain ⟨hpphase, -⟩ := downSteps_phase (downSteps_succ_eq_ok.2 ⟨q, hq, h⟩)
  rw [periodsPassed_succ_of_small hd, hpphase, hqphase, downStart_phase]

/-- One source sample keeps the slots at the pending sums: tap `k` makes the next sum of its output, and a rotation clears
the slot of the output it finishes for the output eight later (rules R153, R155). -/
theorem downStep_holdsPending (hd : s.deltaDown.toNat ≤ 2 ^ 25) {m : Nat} {q p : DownPass}
    (hq : downSteps s b m (downStart s c b) = .ok q) (hacc : HoldsPending s c m q.accum) (h : downStep s b q = .ok p) :
    HoldsPending s c (m + 1) p.accum := by
  intro n hle hlt
  have hpassed := downStep_passed hd hq h
  by_cases hn : n < periodsPassed s.phase s.deltaDown m + 8
  · obtain ⟨k, rfl⟩ : ∃ k : Fin 8, n = periodsPassed s.phase s.deltaDown m + k.val :=
      ⟨⟨n - periodsPassed s.phase s.deltaDown m, by omega⟩, by simp only; omega⟩
    have hkept : ¬ (rotated q.phase p.phase = true ∧ k = 0) := by
      rintro ⟨hrot, rfl⟩
      rw [if_pos hrot] at hpassed
      simp only [Fin.val_zero] at hle
      omega
    rw [← downSteps_tapSlot hq, downStep_slot h, if_neg hkept, downTapSum_eq_downPending hq hacc]
  · have hrot : rotated q.phase p.phase = true := by
      by_contra hrot
      rw [if_neg hrot] at hpassed
      omega
    rw [if_pos hrot] at hpassed
    obtain rfl : n = periodsPassed s.phase s.deltaDown m + 8 := by omega
    have hslot : tapSlot (ringOf q.phase) 0 =
        ringOf s.phase + BitVec.ofNat 3 (periodsPassed s.phase s.deltaDown m + 8) := by
      rw [downSteps_tapSlot hq, ofNat_add_eight]
      rfl
    rw [← hslot, downStep_slot h, if_pos ⟨hrot, rfl⟩, downPending_succ_of_no_tap (.inr le_rfl),
      downPending_of_ahead (by omega) le_rfl]

theorem downSteps_holdsPending (hd : s.deltaDown.toNat ≤ 2 ^ 25) : ∀ {m : Nat} {p : DownPass},
    downSteps s b m (downStart s c b) = .ok p → HoldsPending s c m p.accum := by
  intro m
  induction m with
  | zero =>
    intro p h n _ hn
    cases h
    rw [periodsPassed_zero] at hn
    rw [downPending, if_pos (by omega)]
    rfl
  | succ m ih =>
    intro p h
    obtain ⟨q, hq, h⟩ := downSteps_succ_eq_ok.1 h
    exact downStep_holdsPending hd hq (ih hq) h

/-- A finished output is written as its pending sum (rules R153 to R155). -/
theorem downSteps_out (hd : s.deltaDown.toNat ≤ 2 ^ 25) : ∀ {m : Nat} {p : DownPass},
    downSteps s b m (downStart s c b) = .ok p →
    ∀ (n : Nat) (hn : n < 16), n < periodsPassed s.phase s.deltaDown m → p.out[n] = downPending s c n m := by
  intro m
  induction m with
  | zero => intro p _ n _ hfin; rw [periodsPassed_zero] at hfin; exact absurd hfin n.not_lt_zero
  | succ m ih =>
    intro p h n hn hfin
    obtain ⟨q, hq, h⟩ := downSteps_succ_eq_ok.1 h
    rw [downStep_passed hd hq h] at hfin
    have hemitted := downSteps_emitted (by omega) hq
    rw [emittedAfter_of_small hd] at hemitted
    have hold : n < periodsPassed s.phase s.deltaDown m → q.out[n] = downPending s c n (m + 1) := fun h =>
      (ih hq n hn h).trans (downPending_succ_of_no_tap (.inl h)).symm
    by_cases hrot : rotated q.phase p.phase = true
    · rw [if_pos hrot] at hfin
      simp only [downStep_out h, if_pos hrot, Vector.getElem_setIfInBounds, hemitted]
      split
      · next heq =>
        rw [downTapSum_eq_downPending hq (downSteps_holdsPending hd hq) 0]
        exact congrArg (downPending s c · (m + 1)) heq
      · next hne => exact hold (by omega)
    · rw [if_neg hrot] at hfin
      simp only [downStep_out h, if_neg hrot]
      exact hold hfin

end Filter

/-- Settles O31: the slots hold the pending sums after every source sample, so each output is emitted as its pending sum, and
the consumption formula passes exactly sixteen periods. -/
theorem down16IsTheTransposedFilter : Obligations.Down16IsTheTransposedFilter := by
  unfold Obligations.Down16IsTheTransposedFilter
  intro s t c hd hd' h
  obtain ⟨c', u, hrun, rfl⟩ := answer_eq_next.1 h
  obtain ⟨-, p, hloop, -, rfl⟩ := runDown_eq_ok.1 hrun
  have hp := downLoop_consumption hd (by omega) hloop
  have hpassed := periodsPassed_downConsumption (p := s.phase) hd hd'
  refine ⟨fun n hn => downSteps_out hd' hp n hn (by omega), fun k hk => ?_⟩
  have hslot := downSteps_tapSlot hp ⟨k, hk⟩
  rw [hpassed] at hslot
  exact (congrArg (slotGet p.accum) hslot).trans (downSteps_holdsPending hd' hp _ (by omega) (by omega))

end Sys2Proof.Machine

namespace Sys2Proof.Machine

/-! ### The mode after each command -/

/-- A completed ratio operand leaves the mode that the check on the new deltas gives (rules R111, R161). -/
theorem applyRatio_mode {q : Sample} {s t : State} (h : applyRatio q s = .next t) :
    t.mode = modeCheck s.mode t.deltaUp t.deltaDown := by
  obtain ⟨-, rfl⟩ := applyRatio_eq_next.1 h
  rfl

/-- The rows of rule R161 for the mode check, by the mode before. -/
theorem modeCheck_table (m : Mode) (dUp dDown : U32) :
    (m = .up → modeCheck m dUp dDown = if dUp.toNat > 2 ^ 25 then .up2down else .up) ∧
    (m = .down → modeCheck m dUp dDown = if dDown.toNat > 2 ^ 25 then .down2up else .down) ∧
    (m = .up2down → modeCheck m dUp dDown = .up2down) ∧
    (m = .down2up → modeCheck m dUp dDown = .down2up) := by
  refine ⟨?_, ?_, ?_, ?_⟩ <;> rintro rfl <;> simp only [modeCheck, gt_one_iff]

/-- The rows of rule R161 for `PROCESS16`: it keeps a steady mode and ends a pending transition. -/
theorem process16_mode {s t : State} {w arg : Nat}
    (h : exec (decodeCommand w (dispatchWord 0b011#3 s.mode) arg) s = .next t) :
    (s.mode = .up → t.mode = .up) ∧ (s.mode = .down → t.mode = .down) ∧
    (s.mode = .up2down → t.mode = .down) ∧ (s.mode = .down2up → t.mode = .up) := by
  refine ⟨fun hm => ?_, fun hm => ?_, fun hm => ?_, fun hm => ?_⟩ <;> rw [hm] at h
  · exact (execUp16_keeps h).1.trans hm
  · exact (execDown16_keeps h).1.trans hm
  · exact execUp2down16_mode h
  · exact execDown2up16_mode h

/-- Settles O10: by the host's next input; a command by its code, of which only the four that are not reserved complete. -/
theorem modeFollowsTheTransitionTable : Obligations.ModeFollowsTheTransitionTable := by
  unfold Obligations.ModeFollowsTheTransitionTable
  intro s t h
  refine ⟨fun cmd arg rest hi => ?_, fun hno => ?_⟩
  · rw [step_command hi] at h
    refine ⟨?_, fun hcmd => ?_, ?_, ?_⟩
    · rintro rfl
      rw [dispatchWord, decodeCommand_reset] at h
      cases h
      rfl
    · obtain ⟨q, hq⟩ : ∃ q, applyRatio q (acceptCommand rest s) = .next t := by
        rcases hcmd with rfl | rfl
        · rw [dispatchWord, decodeCommand_setRatio] at h
          exact ⟨_, h⟩
        · rw [dispatchWord, decodeCommand_transpose] at h
          exact ⟨_, (execTranspose_eq_next.1 h).2⟩
      rw [applyRatio_mode hq]
      exact modeCheck_table s.mode t.deltaUp t.deltaDown
    · rintro rfl
      exact process16_mode (s := acceptCommand rest s) h
    · by_contra hcode
      obtain ⟨cc, rfl⟩ := (four_le_toNat_iff cmd).1 (Nat.le_of_not_lt hcode)
      rw [dispatchWord, decodeCommand_reserved] at h
      cases h
  · cases hi : s.inputs with
    | nil => rw [step_idle hi] at h; cases h; rfl
    | cons i rest =>
      cases i with
      | command cmd arg => exact absurd hi (hno cmd arg rest)
      | writeSource c v => rw [step_writeSource hi] at h; cases h; rfl
      | setValid ws => rw [step_setValid hi] at h; cases h; rfl

/-! ### What a transition block consumes -/

/-- What a completed `UP2DOWN16` returns and leaves in `phase` is what its down pass does from the complemented phase
(rules R164, R169, R173). -/
theorem runUp2down_cursor_phase {s t : State} {c c' : Nat} {p : U32} (hd : 1 ≤ s.deltaDown.toNat)
    (hd' : s.deltaDown.toNat ≤ 7 * 2 ^ 25) (hp : p = ~~~(s.phase + 16#32 * s.deltaUp))
    (h : runUp2down c s = .ok (c', t)) :
    c' = c + downConsumption p s.deltaDown ∧ t.phase = phaseAfter p s.deltaDown (downConsumption p s.deltaDown) := by
  obtain ⟨_, u, v, hu, hv, rfl⟩ := runUp2down_eq_ok.1 h
  have hdelta := landDown_deltaDown_of_runUp hu
  have hphase : (clearOutputAccum (setMode .down (complementPhase u))).phase = p := by simp [runUp_phase hu, hp]
  have hpass := runDown_cursor_phase (by rwa [hdelta]) (by rwa [hdelta]) hv
  rwa [hdelta, hphase, ← blend_phase v] at hpass

/-- `DOWN2UP16` likewise, by its up pass (rules R165, R169, R173). -/
theorem runDown2up_cursor_phase {s t : State} {c c' : Nat} {p : U32} (hup : s.deltaUp.toNat ≤ 7 * 2 ^ 25)
    (hd : 1 ≤ s.deltaDown.toNat) (hd' : s.deltaDown.toNat ≤ 7 * 2 ^ 25)
    (hp : p = ~~~phaseAfter s.phase s.deltaDown (downConsumption s.phase s.deltaDown))
    (h : runDown2up c s = .ok (c', t)) :
    c' = c + upConsumption p s.deltaUp ∧ t.phase = p + 16#32 * s.deltaUp := by
  obtain ⟨_, u, v, hu, hv, rfl⟩ := runDown2up_eq_ok.1 h
  have hdelta := ((RatioRegistersKept.of_runDown hu).trans (.of_landUp u)).deltaUp
  have hphase : (clearInputRing (setMode .up (complementPhase u))).phase = p := by
    simp [(runDown_cursor_phase hd hd' hu).2, hp]
  have hpass := And.intro (runUp_cursor (by rwa [hdelta]) hv) (runUp_phase hv)
  rwa [hdelta, hphase, ← blend_phase v] at hpass

/-- Settles O46: both stretches are readable, so the block completes, and its down pass gives the cursor and the phase. -/
theorem up2Down16CompletesAndConsumes : Obligations.Up2Down16CompletesAndConsumes := by
  unfold Obligations.Up2Down16CompletesAndConsumes
  intro s c p hup hd hd' hp hw₁ hw₂
  obtain ⟨⟨c', u⟩, hrun⟩ := (runUp2down_completes_iff hup hd hd' hp).2 ⟨hw₁, hw₂⟩
  obtain ⟨hcursor, hphase⟩ := runUp2down_cursor_phase hd hd' hp hrun
  have hexec : exec (.up2down16 c) s = .next (respond c' u) := answer_eq_next.2 ⟨c', u, hrun, rfl⟩
  refine ⟨_, hexec, execUp2down16_mode hexec, ?_, hphase⟩
  rw [respond_response, hcursor, (HostSideKept.of_runUp2down hrun).cursorW]
  rfl

/-- Settles O47: both stretches are readable, so the block completes, and its up pass gives the cursor and the phase. -/
theorem down2Up16CompletesAndConsumes : Obligations.Down2Up16CompletesAndConsumes := by
  unfold Obligations.Down2Up16CompletesAndConsumes
  intro s c p hup hd hd' hp hw₁ hw₂
  obtain ⟨⟨c', u⟩, hrun⟩ := (runDown2up_completes_iff hup hd hd' hp).2 ⟨hw₁, hw₂⟩
  obtain ⟨hcursor, hphase⟩ := runDown2up_cursor_phase hup hd hd' hp hrun
  have hexec : exec (.down2up16 c) s = .next (respond c' u) := answer_eq_next.2 ⟨c', u, hrun, rfl⟩
  refine ⟨_, hexec, execDown2up16_mode hexec, ?_, hphase⟩
  rw [respond_response, hcursor, (HostSideKept.of_runDown2up hrun).cursorW]
  rfl

/-! ### The inversion of the phase -/

/-- Settles O50: `2^32 − 1` minus a number complements its quotients and remainders by powers of two. -/
theorem phaseInversionComplementsTheFields : Obligations.PhaseInversionComplementsTheFields := by
  unfold Obligations.PhaseInversionComplementsTheFields
  intro s
  have hlt := s.phase.isLt
  have hnot : (complementPhase s).phase.toNat = 2 ^ 32 - 1 - s.phase.toNat := BitVec.toNat_not
  refine ⟨hnot, ?_, ?_, ?_, ?_, BitVec.not_not⟩
  · rw [fracOf_toNat, fracOf_toNat, hnot]
    omega
  · rw [tabOf_toNat, tabOf_toNat, hnot]
    omega
  · rw [ringOf_toNat, ringOf_toNat, hnot]
    omega
  · rw [carryOf_toNat, carryOf_toNat, hnot]
    omega

/-! ### A pass into `TMP` and the same pass into `DST` -/

/-- A pass that completes has a partner that completes with a related result. -/
theorem EndAlike.exists_ok {α β : Type} {R : α → β → Prop} {x : Except Fault α} {y : Except Fault β} {a : α}
    (h : EndAlike R x y) (hx : x = .ok a) : ∃ b, y = .ok b ∧ R a b := by
  cases h with
  | @ok _ b hab => cases hx; exact ⟨b, rfl, hab⟩
  | error f => cases hx

theorem EndAlike.refl {α : Type} : ∀ x : Except Fault α, EndAlike (· = ·) x x
  | .ok _ => .ok rfl
  | .error f => .error f

/-- Two up passes that differ at most in what they have recorded. -/
def UpSameButRecord (p q : UpPass) : Prop := ∃ l, q = { p with accesses := l }

/-- Two down passes that differ at most in what they have recorded. -/
def DownSameButRecord (p q : DownPass) : Prop := ∃ l, q = { p with accesses := l }

theorem UpSameButRecord.refl (p : UpPass) : UpSameButRecord p p := ⟨p.accesses, rfl⟩

theorem DownSameButRecord.refl (p : DownPass) : DownSameButRecord p p := ⟨p.accesses, rfl⟩

section Record

variable (s : State) (b b' : Buffer)

theorem pull_sameButRecord : ∀ (n : Nat) (r : RingIx) {p q : UpPass}, UpSameButRecord p q →
    EndAlike UpSameButRecord (pull s n r p) (pull s n r q)
  | 0, _, _, _, h => .ok h
  | n + 1, r, p, _, ⟨_, rfl⟩ => (EndAlike.refl (readSource s p.cursor)).bind fun _ _ hx => by
      subst hx
      exact pull_sameButRecord n (r + 1#3) ⟨_, rfl⟩

/-- Which buffer an output sample of `UP16` is written to shows in the record alone (rule R140). -/
theorem upStep_sameButRecord (n : Nat) {p q : UpPass} (h : UpSameButRecord p q) :
    EndAlike UpSameButRecord (upStep s b n p) (upStep s b' n q) := by
  obtain ⟨l, rfl⟩ := h
  refine (pull_sameButRecord s _ _ ⟨l, rfl⟩).bind fun p' q' hpq => ?_
  obtain ⟨_, rfl⟩ := hpq
  exact .ok ⟨_, rfl⟩

theorem upSteps_sameButRecord : ∀ (n : Nat) {p q : UpPass}, UpSameButRecord p q →
    EndAlike UpSameButRecord (upSteps s b n p) (upSteps s b' n q)
  | 0, _, _, h => .ok h
  | n + 1, _, _, h => (upSteps_sameButRecord n h).bind fun _ _ => upStep_sameButRecord s b b' n

/-- Which buffer an output of `DOWN16` is written to shows in the record alone (rule R150). -/
theorem downStep_sameButRecord {p q : DownPass} (h : DownSameButRecord p q) :
    EndAlike DownSameButRecord (downStep s b p) (downStep s b' q) := by
  obtain ⟨l, rfl⟩ := h
  refine (EndAlike.refl (readSource s p.cursor)).bind fun x y hx => ?_
  subst hx
  dsimp only
  split
  · exact .ok ⟨_, rfl⟩
  · exact .ok ⟨_, rfl⟩

end Record

/-- A pass into `TMP` has left `w` where the same pass into `DST` has left `v`. -/
structure SamePass (w v : State) : Prop where
  phase : w.phase = v.phase
  inputRing : w.inputRing = v.inputRing
  outputAccum : w.outputAccum = v.outputAccum
  draws : w.draws = v.draws
  cursorW : w.cursorW = v.cursorW
  block : w.tmp = v.dst

section OtherBuffer

variable {s s' w : State} {c c' : Nat}

/-- An up pass into `TMP` can be run into `DST`, from any state that is the same to the engine (rule R140). -/
theorem runUp_dst_of_runUp_tmp (hs : SameForEngines s s') (h : runUp c .tmp s = .ok (c', w)) :
    ∃ v, runUp c .dst s' = .ok (c', v) ∧ SamePass w v := by
  obtain ⟨p, hp, rfl, rfl⟩ := runUp_eq_ok.1 h
  obtain ⟨_, hq, l, rfl⟩ := (upSteps_sameButRecord s .tmp .dst 16 (.refl _)).exists_ok hp
  have hstart : UpSameBelow 0 (upStart s c .tmp) (upStart s' c .dst) :=
    ⟨hs.phase, hs.inputRing, rfl, hs.draws, hs.accesses, fun _ _ h => absurd h (Nat.not_lt_zero _)⟩
  obtain ⟨q, hq', hsame⟩ := (upSteps_sameBelow hs 16 hstart).exists_ok hq
  obtain rfl := hsame.eq
  exact ⟨_, runUp_eq_ok.2 ⟨_, hq', rfl, rfl⟩, rfl, rfl, hs.outputAccum.symm, rfl, hs.cursorW.symm, rfl⟩

/-- A down pass into `TMP` likewise (rule R150). -/
theorem runDown_dst_of_runDown_tmp (hs : SameForEngines s s') (h : runDown c .tmp s = .ok (c', w)) :
    ∃ v, runDown c .dst s' = .ok (c', v) ∧ SamePass w v := by
  obtain ⟨hrot, p, hp, rfl, rfl⟩ := runDown_eq_ok.1 h
  have hrecord := downLoop_endAlike (fun _ _ ⟨_, hq⟩ => by rw [hq]) (fun _ _ => downStep_sameButRecord s .tmp .dst)
    downFuel (.refl (downStart s c .tmp))
  obtain ⟨_, hq, l, rfl⟩ := hrecord.exists_ok hp
  have hstart : DownSameBelow (downStart s c .tmp) (downStart s' c .dst) :=
    ⟨hs.phase, hs.outputAccum, rfl, rfl, hs.draws, hs.accesses, fun _ _ h => absurd h (Nat.not_lt_zero _)⟩
  have hbelow := downLoop_endAlike (fun _ _ h => h.emitted) (fun _ _ => downStep_sameBelow (b := .dst) hs) downFuel hstart
  obtain ⟨q, hq', hsame⟩ := hbelow.exists_ok hq
  have hfull : p.emitted = 16 := downLoop_emitted hp
  obtain rfl := hsame.eq hfull
  exact ⟨_, runDown_eq_ok.2 ⟨by rwa [hs.deltaDown], _, hq', rfl, rfl⟩, rfl, hs.inputRing.symm, rfl, rfl, hs.cursorW.symm,
    rfl⟩

/-- An up pass into `TMP` leaves the old engine's block and the pending sums (rules R36, R140). -/
theorem runUp_tmp_keeps (h : runUp c .tmp s = .ok (c', w)) : w.dst = s.dst ∧ w.outputAccum = s.outputAccum := by
  obtain ⟨p, -, -, rfl⟩ := runUp_eq_ok.1 h
  exact ⟨rfl, rfl⟩

/-- A down pass into `TMP` leaves the old engine's block and the recent samples (rules R36, R150). -/
theorem runDown_tmp_keeps (h : runDown c .tmp s = .ok (c', w)) : w.dst = s.dst ∧ w.inputRing = s.inputRing := by
  obtain ⟨-, p, -, -, rfl⟩ := runDown_eq_ok.1 h
  exact ⟨rfl, rfl⟩

end OtherBuffer

/-! ### The two blocks that a transition blends -/

/-- From the state the old engine has left, the new one of `UP2DOWN16` runs as `DOWN16` would, were its phase complemented and
the pending sums cleared (rules R164, R166, R167). -/
theorem sameForEngines_landDown (c : Nat) (u : State) :
    SameForEngines (clearOutputAccum (setMode .down (complementPhase u)))
      { respond c u with phase := ~~~u.phase, mode := .down, outputAccum := zeroSlots } :=
  ⟨rfl, rfl, rfl, rfl, rfl, rfl, rfl, rfl, rfl, rfl, rfl, rfl⟩

/-- From the state the old engine has left, the new one of `DOWN2UP16` runs as `UP16` would, were its phase complemented and
the recent samples cleared (rules R165, R166, R167). -/
theorem sameForEngines_landUp (c : Nat) (u : State) :
    SameForEngines (clearInputRing (setMode .up (complementPhase u)))
      { respond c u with phase := ~~~u.phase, mode := .up, inputRing := zeroSlots } :=
  ⟨rfl, rfl, rfl, rfl, rfl, rfl, rfl, rfl, rfl, rfl, rfl, rfl⟩

/-- The blend of an old block with the block a pass has left, slot by slot (rule R168). -/
theorem blend_dst_slots {u v w : State} (hold : w.dst = u.dst) (hpass : SamePass w v) :
    (∀ (n : Nat) (h : n < 8), (blend w).dst[n] = u.dst[n]) ∧
    ∀ j : Fin 8, (blend w).dst[8 + j.val] =
      interpolate (v.draws + 3 * j.val) (blendWeight j) u.dst[8 + j.val] v.dst[8 + j.val] := by
  simp only [blend_dst, hold, hpass.draws, hpass.block]
  exact ⟨blendBlock_keep _ _ _, blendBlock_fade _ _ _⟩

/-- Settles O48: the second pass writes to `TMP` what it would write to `DST`, and the blend weighs it against the block of
the first. -/
theorem transitionBlendsOldAndNew : Obligations.TransitionBlendsOldAndNew := by
  unfold Obligations.TransitionBlendsOldAndNew
  intro s t c
  constructor
  · intro h
    obtain ⟨c', _, hrun, rfl⟩ := answer_eq_next.1 h
    obtain ⟨c₁, u, w, hu, hw, rfl⟩ := runUp2down_eq_ok.1 hrun
    obtain ⟨hold, hring⟩ := runDown_tmp_keeps hw
    obtain ⟨v, hv, hpass⟩ := runDown_dst_of_runDown_tmp (sameForEngines_landDown c₁ u) hw
    refine ⟨respond c₁ u, respond c' v, answer_eq_next.2 ⟨_, _, hu, rfl⟩, answer_eq_next.2 ⟨_, _, hv, rfl⟩, ?_, ?_, ?_, ?_,
      ?_, ?_⟩
    · simp [hring]
    · simp [hpass.outputAccum]
    · simp [hpass.phase]
    · simp [hpass.cursorW]
    · simp [hpass.block]
    · simp only [respond_dst, respond_draws]
      exact blend_dst_slots hold hpass
  · intro h
    obtain ⟨c', _, hrun, rfl⟩ := answer_eq_next.1 h
    obtain ⟨c₁, u, w, hu, hw, rfl⟩ := runDown2up_eq_ok.1 hrun
    obtain ⟨hold, haccum⟩ := runUp_tmp_keeps hw
    obtain ⟨v, hv, hpass⟩ := runUp_dst_of_runUp_tmp (sameForEngines_landUp c₁ u) hw
    refine ⟨respond c₁ u, respond c' v, answer_eq_next.2 ⟨_, _, hu, rfl⟩, answer_eq_next.2 ⟨_, _, hv, rfl⟩, ?_, ?_, ?_, ?_,
      ?_, ?_⟩
    · simp [haccum]
    · simp [hpass.inputRing]
    · simp [hpass.phase]
    · simp [hpass.cursorW]
    · simp [hpass.block]
    · simp only [respond_dst, respond_draws]
      exact blend_dst_slots hold hpass

end Sys2Proof.Machine

namespace Sys2Proof.Machine

/-! ### What a block operation finds in `DST` does not matter -/

section Dst

/-- Replacing `DST` is nothing to an engine. -/
theorem sameForEngines_dst (s : State) (v : Block) : SameForEngines s { s with dst := v } :=
  ⟨rfl, rfl, rfl, rfl, rfl, rfl, rfl, rfl, rfl, rfl, rfl, rfl⟩

variable (s : State) (c : Nat) (v : Block)

/-- An up pass into `DST` overwrites it in full (rules R140, R182). -/
theorem runUp_dst_of_dst : runUp c .dst { s with dst := v } = runUp c .dst s := by
  unfold runUp
  rw [upSteps_eq_of_sameForEngines (sameForEngines_dst s v)]
  rfl

/-- A down pass into `DST` overwrites it in full (rules R150, R182). -/
theorem runDown_dst_of_dst : runDown c .dst { s with dst := v } = runDown c .dst s := by
  unfold runDown
  rw [downLoop_eq_of_sameForEngines (sameForEngines_dst s v)]
  rfl

/-- The old engine, which runs first, overwrites `DST` (rules R164, R182). -/
theorem runUp2down_of_dst : runUp2down c { s with dst := v } = runUp2down c s := by
  rw [runUp2down, runUp_dst_of_dst, runUp2down]

/-- The old engine, which runs first, overwrites `DST` (rules R165, R182). -/
theorem runDown2up_of_dst : runDown2up c { s with dst := v } = runDown2up c s := by
  rw [runDown2up, runDown_dst_of_dst, runDown2up]

end Dst

/-- Settles O38: each of the four operations begins with a pass into `DST`, which overwrites all of it. -/
theorem oldBufferContentsDoNotMatter : Obligations.OldBufferContentsDoNotMatter := by
  unfold Obligations.OldBufferContentsDoNotMatter
  rintro s c i v (rfl | rfl | rfl | rfl)
  · rw [exec_up16, exec_up16, runUp_dst_of_dst]
  · rw [exec_down16, exec_down16, runDown_dst_of_dst]
  · rw [exec_up2down16, exec_up2down16, runUp2down_of_dst]
  · rw [exec_down2up16, exec_down2up16, runDown2up_of_dst]

end Sys2Proof.Machine

namespace Sys2Proof.Machine

/-! ### The classes of a pattern and its parts -/

theorem isNaN_iff (x : Sample) : isNaN x = true ↔ 0x7F800000 < x.toNat % 2 ^ 31 := by
  rw [isNaN, Bool.and_eq_true, beq_iff_eq, bne_iff_ne, Ne, ← BitVec.toNat_inj, ← BitVec.toNat_inj, expField_toNat,
    fractionField_toNat]
  simp only [BitVec.toNat_ofNat]
  omega

theorem isNaN_eq_false_iff (x : Sample) : isNaN x = false ↔ x.toNat % 2 ^ 31 ≤ 0x7F800000 := by
  rw [← Bool.not_eq_true, isNaN_iff, not_lt]

theorem isZero_iff (x : Sample) : isZero x = true ↔ x.toNat % 2 ^ 31 = 0 := by
  rw [isZero_iff_magUnits, magUnits_eq_patternUnits, patternUnits_eq_zero_iff]

/-- A pattern is its sign and its magnitude (rule R197). -/
theorem sample_ext {x y : Sample} (hsign : signBit x = signBit y) (hmag : x.toNat % 2 ^ 31 = y.toNat % 2 ^ 31) : x = y := by
  have hiff : 2 ^ 31 ≤ x.toNat ↔ 2 ^ 31 ≤ y.toNat := by rw [← signBit_eq_true_iff, ← signBit_eq_true_iff, hsign]
  have := x.isLt
  have := y.isLt
  exact BitVec.eq_of_toNat_eq (by omega)

/-- The two infinities (rule R197). -/
theorem eq_of_isInf {a : Sample} (ha : isInf a = true) : a = if signBit a then 0xFF800000#32 else 0x7F800000#32 := by
  rw [isInf_iff] at ha
  cases hsign : signBit a with
  | true => exact sample_ext hsign ha
  | false => exact sample_ext hsign ha

theorem isNaN_of_isInf {a : Sample} (ha : isInf a = true) : isNaN a = false :=
  (isNaN_eq_false_iff a).2 ((isInf_iff a).1 ha).le

theorem isZero_of_isInf {a : Sample} (ha : isInf a = true) : isZero a = false := by
  rw [← Bool.not_eq_true, isZero_iff, (isInf_iff a).1 ha]
  decide

theorem isInf_of_isFinite {a : Sample} (ha : isFinite a = true) : isInf a = false := ((finite_iff a).1 ha).2

theorem isNaN_of_isFinite {a : Sample} (ha : isFinite a = true) : isNaN a = false := ((finite_iff a).1 ha).1

/-- What is no NaN is an infinity or finite. -/
theorem isInf_or_isFinite {a : Sample} (ha : isNaN a = false) : isInf a = true ∨ isFinite a = true := by
  cases hinf : isInf a with
  | true => exact .inl rfl
  | false => exact .inr ((finite_iff a).2 ⟨ha, hinf⟩)

theorem natAbs_sampleUnits (x : Sample) : (sampleUnits x).natAbs = magUnits x := by
  unfold sampleUnits
  split <;> omega

/-! ### The sample with its sign changed -/

@[simp] theorem signBit_negSample (x : Sample) : signBit (negSample x) = !signBit x := by
  rw [signBit, negSample, BitVec.msb_xor, show (0x80000000#32).msb = true by decide, Bool.xor_true, signBit]

@[simp] theorem negSample_toNat_mod (x : Sample) : (negSample x).toNat % 2 ^ 31 = x.toNat % 2 ^ 31 := by
  have h : (negSample x).setWidth 31 = x.setWidth 31 := by simp [negSample, BitVec.setWidth_xor]
  simpa using congrArg BitVec.toNat h

@[simp] theorem isNaN_negSample (x : Sample) : isNaN (negSample x) = isNaN x := by
  rw [Bool.eq_iff_iff, isNaN_iff, isNaN_iff, negSample_toNat_mod]

@[simp] theorem isInf_negSample (x : Sample) : isInf (negSample x) = isInf x := by
  rw [Bool.eq_iff_iff, isInf_iff, isInf_iff, negSample_toNat_mod]

@[simp] theorem isFinite_negSample (x : Sample) : isFinite (negSample x) = isFinite x := by
  rw [Bool.eq_iff_iff, isFinite_iff, isFinite_iff, negSample_toNat_mod]

@[simp] theorem isZero_negSample (x : Sample) : isZero (negSample x) = isZero x := by
  rw [Bool.eq_iff_iff, isZero_iff, isZero_iff, negSample_toNat_mod]

@[simp] theorem magUnits_negSample (x : Sample) : magUnits (negSample x) = magUnits x := by
  rw [magUnits_eq_patternUnits, magUnits_eq_patternUnits, negSample_toNat_mod]

@[simp] theorem sampleUnits_negSample (x : Sample) : sampleUnits (negSample x) = -sampleUnits x := by
  unfold sampleUnits
  cases hx : signBit x <;> simp [hx]

@[simp] theorem negSample_negSample (x : Sample) : negSample (negSample x) = x := by
  simp [negSample]

/-- Changing the sign reverses the order of the values (rule R209). -/
theorem orderKey_negSample (x : Sample) : Config.orderKey (negSample x) = 2 ^ 32 - Config.orderKey x := by
  rw [orderKey_eq, orderKey_eq, signBit_negSample, negSample_toNat_mod]
  cases signBit x <;> simp <;> omega

theorem sampleValue_negSample (x : Sample) : sampleValue (negSample x) = -sampleValue x := by
  rw [sampleValue_eq_sampleUnits, sampleValue_eq_sampleUnits, sampleUnits_negSample, Int.cast_neg, neg_div]

/-! ### Rounding: exact on what is representable, monotone, of either sign -/

/-- The pattern of a magnitude that some pattern has is that pattern (rules R205, R209). -/
theorem roundMagnitude_of_exact {num den k : Nat} (hden : 0 < den) (h : num * 2 ^ 149 = patternUnits k * den) :
    roundMagnitude num den = min k 0x7F800000 := by
  obtain ⟨p, hbelow, habove, hround⟩ := roundMagnitude_eq num hden
  rw [h] at hbelow habove hround
  have hpk := patternUnits_strictMono.le_iff_le.1 (Nat.le_of_mul_le_mul_right hbelow hden)
  have hkp := patternUnits_strictMono.lt_iff_lt.1 (Nat.lt_of_mul_lt_mul_right habove)
  obtain rfl : p = k := by omega
  rw [hround, nearerPattern, if_neg (by rw [Nat.add_mul]; omega)]

/-- A finite sample is what rounding its own magnitude gives (rule R209). -/
theorem rn32_of_exact {x : Sample} (hx : isFinite x = true) {num den : Nat} (hden : 0 < den)
    (h : num * 2 ^ 149 = magUnits x * den) : rn32 (signBit x) num den = x := by
  rw [isFinite_iff] at hx
  rw [magUnits_eq_patternUnits] at h
  refine sample_ext (signBit_rn32 _ _ _) ?_
  rw [rn32_toNat_mod, roundMagnitude_of_exact hden h, min_eq_left hx.le]

theorem nearerPattern_mono {p p' N N' den : Nat} (hbelow : patternUnits p * den ≤ N)
    (habove' : N' < patternUnits (p' + 1) * den) (h : N ≤ N') : nearerPattern p N den ≤ nearerPattern p' N' den := by
  have hp := patternUnits_strictMono.lt_iff_lt.1 (Nat.lt_of_mul_lt_mul_right (hbelow.trans_lt (h.trans_lt habove')))
  rcases Nat.lt_or_ge p p' with hlt | hge
  · have := nearerPattern_cases p N den
    have := nearerPattern_cases p' N' den
    omega
  · obtain rfl : p = p' := by omega
    unfold nearerPattern
    split <;> split <;> omega

/-- Rounding is monotone in the magnitude (rule R209). -/
theorem roundMagnitude_mono {num num' den : Nat} (hden : 0 < den) (h : num ≤ num') :
    roundMagnitude num den ≤ roundMagnitude num' den := by
  obtain ⟨p, hbelow, -, hround⟩ := roundMagnitude_eq num hden
  obtain ⟨p', -, habove', hround'⟩ := roundMagnitude_eq num' hden
  have := nearerPattern_mono hbelow habove' (Nat.mul_le_mul_right _ h)
  omega

/-- `neg` is the sign of the integer `S`; a zero may have either sign (rules R201, R205). -/
def SignOf (neg : Bool) (S : Int) : Prop := (S < 0 → neg = true) ∧ (0 < S → neg = false)

/-- Rounding `S / den` with the sign of `S` (rule R205). -/
theorem isRN32_of_signOf {neg : Bool} {S : Int} (hsign : SignOf neg S) {den : Nat} (hden : 0 < den) :
    IsRN32 ((S : ℚ) / den) (rn32 neg S.natAbs den) := by
  have hS : (if neg then -1 else 1) * ((S.natAbs : ℚ) / den) = (S : ℚ) / den := by
    obtain ⟨hneg, hpos⟩ := hsign
    rw [Nat.cast_natAbs, ← mul_div_assoc]
    congr 1
    rcases lt_trichotomy S 0 with h | rfl | h
    · simp [hneg h, abs_of_neg h]
    · simp
    · simp [hpos h, abs_of_pos h]
  exact hS ▸ isRN32_rn32 neg S.natAbs hden

theorem roundMagnitude_zero {den : Nat} (hden : 0 < den) : roundMagnitude 0 den = 0 :=
  roundMagnitude_of_exact (k := 0) hden (by simp [patternUnits])

/-- The place of a rounded result in the order of the values; the sign of a zero does not matter. -/
theorem orderKey_rn32 {neg : Bool} {S : Int} (hsign : SignOf neg S) {den : Nat} (hden : 0 < den) :
    Config.orderKey (rn32 neg S.natAbs den) =
      if S < 0 then 2 ^ 31 - roundMagnitude S.natAbs den else 2 ^ 31 + roundMagnitude S.natAbs den := by
  obtain ⟨hneg, hpos⟩ := hsign
  rw [orderKey_eq, signBit_rn32, rn32_toNat_mod]
  rcases lt_trichotomy S 0 with h | rfl | h
  · rw [hneg h, if_pos rfl, if_pos h]
  · rw [Int.natAbs_zero, roundMagnitude_zero hden]
    split <;> rfl
  · rw [hpos h, if_neg (by decide), if_neg (by omega)]

/-- Rounding is monotone in the exact result (rule R209). -/
theorem orderKey_rn32_mono {neg neg' : Bool} {S S' : Int} (hsign : SignOf neg S) (hsign' : SignOf neg' S') {den : Nat}
    (hden : 0 < den) (h : S ≤ S') :
    Config.orderKey (rn32 neg S.natAbs den) ≤ Config.orderKey (rn32 neg' S'.natAbs den) := by
  rw [orderKey_rn32 hsign hden, orderKey_rn32 hsign' hden]
  split
  · have hmono := fun hle => roundMagnitude_mono hden (num := S'.natAbs) (num' := S.natAbs) hle
    split <;> omega
  · have hmono := roundMagnitude_mono hden (num := S.natAbs) (num' := S'.natAbs) (by omega)
    split <;> omega

end Sys2Proof.Machine

namespace Sys2Proof.Machine

/-! ### The operators on every class of operands -/

/-- An infinity plus what is no NaN (rule R200). -/
theorem addS_of_isInf (d : Nat) {a b : Sample} (ha : isInf a = true) (hb : isNaN b = false) :
    addS d a b = if isInf b && signBit a != signBit b then freeNaN d else a := by
  simp [addS, ha, hb, isNaN_of_isInf ha]

/-- A finite sample plus an infinity (rule R200). -/
theorem addS_of_isFinite_of_isInf (d : Nat) {a b : Sample} (ha : isFinite a = true) (hb : isInf b = true) :
    addS d a b = b := by
  simp [addS, hb, isNaN_of_isFinite ha, isInf_of_isFinite ha, isNaN_of_isInf hb]

/-- An infinity times what is no NaN (rule R200). -/
theorem mulS_of_isInf (d : Nat) {a b : Sample} (ha : isInf a = true) (hb : isNaN b = false) :
    mulS d a b = if isZero b then freeNaN d else if signBit a = signBit b then 0x7F800000#32 else 0xFF800000#32 := by
  simp [mulS, ha, hb, isNaN_of_isInf ha, isZero_of_isInf ha]

/-- The sum of two finite samples is their exact sum, rounded once (rule R198). -/
theorem addS_rounds (d : Nat) {a b : Sample} (ha : isFinite a = true) (hb : isFinite b = true) :
    ∃ neg, SignOf neg (sampleUnits a + sampleUnits b) ∧
      addS d a b = rn32 neg (sampleUnits a + sampleUnits b).natAbs (2 ^ 149) := by
  rw [addS_of_finite d ha hb]
  split
  · next h => exact ⟨signBit a && signBit b, by simp [SignOf, h], by rw [h, Int.natAbs_zero, rn32_zero]; rfl⟩
  · exact ⟨_, by simp [SignOf]; omega, rfl⟩

/-- The product of two finite samples is their exact product, rounded once (rule R198). -/
theorem mulS_rounds (d : Nat) {a b : Sample} (ha : isFinite a = true) (hb : isFinite b = true) :
    ∃ neg, SignOf neg (sampleUnits a * sampleUnits b) ∧
      mulS d a b = rn32 neg (sampleUnits a * sampleUnits b).natAbs (2 ^ 149 * 2 ^ 149) := by
  refine ⟨signBit a != signBit b, ?_, ?_⟩
  · have : (0 : Int) ≤ magUnits a * magUnits b := by positivity
    cases hsa : signBit a <;> cases hsb : signBit b <;> simp [SignOf, sampleUnits, hsa, hsb] <;> omega
  · rw [mulS_of_finite d ha hb, Int.natAbs_mul, natAbs_sampleUnits, natAbs_sampleUnits]

theorem addS_comm (d : Nat) (a b : Sample) : addS d a b = addS d b a := by
  by_cases hnan : isNaN a = true ∨ isNaN b = true
  · rw [addS_of_nan d hnan, addS_of_nan d hnan.symm]
  · obtain ⟨ha, hb⟩ := not_or.1 hnan
    rw [Bool.not_eq_true] at ha hb
    rcases isInf_or_isFinite ha with hia | hfa <;> rcases isInf_or_isFinite hb with hib | hfb
    · rw [addS_of_isInf d hia hb, addS_of_isInf d hib ha, eq_of_isInf hia, eq_of_isInf hib]
      cases signBit a <;> cases signBit b <;> rfl
    · rw [addS_of_isFinite_of_isInf d hfb hia, addS_of_isInf d hia hb, isInf_of_isFinite hfb]
      rfl
    · rw [addS_of_isFinite_of_isInf d hfa hib, addS_of_isInf d hib ha, isInf_of_isFinite hfa]
      rfl
    · rw [addS_of_finite d hfa hfb, addS_of_finite d hfb hfa, add_comm, Bool.and_comm]

theorem mulS_comm (d : Nat) (a b : Sample) : mulS d a b = mulS d b a := by
  unfold mulS
  rw [Bool.or_comm (isNaN a), Bool.or_comm (isInf a), Bool.or_comm (isZero a), Nat.mul_comm (magUnits a),
    bne_comm]

/-! ### The statements on rounding -/

/-- Settles O53: this is the law of `rn32`. -/
theorem rn32IsTheNearest : Obligations.Rn32IsTheNearest := by
  unfold Obligations.Rn32IsTheNearest
  exact fun neg num den hden => isRN32_rn32 neg num hden

theorem isRN32_addS (d : Nat) {a b : Sample} (ha : isFinite a = true) (hb : isFinite b = true) :
    IsRN32 (sampleValue a + sampleValue b) (addS d a b) := by
  obtain ⟨neg, hsign, hadd⟩ := addS_rounds d ha hb
  have hvalue : sampleValue a + sampleValue b = ((sampleUnits a + sampleUnits b : Int) : ℚ) / (2 ^ 149 : Nat) := by
    rw [sampleValue_eq_sampleUnits, sampleValue_eq_sampleUnits]
    push_cast
    ring
  rw [hvalue, hadd]
  exact isRN32_of_signOf hsign (by decide)

theorem isRN32_subS (d : Nat) {a b : Sample} (ha : isFinite a = true) (hb : isFinite b = true) :
    IsRN32 (sampleValue a - sampleValue b) (subS d a b) := by
  rw [subS, sub_eq_add_neg, ← sampleValue_negSample]
  exact isRN32_addS d ha (by rwa [isFinite_negSample])

theorem isRN32_mulS (d : Nat) {a b : Sample} (ha : isFinite a = true) (hb : isFinite b = true) :
    IsRN32 (sampleValue a * sampleValue b) (mulS d a b) := by
  obtain ⟨neg, hsign, hmul⟩ := mulS_rounds d ha hb
  have hvalue : sampleValue a * sampleValue b =
      ((sampleUnits a * sampleUnits b : Int) : ℚ) / (2 ^ 149 * 2 ^ 149 : Nat) := by
    rw [sampleValue_eq_sampleUnits, sampleValue_eq_sampleUnits]
    push_cast
    ring
  rw [hvalue, hmul]
  exact isRN32_of_signOf hsign (by decide)

/-- Settles O54: each exact result is an integer over a power of two, and its rounding that of `rn32`. -/
theorem operatorsRoundTheExactResult : Obligations.OperatorsRoundTheExactResult := by
  unfold Obligations.OperatorsRoundTheExactResult
  exact fun d a b ha hb => ⟨isRN32_addS d ha hb, isRN32_subS d ha hb, isRN32_mulS d ha hb⟩

/-! ### The special values -/

/-- Settles O55: the operators on each class of operands; a difference is the sum with the sign changed. -/
theorem naNsAndInfinitiesPropagate : Obligations.NaNsAndInfinitiesPropagate := by
  unfold Obligations.NaNsAndInfinitiesPropagate
  intro d a b
  refine ⟨fun h => ?_, fun ha hb => ?_, fun ha hb => ?_, fun ha hb => ?_, fun ha hzero hb => ?_⟩
  · have hneg : isNaN a = true ∨ isNaN (negSample b) = true := by rwa [isNaN_negSample]
    rw [subS, addS_of_nan d h, addS_of_nan d hneg, mulS_of_nan d h]
    simp
  · have hnan := isNaN_of_isInf hb
    rw [subS, addS_of_isInf d ha hnan, addS_of_isInf d ha (by rwa [isNaN_negSample])]
    constructor <;> intro hsign <;> simp [hb, hsign]
  · have hnan := isNaN_of_isFinite hb
    have hinf := isInf_of_isFinite hb
    rw [addS_comm d b, subS, subS, addS_of_isFinite_of_isInf d hb (by rwa [isInf_negSample]), addS_of_isInf d ha hnan,
      addS_of_isInf d ha (by rwa [isNaN_negSample])]
    refine ⟨by simp [hinf], by simp [hinf], by simp [hinf], ?_⟩
    rw [eq_of_isInf ((isInf_negSample a).trans ha), signBit_negSample]
    cases signBit a <;> rfl
  · have hnan : isNaN b = false := by
      rw [isNaN_eq_false_iff, (isZero_iff b).1 hb]
      decide
    rw [mulS_comm d b, mulS_of_isInf d ha hnan, if_pos hb]
    simp
  · rw [mulS_comm d b, mulS_of_isInf d ha hb, hzero]
    exact ⟨rfl, rfl⟩

/-- Adding +0.0 to what is not -0.0 gives it back (rule R201). -/
theorem addS_zeroSample (d : Nat) {x : Sample} (hnan : isNaN x = false) (hneg : x ≠ 0x80000000#32) :
    addS d x 0x00000000#32 = x := by
  rcases isInf_or_isFinite hnan with hinf | hfin
  · rw [addS_of_isInf d hinf (by decide)]
    rfl
  · have hzero : sampleUnits 0x00000000#32 = 0 := by decide
    have hmag := natAbs_sampleUnits x
    rw [addS_of_finite d hfin (by decide), hzero, add_zero, hmag]
    split
    · next h =>
      have hx : x.toNat % 2 ^ 31 = 0 := (isZero_iff x).1 ((isZero_iff_magUnits x).2 (by omega))
      have hsign : signBit x = false := by
        by_contra hs
        exact hneg (sample_ext (Bool.not_eq_false _ ▸ hs) hx)
      rw [hsign]
      exact sample_ext hsign.symm hx.symm
    · next h =>
      have hsign : decide (sampleUnits x < 0) = signBit x := by
        unfold sampleUnits at h ⊢
        cases hs : signBit x <;> simp [hs] at h ⊢
        omega
      rw [hsign]
      exact rn32_of_exact hfin (by decide) rfl

/-- Settles O56: sums of zero and products with zero by the operators on finite operands. -/
theorem signedZeroResults : Obligations.SignedZeroResults := by
  unfold Obligations.SignedZeroResults
  intro d x
  have hzeros : addS d 0x80000000#32 0x00000000#32 = 0x00000000#32 := addS_of_finite d (by decide) (by decide)
  refine ⟨addS_zeroSample d, hzeros, (addS_comm d _ _).trans hzeros, fun hx => ?_, fun hx => ?_⟩
  · have hmag : magUnits 0x00000000#32 = 0 := by decide
    have hsign : (signBit 0x00000000#32 != signBit x) = signBit x := Bool.false_bne _
    rw [mulS_of_finite d (by decide) hx, hmag, Nat.zero_mul, rn32_zero, hsign]
  · rw [subS, addS_of_finite d hx (by rwa [isFinite_negSample]), sampleUnits_negSample, add_neg_cancel, if_pos rfl,
      signBit_negSample]
    cases signBit x <;> rfl

end Sys2Proof.Machine

namespace Sys2Proof.Machine

/-! ### The advance law -/

/-- Settles O52: the sum modulo `2^32` cut into the low 25 bits and the three of the ring index. -/
theorem advanceLaw : Obligations.AdvanceLaw := by
  unfold Obligations.AdvanceLaw
  intro p d
  have hsum : (p + d).toNat = (p.toNat + d.toNat) % 2 ^ 32 := BitVec.toNat_add p d
  rw [slotsAdvanced_eq_mod, ringOf_toNat, ringOf_toNat, hsum]
  refine ⟨?_, ?_, ?_, fun hd => ?_⟩
  · split <;> omega
  all_goals omega

/-! ### The fraction weights -/

/-- Up to 24 significant bits at any exponent are the magnitude of some pattern (rule R197). -/
theorem exists_patternUnits (e : Nat) : ∀ m < 2 ^ 24, ∃ k, patternUnits k = m * 2 ^ e := by
  induction e with
  | zero => exact fun m hm => ⟨0 * 2 ^ 23 + m, patternUnits_significand hm.le (.inl rfl)⟩
  | succ e ih =>
    intro m hm
    by_cases hnormal : 2 ^ 23 ≤ m
    · exact ⟨(e + 1) * 2 ^ 23 + m, patternUnits_significand hm.le (.inr hnormal)⟩
    · obtain ⟨k, hk⟩ := ih (2 * m) (by omega)
      exact ⟨k, by rw [hk]; ring⟩

theorem signBit_fracS (F : Nat) : signBit (fracS F) = false := signBit_rn32 _ _ _

/-- `fracS` loses nothing (rule R204). -/
theorem fracS_exact {F : Nat} (hF : F ≤ 2 ^ 17) :
    isFinite (fracS F) = true ∧ sampleValue (fracS F) = (F : ℚ) / 2 ^ 17 := by
  obtain ⟨k, hk⟩ := exists_patternUnits 132 F (by omega)
  have hle : k < 0x7F800000 := by
    rw [← patternUnits_strictMono.lt_iff_lt, patternUnits_infinity, hk]
    omega
  have hmag : (fracS F).toNat % 2 ^ 31 = k := by
    rw [fracS, rn32_toNat_mod, roundMagnitude_of_exact (k := k) (by decide) (by rw [hk]; omega), min_eq_left hle.le]
  refine ⟨by rwa [isFinite_iff, hmag], ?_⟩
  rw [sampleValue_of_pos (signBit_fracS F), magUnits_eq_patternUnits, hmag, hk]
  push_cast
  ring

/-- Settles O57: `fracS` is exact at both weights of a phase, which are complementary. -/
theorem fractionWeightsAreExact : Obligations.FractionWeightsAreExact := by
  unfold Obligations.FractionWeightsAreExact
  refine ⟨fun F hF => fracS_exact hF, fun p => ?_⟩
  have hF : (fracOf p).toNat ≤ 2 ^ 17 := (fracOf p).isLt.le
  obtain ⟨-, hfrac⟩ := fracS_exact hF
  obtain ⟨-, hrest⟩ := fracS_exact (Nat.sub_le (2 ^ 17) (fracOf p).toNat)
  rw [hfrac, hrest, Nat.cast_sub hF]
  push_cast
  ring

/-! ### The laws of the operators -/

theorem abs_sampleValue (x : Sample) : |sampleValue x| = (magUnits x : ℚ) / 2 ^ 149 := by
  rw [sampleValue_eq_sampleUnits, abs_div, ← Int.cast_abs, Int.abs_eq_natAbs, natAbs_sampleUnits]
  simp

/-- A finite binary32 is below the rounding threshold of the infinities (rule R205). -/
theorem abs_sampleValue_lt {z : Sample} (hz : isFinite z = true) : |sampleValue z| < 2 ^ 128 - 2 ^ 103 := by
  have hle : magUnits z ≤ (2 ^ 24 - 1) * 2 ^ 253 := by
    rw [isFinite_iff] at hz
    rw [magUnits_eq_patternUnits, ← patternUnits_greatest]
    exact patternUnits_strictMono.monotone (by omega)
  rw [abs_sampleValue, div_lt_iff₀ (by positivity)]
  calc (magUnits z : ℚ) ≤ ((2 ^ 24 - 1) * 2 ^ 253 : Nat) := by exact_mod_cast hle
    _ < (2 ^ 128 - 2 ^ 103) * 2 ^ 149 := by norm_num

/-- A correctly rounded result is exact where some finite binary32 is the exact result (rule R209). -/
theorem isRN32_exact {v : ℚ} {y z : Sample} (hy : IsRN32 v y) (hz : isFinite z = true) (hv : sampleValue z = v) :
    isFinite y = true ∧ sampleValue y = v := by
  obtain ⟨-, -, hround⟩ := hy
  rw [if_neg (by rw [← hv]; exact (abs_sampleValue_lt hz).not_ge)] at hround
  obtain ⟨hfin, hnear⟩ := hround
  have hdist := hnear z hz
  rw [hv, sub_self, abs_zero] at hdist
  rcases hdist with h | ⟨h, -⟩
  · exact absurd h (abs_nonneg _).not_gt
  · exact ⟨hfin, sub_eq_zero.1 (abs_eq_zero.1 h)⟩

theorem mulS_oneSample (d : Nat) {a : Sample} (ha : isNaN a = false) : mulS d a 0x3F800000#32 = a := by
  rcases isInf_or_isFinite ha with hinf | hfin
  · have hzero : isZero 0x3F800000#32 = false := by decide
    have hsign : signBit 0x3F800000#32 = false := by decide
    rw [mulS_of_isInf d hinf (by decide), hzero, hsign, eq_of_isInf hinf]
    cases signBit a <;> rfl
  · have hone : magUnits 0x3F800000#32 = 2 ^ 149 := by decide +kernel
    have hsign : (signBit a != signBit 0x3F800000#32) = signBit a := Bool.bne_false _
    rw [mulS_of_finite d hfin (by decide), hone, hsign]
    exact rn32_of_exact hfin (by decide) (by ring)

/-- A weight of magnitude at most 1 does not enlarge a finite sample: rounding is monotone and exact on the sample (R209). -/
theorem mulS_by_weight (d : Nat) {a b : Sample} (ha : isFinite a = true) (hb : isFinite b = true)
    (hweight : |sampleValue b| ≤ 1) :
    isFinite (mulS d a b) = true ∧ |sampleValue (mulS d a b)| ≤ |sampleValue a| := by
  rw [isFinite_iff] at ha
  have hb1 : magUnits b ≤ 2 ^ 149 := by
    rw [abs_sampleValue, div_le_one (by positivity)] at hweight
    exact_mod_cast hweight
  have hmag : (mulS d a b).toNat % 2 ^ 31 ≤ a.toNat % 2 ^ 31 := by
    rw [mulS_of_finite d ((isFinite_iff a).2 ha) hb, rn32_toNat_mod]
    calc roundMagnitude (magUnits a * magUnits b) (2 ^ 149 * 2 ^ 149)
      _ ≤ roundMagnitude (magUnits a * 2 ^ 149) (2 ^ 149 * 2 ^ 149) :=
        roundMagnitude_mono (by decide) (Nat.mul_le_mul_left _ hb1)
      _ = min (a.toNat % 2 ^ 31) 0x7F800000 :=
        roundMagnitude_of_exact (by decide) (by rw [magUnits_eq_patternUnits]; ring)
      _ ≤ a.toNat % 2 ^ 31 := Nat.min_le_left _ _
  refine ⟨(isFinite_iff _).2 (hmag.trans_lt ha), ?_⟩
  rw [abs_sampleValue, abs_sampleValue, div_le_div_iff_of_pos_right (by positivity), Nat.cast_le, magUnits_eq_patternUnits,
    magUnits_eq_patternUnits]
  exact patternUnits_strictMono.monotone hmag

/-- Settles O58: each law by its own lemma; a representable result is exact because it is correctly rounded. -/
theorem operatorLaws : Obligations.OperatorLaws := by
  unfold Obligations.OperatorLaws
  intro d a b
  refine ⟨fun _ => addS_comm d b a, fun _ => mulS_comm d b a, mulS_oneSample d, rfl, fun ha hb z hz => ?_,
    mulS_by_weight d⟩
  exact ⟨isRN32_exact (isRN32_addS d ha hb) hz, isRN32_exact (isRN32_subS d ha hb) hz,
    isRN32_exact (isRN32_mulS d ha hb) hz⟩

/-! ### Monotonicity -/

theorem AtMost.refl (x : Sample) : AtMost x x := .inr (.inr le_rfl)

/-- Changing the signs reverses the order (rule R209). -/
theorem AtMost.neg {x y : Sample} (h : AtMost x y) : AtMost (negSample y) (negSample x) := by
  unfold AtMost at *
  rw [isNaN_negSample, isNaN_negSample, orderKey_negSample, orderKey_negSample]
  rcases h with h | h | h
  · exact .inr (.inl h)
  · exact .inl h
  · exact .inr (.inr (Nat.sub_le_sub_left h _))

/-- The infinities stand at the ends of the order (rule R209). -/
theorem orderKey_of_isInf {x : Sample} (hx : isInf x = true) :
    Config.orderKey x = if signBit x then 2 ^ 31 - 0x7F800000 else 2 ^ 31 + 0x7F800000 := by
  rw [orderKey_eq, (isInf_iff x).1 hx]

theorem orderKey_bounds {x : Sample} (hx : isNaN x = false) :
    2 ^ 31 - 0x7F800000 ≤ Config.orderKey x ∧ Config.orderKey x ≤ 2 ^ 31 + 0x7F800000 := by
  rw [isNaN_eq_false_iff] at hx
  rw [orderKey_eq]
  split <;> omega

/-- A function is monotone that is so on finite operands, gives an infinity back or a NaN, and a NaN for a NaN. -/
theorem AtMost.map {f : Sample → Sample} (hnan : ∀ x, isNaN x = true → isNaN (f x) = true)
    (hinf : ∀ x, isInf x = true → isNaN (f x) = true ∨ f x = x)
    (hfin : ∀ x y, isFinite x = true → isFinite y = true → Config.orderKey x ≤ Config.orderKey y → AtMost (f x) (f y))
    {x y : Sample} (h : AtMost x y) : AtMost (f x) (f y) := by
  rcases h with hx | hy | hle
  · exact .inl (hnan x hx)
  · exact .inr (.inl (hnan y hy))
  by_cases hfx : isNaN (f x) = true
  · exact .inl hfx
  by_cases hfy : isNaN (f y) = true
  · exact .inr (.inl hfy)
  have hkx := orderKey_bounds (Bool.eq_false_iff.2 hfx)
  have hky := orderKey_bounds (Bool.eq_false_iff.2 hfy)
  rcases isInf_or_isFinite (Bool.eq_false_iff.2 (mt (hnan x) hfx)) with hix | hx <;>
    rcases isInf_or_isFinite (Bool.eq_false_iff.2 (mt (hnan y) hfy)) with hiy | hy
  · rw [(hinf x hix).resolve_left hfx, (hinf y hiy).resolve_left hfy]
    exact .inr (.inr hle)
  · have hend := orderKey_of_isInf hix
    obtain ⟨-, hlt⟩ := (isFinite_iff_orderKey y).1 hy
    rw [(hinf x hix).resolve_left hfx]
    exact .inr (.inr (by split at hend <;> omega))
  · have hend := orderKey_of_isInf hiy
    obtain ⟨hlt, -⟩ := (isFinite_iff_orderKey x).1 hx
    rw [(hinf y hiy).resolve_left hfy]
    exact .inr (.inr (by split at hend <;> omega))
  · exact hfin x y hx hy hle

/-- Times the positive infinity, the greater of two finite samples gives the greater result (rules R200, R209). -/
theorem atMost_mulS_infinity (d : Nat) {a a' b : Sample} (hb : isInf b = true) (hsign : signBit b = false)
    (ha : isFinite a = true) (ha' : isFinite a' = true) (hle : Config.orderKey a ≤ Config.orderKey a') :
    AtMost (mulS d a b) (mulS d a' b) := by
  rw [mulS_comm d a, mulS_comm d a', mulS_of_isInf d hb (isNaN_of_isFinite ha), mulS_of_isInf d hb (isNaN_of_isFinite ha'),
    hsign]
  by_cases hzero : isZero a = true
  · exact .inl (by rw [if_pos hzero, isNaN_freeNaN])
  by_cases hzero' : isZero a' = true
  · exact .inr (.inl (by rw [if_pos hzero', isNaN_freeNaN]))
  rw [if_neg hzero, if_neg hzero']
  rw [isZero_iff] at hzero hzero'
  rw [orderKey_eq, orderKey_eq] at hle
  refine .inr (.inr ?_)
  cases hsa : signBit a with
  | true => cases signBit a' <;> decide
  | false =>
    have hsa' : signBit a' = false := by
      rw [hsa, if_neg (by decide)] at hle
      by_contra hneg
      rw [if_pos (by simpa using hneg)] at hle
      omega
    rw [hsa']

theorem negSample_rn32 (neg : Bool) (num den : Nat) : negSample (rn32 neg num den) = rn32 (!neg) num den :=
  sample_ext (by rw [signBit_negSample, signBit_rn32, signBit_rn32])
    (by rw [negSample_toNat_mod, rn32_toNat_mod, rn32_toNat_mod])

/-- A product with the sign of one operand changed is the product with its sign changed, but for a NaN. -/
theorem mulS_negSample (d : Nat) {a b : Sample} (h : isNaN (mulS d a b) = false) :
    mulS d a (negSample b) = negSample (mulS d a b) := by
  have hsign : (signBit a != !signBit b) = !(signBit a != signBit b) := Bool.bne_not _ _
  simp only [mulS, isNaN_negSample, isInf_negSample, isZero_negSample, signBit_negSample, magUnits_negSample, hsign] at h ⊢
  generalize (signBit a != signBit b) = neg at *
  by_cases hnan : (isNaN a || isNaN b) = true
  · simp [hnan] at h
  by_cases hinf : (isInf a || isInf b) = true
  · by_cases hzero : (isZero a || isZero b) = true
    · simp [hnan, hinf, hzero] at h
    · simp only [if_neg hnan, if_pos hinf, if_neg hzero]
      cases neg <;> rfl
  · simp only [if_neg hnan, if_neg hinf, negSample_rn32]

section Monotone

variable {a a' : Sample} (h : AtMost a a') (d : Nat) (b : Sample)

include h

theorem AtMost.addS_left : AtMost (addS d a b) (addS d a' b) := by
  by_cases hb : isNaN b = true
  · exact .inl (by rw [addS_of_nan d (.inr hb), isNaN_freeNaN])
  rw [Bool.not_eq_true] at hb
  refine h.map (f := fun x => addS d x b) (fun x hx => ?_) (fun x hx => ?_) fun x y hx hy hle => ?_
  · rw [addS_of_nan d (.inl hx), isNaN_freeNaN]
  · rw [addS_of_isInf d hx hb]
    split
    · exact .inl (isNaN_freeNaN d)
    · exact .inr rfl
  · rcases isInf_or_isFinite hb with hib | hfb
    · simp only [addS_of_isFinite_of_isInf d hx hib, addS_of_isFinite_of_isInf d hy hib]
      exact .refl b
    · obtain ⟨neg, hsign, hadd⟩ := addS_rounds d hx hfb
      obtain ⟨neg', hsign', hadd'⟩ := addS_rounds d hy hfb
      simp only [hadd, hadd']
      rw [orderKey_le_iff_sampleUnits] at hle
      exact .inr (.inr (orderKey_rn32_mono hsign hsign' (by decide) (by omega)))

/-- Multiplying by a sample with no negative sign is monotone (rule R209). -/
theorem AtMost.mulS_left (hsign : signBit b = false) : AtMost (mulS d a b) (mulS d a' b) := by
  by_cases hb : isNaN b = true
  · exact .inl (by rw [mulS_of_nan d (.inr hb), isNaN_freeNaN])
  rw [Bool.not_eq_true] at hb
  refine h.map (f := fun x => mulS d x b) (fun x hx => ?_) (fun x hx => ?_) fun x y hx hy hle => ?_
  · rw [mulS_of_nan d (.inl hx), isNaN_freeNaN]
  · rw [mulS_of_isInf d hx hb]
    split
    · exact .inl (isNaN_freeNaN d)
    · refine .inr (.trans ?_ (eq_of_isInf hx).symm)
      rw [hsign]
      cases signBit x <;> rfl
  · rcases isInf_or_isFinite hb with hib | hfb
    · exact atMost_mulS_infinity d hib hsign hx hy hle
    · obtain ⟨neg, hneg, hmul⟩ := mulS_rounds d hx hfb
      obtain ⟨neg', hneg', hmul'⟩ := mulS_rounds d hy hfb
      have hb0 : 0 ≤ sampleUnits b := by simp [sampleUnits, hsign]
      simp only [hmul, hmul']
      rw [orderKey_le_iff_sampleUnits] at hle
      exact .inr (.inr (orderKey_rn32_mono hneg hneg' (by decide) (Int.mul_le_mul_of_nonneg_right hle hb0)))

/-- Multiplying by a sample with a negative sign reverses the order (rule R209). -/
theorem AtMost.mulS_left_neg (hsign : signBit b = true) : AtMost (mulS d a' b) (mulS d a b) := by
  by_cases hnan' : isNaN (mulS d a' b) = true
  · exact .inl hnan'
  by_cases hnan : isNaN (mulS d a b) = true
  · exact .inr (.inl hnan)
  have hmono := h.mulS_left d (negSample b) (by rw [signBit_negSample, hsign]; rfl)
  rw [mulS_negSample d (Bool.eq_false_iff.2 hnan), mulS_negSample d (Bool.eq_false_iff.2 hnan')] at hmono
  simpa only [negSample_negSample] using hmono.neg

end Monotone

/-- Settles O59: addition and multiplication are monotone on the left; the rest by commuting and by changing signs. -/
theorem operatorsAreMonotone : Obligations.OperatorsAreMonotone := by
  unfold Obligations.OperatorsAreMonotone
  intro d a a' b h
  refine ⟨h.addS_left d b, ?_, h.addS_left d (negSample b), ?_, fun hb => ?_, fun hb => ?_⟩
  · rw [addS_comm d b, addS_comm d b]
    exact h.addS_left d b
  · rw [subS, subS, addS_comm d b, addS_comm d b]
    exact h.neg.addS_left d b
  · rw [mulS_comm d b, mulS_comm d b]
    exact ⟨h.mulS_left d b hb, h.mulS_left d b hb⟩
  · rw [mulS_comm d b, mulS_comm d b]
    exact ⟨h.mulS_left_neg d b hb, h.mulS_left_neg d b hb⟩

end Sys2Proof.Machine

namespace Sys2Proof.Machine

/-! ### Silent samples, and the weights that keep them silent -/

/-- A zero; where `plus` holds, +0.0 (rules R201, R207). Both halves of the zero-input law are carried through the engines at
once, `plus` being the premise that everything is +0.0 and no coefficient negative. -/
def Silent (plus : Prop) (x : Sample) : Prop := isZero x = true ∧ (plus → signBit x = false)

/-- A coefficient that keeps a silent sample silent: a finite one, without a negative sign where `plus` holds (rule R201). -/
def Weight (plus : Prop) (w : Sample) : Prop := isFinite w = true ∧ (plus → signBit w = false)

theorem silent_false_iff (x : Sample) : Silent False x ↔ isZero x = true := by simp [Silent]

theorem silent_true_iff (x : Sample) : Silent True x ↔ x = 0x00000000#32 := by
  constructor
  · rintro ⟨hzero, hsign⟩
    exact sample_ext (hsign trivial) ((isZero_iff x).1 hzero)
  · rintro rfl
    exact ⟨by decide, fun _ => by decide⟩

theorem isFinite_of_isZero {x : Sample} (h : isZero x = true) : isFinite x = true := by
  rw [isFinite_iff, (isZero_iff x).1 h]
  decide

theorem sampleUnits_of_isZero {x : Sample} (h : isZero x = true) : sampleUnits x = 0 := by
  simp [sampleUnits, (isZero_iff_magUnits x).1 h]

/-- The sum of two zeros is +0.0, but for two negative ones (rule R201). -/
theorem addS_of_isZero (d : Nat) {a b : Sample} (ha : isZero a = true) (hb : isZero b = true) :
    addS d a b = if signBit a && signBit b then 0x80000000#32 else zeroSample := by
  rw [addS_of_finite d (isFinite_of_isZero ha) (isFinite_of_isZero hb), sampleUnits_of_isZero ha, sampleUnits_of_isZero hb]
  rfl

section Silence

variable {plus : Prop}

theorem silent_zeroSample : Silent plus zeroSample := ⟨by decide, fun _ => by decide⟩

/-- A sum of zeros is silent when the first operand is: that one has no negative sign where it matters. -/
theorem silent_addS_of_isZero (d : Nat) {a b : Sample} (ha : Silent plus a) (hb : isZero b = true) :
    Silent plus (addS d a b) := by
  obtain ⟨hzero, hsign⟩ := ha
  rw [addS_of_isZero d hzero hb]
  refine ⟨by split <;> decide, fun hplus => ?_⟩
  rw [hsign hplus, Bool.false_and, if_neg (by decide)]
  decide

theorem Silent.addS (d : Nat) {a b : Sample} (ha : Silent plus a) (hb : Silent plus b) : Silent plus (addS d a b) :=
  silent_addS_of_isZero d ha hb.1

theorem Silent.subS (d : Nat) {a b : Sample} (ha : Silent plus a) (hb : Silent plus b) : Silent plus (subS d a b) :=
  silent_addS_of_isZero d ha (by rw [isZero_negSample, hb.1])

theorem Silent.mulS_left (d : Nat) {w x : Sample} (hx : Silent plus x) (hw : Weight plus w) : Silent plus (mulS d w x) := by
  obtain ⟨hfin, hsignw⟩ := hw
  obtain ⟨hzero, hsignx⟩ := hx
  rw [mulS_of_finite d hfin (isFinite_of_isZero hzero), (isZero_iff_magUnits x).1 hzero, Nat.mul_zero, rn32_zero]
  refine ⟨by split <;> decide, fun hplus => ?_⟩
  rw [hsignw hplus, hsignx hplus]
  rfl

theorem Silent.mulS_right (d : Nat) {w x : Sample} (hx : Silent plus x) (hw : Weight plus w) : Silent plus (mulS d x w) := by
  rw [mulS_comm]
  exact hx.mulS_left d hw

theorem weight_fracS {F : Nat} (hF : F ≤ 2 ^ 17) : Weight plus (fracS F) := ⟨(fracS_exact hF).1, fun _ => signBit_fracS F⟩

theorem weight_fracOf (p : U32) : Weight plus (fracS (fracOf p).toNat) := weight_fracS (fracOf p).isLt.le

theorem weight_blendWeight (j : Fin 8) : Weight plus (blendWeight j) := by
  have hfin : ∀ j, isFinite (blendWeight j) = true := by decide +kernel
  exact ⟨hfin j, fun _ => signBit_rn32 _ _ _⟩

theorem Silent.interpolate (d : Nat) {w a b : Sample} (hw : Weight plus w) (ha : Silent plus a) (hb : Silent plus b) :
    Silent plus (interpolate d w a b) :=
  ha.addS _ ((hb.subS _ ha).mulS_left _ hw)

theorem Silent.sumChain : ∀ (ps : List Sample) (d : Nat) {acc : Sample}, Silent plus acc → (∀ p ∈ ps, Silent plus p) →
    Silent plus (sumChain d acc ps) := by
  intro ps
  induction ps with
  | nil => exact fun _ _ hacc _ => hacc
  | cons p ps ih =>
    intro d acc hacc hps
    exact ih _ (hacc.addS d (hps p (List.mem_cons_self ..))) fun q hq => hps q (List.mem_cons_of_mem p hq)

/-! ### Silent arrays and blocks -/

/-- All eight slots of an array are silent. -/
def SilentSlots (plus : Prop) (v : Slots) : Prop := ∀ r : RingIx, Silent plus (slotGet v r)

/-- The first `n` slots of a buffer are silent. -/
def SilentBelow (plus : Prop) (n : Nat) (v : Block) : Prop := ∀ (i : Nat) (h : i < 16), i < n → Silent plus v[i]

/-- Every coefficient that a block operation meets is a weight. -/
structure QuietSettings (plus : Prop) (s : State) : Prop where
  downscale : Weight plus s.downscale
  rom : ∀ (row : Fin 257) (k : Fin 8), Weight plus (romAt s.rom row k)

/-- Every source sample that a record of accesses reads is silent (rule R207). -/
def SilentReads (plus : Prop) (s : State) (l : List Access) : Prop := ∀ a ∈ sourceCursors l, Silent plus (s.src.read a)

theorem silentReads_append {s : State} {l m : List Access} :
    SilentReads plus s (l ++ m) ↔ SilentReads plus s l ∧ SilentReads plus s m := by
  simp only [SilentReads, sourceCursors_append, List.mem_append, or_imp, forall_and]

theorem silentSlots_zeroSlots : SilentSlots plus zeroSlots := fun r => by
  rw [slotGet_zeroSlots]
  exact silent_zeroSample

/-- An array is silent when it is so in the order in which the taps meet it. -/
theorem silentSlots_of_offsets {v : Slots} (base : RingIx) (h : ∀ k < 8, Silent plus (slotGet v (base + BitVec.ofNat 3 k))) :
    SilentSlots plus v := fun r => by
  obtain ⟨k, hk, rfl⟩ := ring_exists_offset base r
  exact h k hk

theorem SilentBelow.setIfInBounds {n : Nat} {v : Block} (h : SilentBelow plus n v) {y : Sample} (hy : Silent plus y) :
    SilentBelow plus (n + 1) (v.setIfInBounds n y) := by
  intro i hi hn
  rw [Vector.getElem_setIfInBounds]
  split
  · exact hy
  · exact h i hi (by omega)

/-! ### The up engine -/

theorem silent_tapSum {rom : Config.RomImage} (hrom : ∀ row k, Weight plus (romAt rom row k)) {ring : Slots}
    (hring : SilentSlots plus ring) (d : Nat) (row : Fin 257) (base : RingIx) : Silent plus (tapSum d rom row ring base) := by
  have hproduct : ∀ k, Silent plus (tapProduct d rom row ring base k) := fun k => (hring _).mulS_left _ (hrom row k)
  refine Silent.sumChain _ _ (hproduct 0) fun p hp => ?_
  obtain ⟨k, -, rfl⟩ := List.mem_map.1 hp
  exact hproduct k

theorem silent_upSample {rom : Config.RomImage} (hrom : ∀ row k, Weight plus (romAt rom row k)) {ring : Slots}
    (hring : SilentSlots plus ring) (d : Nat) (phase : U32) : Silent plus (upSample d rom phase ring) :=
  (silent_tapSum hrom hring _ _ _).interpolate _ (weight_fracOf phase) (silent_tapSum hrom hring _ _ _)

variable {s t u v : State} {b : Buffer} {c c' : Nat}

/-- One output sample of a silent ring and silent reads is silent, and so is the ring after it (rule R148). -/
theorem upStep_silent {n : Nat} {p p' : UpPass} (h : upStep s b n p = .ok p') :
    ∃ l, p'.accesses = p.accesses ++ l ∧ (QuietSettings plus s → SilentReads plus s l → SilentSlots plus p.ring →
      SilentBelow plus n p.out → SilentSlots plus p'.ring ∧ SilentBelow plus (n + 1) p'.out) := by
  obtain ⟨k, -, -, -, -, -, -, hout, hacc, hslots⟩ := upStep_spec h
  refine ⟨_, hacc, fun hs hreads hring hbelow => ?_⟩
  have hring' : SilentSlots plus p'.ring := silentSlots_of_offsets (ringOf p.phase) fun i hi => by
    rw [hslots i hi]
    split
    · next hik =>
      refine hreads _ ?_
      simp only [sourceCursors_append, sourceCursors_sourceReads, List.mem_append]
      exact .inl (List.mem_map.2 ⟨i, List.mem_range.2 hik, rfl⟩)
    · exact hring _
  rw [hout]
  exact ⟨hring', hbelow.setIfInBounds (silent_upSample hs.rom hring' _ _)⟩

theorem upSteps_silent : ∀ {n : Nat} {p p' : UpPass}, upSteps s b n p = .ok p' →
    ∃ l, p'.accesses = p.accesses ++ l ∧ (QuietSettings plus s → SilentReads plus s l → SilentSlots plus p.ring →
      SilentSlots plus p'.ring ∧ SilentBelow plus n p'.out) := by
  intro n
  induction n with
  | zero =>
    intro p p' h
    cases h
    exact ⟨[], (List.append_nil _).symm, fun _ _ hring => ⟨hring, fun i _ hi => absurd hi (Nat.not_lt_zero i)⟩⟩
  | succ n ih =>
    intro p p' h
    obtain ⟨q, hq, h⟩ := upSteps_succ_eq_ok.1 h
    obtain ⟨l, hl, hsilent⟩ := ih hq
    obtain ⟨l', hl', hsilent'⟩ := upStep_silent h
    refine ⟨l ++ l', by rw [hl', hl, List.append_assoc], fun hs hreads hring => ?_⟩
    obtain ⟨hreads, hreads'⟩ := silentReads_append.1 hreads
    obtain ⟨hring, hbelow⟩ := hsilent hs hreads hring
    exact hsilent' hs hreads' hring hbelow

/-! ### The down engine -/

theorem silent_downTapSum (hs : QuietSettings plus s) {p : DownPass} (haccum : SilentSlots plus p.accum)
    (hread : Silent plus (s.src.read (wrapCursor s.cursorW p.cursor))) (k : Fin 8) : Silent plus (downTapSum s p k) := by
  have hscaled := hread.mulS_right p.draws hs.downscale
  have hlow := hscaled.mulS_right (p.draws + 1) (weight_fracS (Nat.sub_le (2 ^ 17) (fracOf p.phase).toNat))
  have hhigh := hscaled.mulS_right (p.draws + 2) (weight_fracOf p.phase)
  simp only [downTapSum, tapResult]
  exact ((haccum _).addS _ (hlow.mulS_left _ (hs.rom _ k))).addS _ (hhigh.mulS_left _ (hs.rom _ k))

/-- A source sample records the read of its cursor first (rule R61; log entry 16). -/
theorem downStep_accesses {p p' : DownPass} (h : downStep s b p = .ok p') :
    ∃ l, p'.accesses = p.accesses ++ (.sourceRead (wrapCursor s.cursorW p.cursor) :: l) := by
  obtain ⟨-, -, -, -, acc, -, hr⟩ := downStep_spec h
  split at hr
  · obtain ⟨-, -, -, hacc⟩ := hr
    exact ⟨_, hacc⟩
  · obtain ⟨-, -, -, hacc⟩ := hr
    exact ⟨_, hacc⟩

/-- One silent source sample leaves silent pending sums silent, and what it emits is silent (rule R159). -/
theorem downStep_silent {p p' : DownPass} (h : downStep s b p = .ok p') :
    ∃ l, p'.accesses = p.accesses ++ l ∧ (QuietSettings plus s → SilentReads plus s l → SilentSlots plus p.accum →
      SilentBelow plus p.emitted p.out → SilentSlots plus p'.accum ∧ SilentBelow plus p'.emitted p'.out) := by
  obtain ⟨l, hacc⟩ := downStep_accesses h
  obtain ⟨-, hphase, -⟩ := downStep_spec h
  refine ⟨_, hacc, fun hs hreads haccum hbelow => ?_⟩
  have hsum := silent_downTapSum hs haccum (hreads _ (by simp))
  refine ⟨silentSlots_of_offsets (ringOf p.phase) fun k hk => ?_, ?_⟩
  · refine (downStep_slot h ⟨k, hk⟩ : slotGet p'.accum (ringOf p.phase + BitVec.ofNat 3 k) = _) ▸ ?_
    split
    · exact silent_zeroSample
    · exact hsum _
  · rw [downStep_out h, downStep_emitted h, hphase]
    split
    · exact hbelow.setIfInBounds (hsum 0)
    · exact hbelow

theorem downSteps_silent : ∀ {m : Nat} {p p' : DownPass}, downSteps s b m p = .ok p' →
    ∃ l, p'.accesses = p.accesses ++ l ∧ (QuietSettings plus s → SilentReads plus s l → SilentSlots plus p.accum →
      SilentBelow plus p.emitted p.out → SilentSlots plus p'.accum ∧ SilentBelow plus p'.emitted p'.out) := by
  intro m
  induction m with
  | zero =>
    intro p p' h
    cases h
    exact ⟨[], (List.append_nil _).symm, fun _ _ haccum hbelow => ⟨haccum, hbelow⟩⟩
  | succ m ih =>
    intro p p' h
    obtain ⟨q, hq, h⟩ := downSteps_succ_eq_ok.1 h
    obtain ⟨l, hl, hsilent⟩ := ih hq
    obtain ⟨l', hl', hsilent'⟩ := downStep_silent h
    refine ⟨l ++ l', by rw [hl', hl, List.append_assoc], fun hs hreads haccum hbelow => ?_⟩
    obtain ⟨hreads, hreads'⟩ := silentReads_append.1 hreads
    obtain ⟨haccum, hbelow⟩ := hsilent hs hreads haccum hbelow
    exact hsilent' hs hreads' haccum hbelow

/-! ### The passes and the transitions -/

/-- Both arrays are silent, and every coefficient is a weight: what a block operation keeps (rule R207). -/
structure Quiet (plus : Prop) (s : State) : Prop extends QuietSettings plus s where
  ring : SilentSlots plus s.inputRing
  accum : SilentSlots plus s.outputAccum

theorem QuietSettings.of_kept (h : QuietSettings plus s) (hr : RatioRegistersKept s t) (hh : HostSideKept s t) :
    QuietSettings plus t :=
  ⟨by rw [hr.downscale]; exact h.downscale, by rw [hh.rom]; exact h.rom⟩

/-- From `s` to `t` a silent source keeps the state quiet and leaves the block `out` silent (rule R207). -/
def KeepsQuiet (plus : Prop) (s t : State) (out : Block) : Prop :=
  ∃ l, t.accesses = s.accesses ++ l ∧ (Quiet plus s → SilentReads plus s l → Quiet plus t ∧ SilentBelow plus 16 out)

theorem runUp_keepsQuiet (h : runUp c b s = .ok (c', t)) : KeepsQuiet plus s t (blockOf b t) := by
  have hkept := fun hs : QuietSettings plus s => hs.of_kept (.of_runUp h) (.of_runUp h)
  obtain ⟨p, hp, -, rfl⟩ := runUp_eq_ok.1 h
  obtain ⟨l, hl, hsilent⟩ := upSteps_silent (plus := plus) hp
  refine ⟨l, by cases b <;> exact hl, fun hs hreads => ?_⟩
  obtain ⟨hring, hbelow⟩ := hsilent hs.toQuietSettings hreads hs.ring
  cases b <;> exact ⟨⟨hkept hs.toQuietSettings, hring, hs.accum⟩, hbelow⟩

theorem runDown_keepsQuiet (h : runDown c b s = .ok (c', t)) : KeepsQuiet plus s t (blockOf b t) := by
  have hkept := fun hs : QuietSettings plus s => hs.of_kept (.of_runDown h) (.of_runDown h)
  obtain ⟨-, p, hp, -, rfl⟩ := runDown_eq_ok.1 h
  have hemitted := downLoop_emitted hp
  obtain ⟨m, -, hm, -⟩ := downLoop_eq_ok hp
  obtain ⟨l, hl, hsilent⟩ := downSteps_silent (plus := plus) hm
  refine ⟨l, by cases b <;> exact hl, fun hs hreads => ?_⟩
  obtain ⟨haccum, hbelow⟩ := hsilent hs.toQuietSettings hreads hs.accum fun i _ hi => absurd hi (Nat.not_lt_zero i)
  rw [hemitted] at hbelow
  cases b <;> exact ⟨⟨hkept hs.toQuietSettings, hs.ring, haccum⟩, hbelow⟩

/-- The blend of two silent blocks is silent (rule R168). -/
theorem silentBelow_blendBlock (d : Nat) {dst tmp : Block} (hdst : SilentBelow plus 16 dst) (htmp : SilentBelow plus 16 tmp) :
    SilentBelow plus 16 (blendBlock d dst tmp) := by
  intro n hn _
  by_cases hkeep : n < 8
  · rw [blendBlock_keep d dst tmp n hkeep]
    exact hdst n hn hn
  · obtain ⟨j, rfl⟩ : ∃ j : Fin 8, n = 8 + j.val := ⟨⟨n - 8, by omega⟩, by show n = 8 + (n - 8); omega⟩
    rw [blendBlock_fade d dst tmp j]
    exact (hdst _ hn hn).interpolate _ (weight_blendWeight j) (htmp _ hn hn)

/-- A transition: the old engine's block, the landing in `w`, the new engine's block, the blend (rules R164, R165, R168). -/
theorem KeepsQuiet.transition {w : State} (hold : KeepsQuiet plus s u u.dst) (hnew : KeepsQuiet plus w v v.tmp)
    (hdst : v.dst = u.dst) (hland : Quiet plus u → Quiet plus w) (hrecord : w.accesses = u.accesses) (hsrc : w.src = s.src) :
    KeepsQuiet plus s (blend v) (blend v).dst := by
  obtain ⟨l₁, hl₁, hold⟩ := hold
  obtain ⟨l₂, hl₂, hnew⟩ := hnew
  refine ⟨l₁ ++ l₂ ++ blendAccesses v.draws v.dst v.tmp, by simp [hl₁, hl₂, hrecord], fun hs hreads => ?_⟩
  obtain ⟨hreads, -⟩ := silentReads_append.1 hreads
  obtain ⟨hreads₁, hreads₂⟩ := silentReads_append.1 hreads
  obtain ⟨hu, hublock⟩ := hold hs hreads₁
  obtain ⟨hv, hvblock⟩ := hnew (hland hu) (by rwa [SilentReads, hsrc])
  rw [blend_dst]
  exact ⟨⟨hv.toQuietSettings.of_kept (.of_blend v) (.of_blend v), by rw [blend_inputRing]; exact hv.ring,
    by rw [blend_outputAccum]; exact hv.accum⟩, silentBelow_blendBlock _ (hdst ▸ hublock) hvblock⟩

theorem runUp2down_keepsQuiet (h : runUp2down c s = .ok (c', t)) : KeepsQuiet plus s t t.dst := by
  obtain ⟨_, u, v, hu, hv, rfl⟩ := runUp2down_eq_ok.1 h
  obtain ⟨hdst, -⟩ := runDown_tmp_keeps hv
  exact (runUp_keepsQuiet hu).transition (runDown_keepsQuiet hv) hdst
    (fun hq => ⟨hq.toQuietSettings.of_kept (.of_landDown u) (.of_landDown u), hq.ring, silentSlots_zeroSlots⟩) rfl
    (HostSideKept.of_runUp hu).src

theorem runDown2up_keepsQuiet (h : runDown2up c s = .ok (c', t)) : KeepsQuiet plus s t t.dst := by
  obtain ⟨_, u, v, hu, hv, rfl⟩ := runDown2up_eq_ok.1 h
  obtain ⟨hdst, -⟩ := runUp_tmp_keeps hv
  exact (runDown_keepsQuiet hu).transition (runUp_keepsQuiet hv) hdst
    (fun hq => ⟨hq.toQuietSettings.of_kept (.of_landUp u) (.of_landUp u), silentSlots_zeroSlots, hq.accum⟩) rfl
    (HostSideKept.of_runDown hu).src

/-- The cursor on the response port is no sample. -/
theorem KeepsQuiet.respond {out : Block} (h : KeepsQuiet plus s t out) (c : Nat) : KeepsQuiet plus s (respond c t) out := by
  obtain ⟨l, hl, hkeeps⟩ := h
  refine ⟨l, hl, fun hs hreads => ?_⟩
  obtain ⟨ht, hblock⟩ := hkeeps hs hreads
  exact ⟨⟨ht.toQuietSettings.of_kept (.of_respond c t) (.of_respond c t), ht.ring, ht.accum⟩, hblock⟩

/-- Every block operation keeps silence (rule R207). -/
theorem process16_keepsQuiet {i : Instr} (hi : IsProcess16 c i) (h : exec i s = .next t) : KeepsQuiet plus s t t.dst := by
  rcases hi with rfl | rfl | rfl | rfl
  · obtain ⟨c', u, hu, rfl⟩ := answer_eq_next.1 h
    exact (runUp_keepsQuiet hu).respond c'
  · obtain ⟨c', u, hu, rfl⟩ := answer_eq_next.1 h
    exact (runDown_keepsQuiet hu).respond c'
  · obtain ⟨c', u, hu, rfl⟩ := answer_eq_next.1 h
    exact (runUp2down_keepsQuiet hu).respond c'
  · obtain ⟨c', u, hu, rfl⟩ := answer_eq_next.1 h
    exact (runDown2up_keepsQuiet hu).respond c'

/-- Silence kept by a block operation, for the record it appends: the form of the zero-input law (rule R207). -/
theorem process16_silent {i : Instr} {l : List Access} (hi : IsProcess16 c i) (h : exec i s = .next t)
    (hl : t.accesses = s.accesses ++ l) (hs : Quiet plus s) (hreads : SilentReads plus s l) :
    (∀ (n : Nat) (h : n < 16), Silent plus t.dst[n]) ∧ SilentSlots plus t.inputRing ∧ SilentSlots plus t.outputAccum := by
  obtain ⟨l', hl', hkeeps⟩ := process16_keepsQuiet (plus := plus) hi h
  obtain rfl := List.append_cancel_left (hl.symm.trans hl')
  obtain ⟨ht, hblock⟩ := hkeeps hs hreads
  exact ⟨fun n hn => hblock n hn hn, ht.ring, ht.accum⟩

end Silence

/-- Settles O60: silence is kept by every operator, so by each engine's step, each pass, and the blend; once for zeros of
either sign and once for +0.0. -/
theorem zerosInZerosOut : Obligations.ZerosInZerosOut := by
  unfold Obligations.ZerosInZerosOut
  intro s t c i l hi h hl hscale
  refine ⟨fun hring haccum hreads => ?_, fun hring haccum hreads hsign hrom => ?_⟩
  · simp only [← silent_false_iff] at hring haccum hreads ⊢
    exact process16_silent hi h hl
      ⟨⟨⟨hscale, False.elim⟩, fun row k => ⟨s.rom.finite row k, False.elim⟩⟩, hring, haccum⟩ hreads
  · simp only [← silent_true_iff] at hring haccum hreads ⊢
    exact process16_silent hi h hl
      ⟨⟨⟨hscale, fun _ => hsign⟩, fun row k => ⟨s.rom.finite row k, fun _ => hrom row k⟩⟩, hring, haccum⟩ hreads

end Sys2Proof.Machine

namespace Sys2Proof.Machine

/-- Settles O7: this is what a step with no input runs. -/
theorem idleHoldsTheState : Obligations.IdleHoldsTheState := fun _ => step_idle

/-- Settles O16: the reset row writes its registers, which hold the conversions of 1.0, and `cmd = 000` names that row whatever
its mode bits are. -/
theorem resetWritesEveryRegister : Obligations.ResetWritesEveryRegister := by
  unfold Obligations.ResetWritesEveryRegister
  obtain ⟨hds, hup, hdown⟩ := conversions_of_one
  exact ⟨exec_reset, hds, hup, hdown, fun w mm arg => decodeCommand_reset w arg mm⟩

/-! ### A host that keeps its duties -/

/-- What rule R243 asks of one command, in the state it is given in: not a reserved code, an operand that is admitted or maps
to an admitted one, 128 readable cursors before a block. -/
structure LegalCommand (s : State) (cmd : BitVec 3) (arg : Nat) : Prop where
  code : cmd.toNat < 4
  ratio : cmd = 0b001#3 → admitted s.envelope (argSample arg) = true
  transposition : cmd = 0b010#3 →
    isFinite (argSample arg) = true ∧ admitted s.envelope (Config.exp2_12.value (argSample arg)) = true
  window : cmd = 0b011#3 → WindowValid s arg 128

/-- A block sees the cursor of its argument, from which the same cursors are readable (rules R59, R92). -/
theorem windowValid_argCursor (s : State) (arg n : Nat) :
    WindowValid s (argCursor s.cursorW arg) n ↔ WindowValid s arg n := by
  simp only [WindowValid, argCursor, wrapCursor_add]

/-- A legal command completes, whichever row `mode` makes it run (rules R91, R220). -/
theorem LegalCommand.completes {s : State} {cmd : BitVec 3} {arg : Nat} (h : LegalCommand s cmd arg) (hs : Inv s)
    (he : WithinDefault s.envelope) : ∃ t, exec (decodeCommand s.cursorW (dispatchWord cmd s.mode) arg) s = .next t := by
  rcases command_cases cmd with rfl | rfl | rfl | rfl | ⟨cc, rfl⟩
  · rw [dispatchWord, decodeCommand_reset, exec_reset]
    exact ⟨_, rfl⟩
  · rw [dispatchWord, decodeCommand_setRatio, exec_setRatio]
    exact ⟨_, applyRatio_eq_next.2 ⟨h.ratio rfl, rfl⟩⟩
  · obtain ⟨hx, hq⟩ := h.transposition rfl
    rw [dispatchWord, decodeCommand_transpose, exec_transpose]
    exact ⟨_, execTranspose_eq_next.2 ⟨hx, applyRatio_eq_next.2 ⟨hq, rfl⟩⟩⟩
  · have hready : ReadyFor (argCursor s.cursorW arg) s := ⟨hs, he, (windowValid_argCursor s arg 128).2 (h.window rfl)⟩
    obtain ⟨t, ht, -⟩ := hready.exec_process16_completes (decodeCommand_process16 s.cursorW arg s.mode)
    exact ⟨t, ht⟩
  · have := (four_le_toNat_iff (0b1#1 ++ cc)).2 ⟨cc, rfl⟩
    exact absurd h.code (by omega)

/-- The invariant, an envelope within the default one, and a host whose remaining inputs keep its duties (rules R34, R243): what
every step keeps and what makes the next one complete. -/
structure UnderDuties (s : State) : Prop where
  inv : Inv s
  envelope : WithinDefault s.envelope
  duties : Dutiful s.envelope s.cursorW s.srcValid s.inputs

namespace UnderDuties

variable {s : State}

/-- The next command is legal once accepted, and the inputs after it keep the duties still (log entry 14). -/
theorem accepts_legal {cmd : BitVec 3} {arg : Nat} {rest : List Input} (h : UnderDuties s)
    (hi : s.inputs = .command cmd arg :: rest) :
    LegalCommand (acceptCommand rest s) cmd arg ∧ UnderDuties (acceptCommand rest s) := by
  have hd := h.duties
  rw [hi] at hd
  obtain ⟨hcode, hratio, htrans, hwindow, hrest⟩ := hd
  exact ⟨⟨hcode, hratio, htrans, hwindow⟩, h.inv.of_acceptCommand rest, h.envelope, hrest⟩

/-- A completed row of the opcode table keeps the invariant and the host's side. -/
theorem of_exec {t : State} {i : Instr} (h : UnderDuties s) (hexec : exec i s = .next t) : UnderDuties t := by
  have hh := HostSideKept.of_exec hexec
  refine ⟨h.inv.of_exec hexec, by rw [hh.envelope]; exact h.envelope, ?_⟩
  rw [hh.envelope, hh.cursorW, hh.srcValid, hh.inputs]
  exact h.duties

/-- Progress and preservation, by the host's next input. -/
theorem step_completes (h : UnderDuties s) : ∃ t, step s = .next t ∧ UnderDuties t := by
  cases hi : s.inputs with
  | nil => exact ⟨s, step_idle hi, h⟩
  | cons i rest =>
    cases i with
    | command cmd arg =>
      obtain ⟨hlegal, hnext⟩ := h.accepts_legal hi
      obtain ⟨t, ht⟩ := hlegal.completes hnext.inv hnext.envelope
      exact ⟨t, (step_command hi).trans ht, hnext.of_exec ht⟩
    | writeSource c v =>
      have hd := h.duties
      rw [hi] at hd
      exact ⟨_, step_writeSource hi, h.inv.of_hostWriteSource c v rest, h.envelope, hd⟩
    | setValid ws =>
      have hd := h.duties
      rw [hi] at hd
      exact ⟨_, step_setValid hi, h.inv.of_hostSetValid ws rest, h.envelope, hd⟩

theorem safeFor (k : Nat) (h : UnderDuties s) : SafeFor k s := by
  induction k generalizing s with
  | zero => trivial
  | succ k ih =>
    obtain ⟨t, hstep, ht⟩ := h.step_completes
    exact ⟨t, hstep, ih ht⟩

end UnderDuties

/-- Settles O15: the invariant, the envelope and the duties left make every step complete and are kept by it. -/
theorem dutifulHostNeverStops : Obligations.DutifulHostNeverStops := by
  unfold Obligations.DutifulHostNeverStops
  intro k s hs he hd
  exact UnderDuties.safeFor k ⟨hs, he, hd⟩

end Sys2Proof.Machine
